-- ==== Sys2Proof/Word.lean ====
section
/-!
DEFINITION. The word types of the core: what the spec treats as patterns of bits.
-/

namespace Sys2Proof

/-- A host register, a command word, or the 32-bit encoding of one `Num` value (R16, R25, R90). -/
abbrev Word := BitVec 32

/-- One value of the carrier of the configuration's `Num` (R16), by its number: the carrier's values
are numbered, and `fzero` is number 0. For binary32 the number of a value is its pattern read as an
unsigned integer. DESIGN CHOICE (log 26): the state can then hold a value of any countable carrier
as plain data. -/
abbrev Scalar := Nat

/-- One element of a sample buffer, a 16-bit two's complement pattern (R27). -/
abbrev Sample := BitVec 16

/-- A 4-bit operand field of a command, or the buffer field of `BUF_ADDR` (R35, R91). -/
abbrev Nibble := BitVec 4

/-- The contents of one buffer of samples or of scalars: (element index, element) pairs, index
strictly rising, no pair with a zero element. An index that is not listed holds zero, the value of
every element after reset (R39; for a scalar it is `fzero`). An element is the smallest unit the spec
addresses (R60). -/
abbrev Buf (α : Type) := List (Nat × α)

end Sys2Proof
end

