-- ==== Sys2Proof/Syntax.lean ====
section
/-!
DEFINITION. The commands of the core (30_encoding.md), one constructor for each row of the opcode
table, and the buffers they name.
-/

namespace Sys2Proof

/-- The seven buffers (R26). Ids 7 to 15 are reserved and name no buffer (R95). -/
inductive BufId where
  | probe | capture | mono | ssp | rsp | xsp | tw
deriving DecidableEq, Repr

/-- A command. `d` is the destination or only operand, `a` and `b` the sources (R91). The operands
range over every buffer; which of them a command allows is R96, checked by `Instr.wellFormed`. -/
inductive Instr where
  | start
  | synth
  | downmix
  | corrt
  | corrf
  | todist
  | twgen
  | bitrev (d : BufId)
  | fft (d : BufId)
  | ifft (d : BufId)
  | cmul (d a b : BufId)
  | padp
  | pade
  | peak (d : BufId)
deriving DecidableEq, Repr

end Sys2Proof
end

