-- ==== Sys2Proof/WellFormed.lean ====
section
/-!
DEFINITION. Which operands a command allows (R96).
-/

namespace Sys2Proof

/-- `SPEC` of R96: one of the three spectrum buffers. -/
def BufId.isSpectrum : BufId → Bool
  | .ssp | .rsp | .xsp => true
  | .probe | .capture | .mono | .tw => false

/-- The buffers `BITREV` permutes (R96): a spectrum buffer or the twiddle table. -/
def BufId.isPermutable : BufId → Bool
  | .ssp | .rsp | .xsp | .tw => true
  | .probe | .capture | .mono => false

/-- R96, R98: every operand of the command is a buffer its opcode allows. -/
def Instr.wellFormed : Instr → Bool
  | .start | .synth | .downmix | .corrt | .corrf | .todist | .twgen | .padp | .pade => true
  | .bitrev d => d.isPermutable
  | .fft d => d.isSpectrum
  | .ifft d => d.isSpectrum
  | .peak d => d.isSpectrum
  | .cmul d a b => d.isSpectrum && a.isSpectrum && b.isSpectrum

end Sys2Proof
end

