-- ==== Sys2Proof/Decode.lean ====
section
/-!
DEFINITION. Decoding and encoding of the 32-bit command word (R90 to R101).
-/

namespace Sys2Proof

/-- Why a word is illegal (R98). All four have the same effect on the machine (R100). -/
inductive DecodeError where
  /-- `OP` is not in the table of R97. -/
  | reservedOpcode (op : BitVec 8)
  /-- The field `ZERO`, bits 11:0, is not 0. -/
  | zeroField
  /-- An operand field the format does not use is not 0 (R92 to R94). -/
  | unusedField
  /-- An operand field holds an id its opcode does not allow, or a reserved id (R95, R96). -/
  | operand
deriving DecidableEq, Repr

/-- The buffer a 4-bit id names; ids 7 to 15 are reserved (R26, R95). -/
def BufId.ofNibble (n : Nibble) : Option BufId :=
  match n.toNat with
  | 0 => some .probe
  | 1 => some .capture
  | 2 => some .mono
  | 3 => some .ssp
  | 4 => some .rsp
  | 5 => some .xsp
  | 6 => some .tw
  | _ => none

/-- The 4-bit id of a buffer (R26, R95). -/
def BufId.nibble : BufId → Nibble
  | .probe => 0
  | .capture => 1
  | .mono => 2
  | .ssp => 3
  | .rsp => 4
  | .xsp => 5
  | .tw => 6

/-- The fields of the command word (R91). -/
def opField (w : Word) : BitVec 8 := w.extractLsb' 24 8
def dField (w : Word) : Nibble := w.extractLsb' 20 4
def aField (w : Word) : Nibble := w.extractLsb' 16 4
def bField (w : Word) : Nibble := w.extractLsb' 12 4
def zeroField (w : Word) : BitVec 12 := w.extractLsb' 0 12

/-- An operand field read as a buffer that satisfies `ok` (R96). -/
def operandField (ok : BufId → Bool) (n : Nibble) : Except DecodeError BufId :=
  match BufId.ofNibble n with
  | some b => if ok b then .ok b else .error .operand
  | none => .error .operand

/-- Format `N` (R92): no operand field is used. -/
def decodeN (w : Word) (i : Instr) : Except DecodeError Instr :=
  if dField w = 0 ∧ aField w = 0 ∧ bField w = 0 then .ok i else .error .unusedField

/-- Format `X` (R93): one buffer in `D`, fields `A` and `B` unused. -/
def decodeX (w : Word) (ok : BufId → Bool) (f : BufId → Instr) : Except DecodeError Instr :=
  if aField w = 0 ∧ bField w = 0 then (operandField ok (dField w)).map f else .error .unusedField

/-- Format `T` (R94): buffers in `D`, `A` and `B`. -/
def decodeT (w : Word) (ok : BufId → Bool) (f : BufId → BufId → BufId → Instr) :
    Except DecodeError Instr :=
  match operandField ok (dField w), operandField ok (aField w), operandField ok (bField w) with
  | .ok d, .ok a, .ok b => .ok (f d a b)
  | _, _, _ => .error .operand

/-- The decoder: total on all `2^32` words, every word that is not well formed rejected (R97,
R98). -/
def decode (w : Word) : Except DecodeError Instr :=
  if zeroField w ≠ 0 then .error .zeroField
  else match (opField w).toNat with
  | 0x01 => decodeN w .start
  | 0x10 => decodeN w .synth
  | 0x11 => decodeN w .downmix
  | 0x12 => decodeN w .corrt
  | 0x13 => decodeN w .corrf
  | 0x14 => decodeN w .todist
  | 0x20 => decodeN w .twgen
  | 0x21 => decodeX w BufId.isPermutable .bitrev
  | 0x22 => decodeX w BufId.isSpectrum .fft
  | 0x23 => decodeX w BufId.isSpectrum .ifft
  | 0x24 => decodeT w BufId.isSpectrum .cmul
  | 0x25 => decodeN w .padp
  | 0x26 => decodeN w .pade
  | 0x27 => decodeX w BufId.isSpectrum .peak
  | _ => .error (.reservedOpcode (opField w))

/-- A command word from its fields, `ZERO` being 0 (R91). -/
def pack (op : BitVec 8) (d a b : Nibble) : Word := op ++ d ++ a ++ b ++ (0 : BitVec 12)

/-- The word of a command (R92 to R94, R97). For a command that is not well formed it is the word
with that operand in its field, which is illegal. -/
def encode : Instr → Word
  | .start => pack 0x01 0 0 0
  | .synth => pack 0x10 0 0 0
  | .downmix => pack 0x11 0 0 0
  | .corrt => pack 0x12 0 0 0
  | .corrf => pack 0x13 0 0 0
  | .todist => pack 0x14 0 0 0
  | .twgen => pack 0x20 0 0 0
  | .bitrev d => pack 0x21 d.nibble 0 0
  | .fft d => pack 0x22 d.nibble 0 0
  | .ifft d => pack 0x23 d.nibble 0 0
  | .cmul d a b => pack 0x24 d.nibble a.nibble b.nibble
  | .padp => pack 0x25 0 0 0
  | .pade => pack 0x26 0 0 0
  | .peak d => pack 0x27 d.nibble 0 0

/-- The command the decoder reads from an instruction whose bits are `w`, numbered as the opcode
table numbers them: one 32-bit word, bit 0 its least significant bit (R90, R91). -/
def decodeTableWord (nbits w : Nat) : Option Instr :=
  if nbits ≤ 32 ∧ w < 2 ^ nbits then (decode (BitVec.ofNat 32 w)).toOption else none

end Sys2Proof
end

