-- ==== Sys2Proof/Config.lean ====
section
/-!
DEFINITION. What an implementation fixes (00_scope.md R8, R9), the number format `Num` as a record
(R13, R16), and the free values: constants without a body, of which nothing can be proved but
their type.
-/

namespace Sys2Proof

/-! ### The record `Num` -/

/-- The literals the operations pass to `fconst` (R13): 1, 2 and 2π. -/
inductive Literal where
  | one | two | twoPi
deriving DecidableEq, Repr

/-- The real number a literal is (R13, R121, R200). -/
def Literal.Denotes (l : Literal) (r : ℝ) : Prop :=
  match l with
  | .one => r = 1
  | .two => r = 2
  | .twoPi => r = 2 * Real.pi

/-- What the quantizer needs to know of a value (R122): NaN, an infinity, or its integer part,
rounding toward zero. -/
inductive IntegerPart where
  | nan | posInf | negInf
  | int (z : Int)
deriving DecidableEq, Repr, Inhabited

/-- The record `Num` over a carrier `F`: the operations of R13 and the 32-bit encoding of R16, which
only the host window and `RESULT` use (R31, R36). `isZero` and `scaledPart` are the model's fields for
what R13, R17 and R122 ask of a value: whether it is a zero, of either sign, and the integer part of
`2^k` times it, which over all `k` is the number it stands for (log 25, 26). The algorithms are written
for any carrier. -/
structure Num (F : Type) where
  fadd : F → F → F
  fsub : F → F → F
  fmul : F → F → F
  fdiv : F → F → F
  fsqrt : F → F
  fcos : F → F
  fsin : F → F
  i2f : Int → F
  fgt : F → F → Bool
  fconst : Literal → F
  fzero : F
  isZero : F → Bool
  scaledPart : Nat → F → IntegerPart
  bits : F → Word
  unbits : Word → F
deriving Inhabited

/-- The integer part of a value, as the quantizer takes it (R122). -/
def Num.integerPart {F : Type} (nu : Num F) (a : F) : IntegerPart := nu.scaledPart 0 a

/-- A positive finite value (R8 on `GAIN`, D4): it exceeds `fzero` and has an integer part. -/
def Num.Positive {F : Type} (nu : Num F) (a : F) : Prop :=
  nu.fgt a nu.fzero = true ∧ ∃ z, nu.integerPart a = .int z

/-- Under `value`, `a` stands for the real number `x`. -/
def Num.StandsFor (nu : Num Scalar) (value : Scalar → EReal) (a : Scalar) (x : ℝ) : Prop :=
  nu.integerPart a ≠ .nan ∧ value a = x

/-- `a` stands for a real number that is as near to `r` as that of any value (R13). -/
def Num.Nearest (nu : Num Scalar) (value : Scalar → EReal) (a : Scalar) (r : ℝ) : Prop :=
  ∃ x, nu.StandsFor value a x ∧ ∀ b y, nu.StandsFor value b y → |x - r| ≤ |y - r|

/-- `value` gives each value of the carrier but a NaN the number it stands for. The first five laws
leave it no choice (`Num.IsValuation.unique`). -/
structure Num.IsValuation (nu : Num Scalar) (value : Scalar → EReal) : Prop where
  nan : ∀ a k, nu.scaledPart k a = .nan ↔ nu.integerPart a = .nan
  posInf : ∀ a k, nu.scaledPart k a = .posInf → value a = ⊤
  negInf : ∀ a k, nu.scaledPart k a = .negInf → value a = ⊥
  /-- Any other value is real, and `scaledPart` rounds toward zero (R122). -/
  int : ∀ a k z, nu.scaledPart k a = .int z →
    ∃ r : ℝ, value a = r ∧ |(z : ℝ)| ≤ |2 ^ k * r| ∧ |2 ^ k * r - z| < 1
  /-- R17: the zeros of either sign are equal. -/
  zero : ∀ a, nu.isZero a = true ↔ nu.StandsFor value a 0
  /-- R17: false on a NaN, and otherwise the order of the numbers. -/
  gt : ∀ a b, nu.fgt a b = true ↔
    nu.integerPart a ≠ .nan ∧ nu.integerPart b ≠ .nan ∧ value b < value a
  /-- R13: `fconst` of a literal is a value nearest it. A carrier without one, as the rationals for 2π
  (D1), is left free (log 26). -/
  const : ∀ l r, l.Denotes r → (∃ a, nu.Nearest value a r) → nu.Nearest value (nu.fconst l) r
  /-- R13: `i2f` converts an integer: exactly where a value stands for it (log 26). -/
  ofInt : ∀ z : Int, (∃ a, nu.StandsFor value a z) → nu.StandsFor value (nu.i2f z) z

/-- What the spec says of every `Num` (log 26). `numbered_zero` alone is the model's: `fzero` is the
value with number 0. How `fadd` to `fsqrt` round, and `i2f` an integer no value stands for, the spec
says of binary32 only (R16). -/
structure Num.Lawful (nu : Num Scalar) : Prop where
  numbered_zero : nu.fzero = 0
  /-- R13: `fzero` is a zero. -/
  zero_isZero : nu.isZero nu.fzero = true
  /-- R16. -/
  cos_zero : nu.fcos nu.fzero = nu.fconst .one
  /-- R16. -/
  sin_zero : nu.fsin nu.fzero = nu.fzero
  /-- R240, R272: the sample 0 and the index 0 convert to `fzero`. -/
  i2f_zero : nu.i2f 0 = nu.fzero
  /-- R272: `fzero · SPEED`. -/
  zero_mul : ∀ a, nu.Positive a → nu.fmul nu.fzero a = nu.fzero
  /-- R240 (`fdiv(fzero, GAIN) = fzero`), R272. -/
  zero_div : ∀ a, nu.Positive a → nu.fdiv nu.fzero a = nu.fzero
  /-- R200: the angle of twiddle 0 is `fzero` under every `Num`, for every length R9 allows. -/
  zero_angle : ∀ k < 28,
    nu.fdiv (nu.fmul (nu.i2f 0) (nu.fconst .twoPi)) (nu.i2f (2 ^ k : Nat)) = nu.fzero
  /-- R39: the pattern of a scalar after reset. -/
  bits_zero : nu.bits nu.fzero = 0
  /-- R13, R17: the values stand for numbers, by which `fgt` orders them and `fconst` and `i2f` give
  theirs. -/
  valued : ∃ value, nu.IsValuation value

/-! ### Free values -/

/-- FREE VALUE (R8, R16, D1; log 4): the `Num` an implementation takes in place of the default. -/
opaque Config.freeNum : Nat → Num Scalar

/-- The arithmetic operations that can produce a NaN. -/
inductive NumOp where
  | add | sub | mul | div | sqrt
deriving DecidableEq, Repr

/-- FREE VALUE (R16, U11; log 5): the cosine of a pattern other than `+0`. -/
opaque Config.freeCos : Word → Word

/-- FREE VALUE (R16, U11; log 5): the sine of a pattern other than `+0`. -/
opaque Config.freeSin : Word → Word

/-- FREE VALUE (R17, U9; log 6): the sign and payload of the NaN an operation produces from its
operands. -/
opaque Config.freeNan : NumOp → Word → Word → Word

/-! ### The parameters -/

/-- The correlator the processing job runs (R8, R156). -/
inductive Strategy where
  | time | freq
deriving DecidableEq, Repr

/-- The parameter `Num` (R8): the default instance of R16, or any other, by a name. -/
inductive NumFormat where
  | binary32
  | other (name : Nat)
deriving DecidableEq, Repr

/-- The parameters of one instance of the core (R8). The real-valued constants are values of the
carrier of `num`. -/
structure Params where
  /-- `SWEEP_LEN`, the length of the probe in samples. -/
  sweepLen : Nat
  /-- `RESPONSE_MONO`, the length of the mono echo in samples. -/
  responseMono : Nat
  /-- `FFT_LEN`, the length of a spectrum buffer in scalars. -/
  fftLen : Nat
  /-- `ACC_W`, the width of the time-domain accumulator (R192). -/
  accW : Nat
  strategy : Strategy
  /-- `Num`. -/
  num : NumFormat
  f0 : Scalar
  df : Scalar
  fs : Scalar
  gain : Scalar
  speed : Scalar
  rate : Scalar
deriving DecidableEq, Repr

/-- `RESPONSE_LEN = 2 × RESPONSE_MONO` (R8, R9 item 2). -/
def Params.responseLen (p : Params) : Nat := 2 * p.responseMono

/-- `N = FFT_LEN / 2`, the transform length in complex samples (R8). -/
def Params.n (p : Params) : Nat := p.fftLen / 2

/-- R9 on the lengths. Item 3 asks that `FFT_LEN` be at least the smallest power of two at or above
`RESPONSE_LEN`; as `FFT_LEN` is itself a power of two this is `RESPONSE_LEN ≤ FFT_LEN`. DEDUCED:
`ACC_W` is at least 1 (a width of 0 bits holds no integer). Log 3. -/
abbrev Params.LegalLengths (p : Params) : Prop :=
  p.fftLen = 2 ^ Nat.log2 p.fftLen ∧
  p.responseLen ≤ p.fftLen ∧
  4 ≤ p.fftLen ∧
  p.sweepLen % 2 = 0 ∧ 4 ≤ p.sweepLen ∧
  p.sweepLen ≤ p.n ∧
  1 ≤ p.responseMono ∧
  p.responseLen < 2 ^ 28 ∧ p.fftLen < 2 ^ 28 ∧ p.sweepLen < 2 ^ 28 ∧
  1 ≤ p.accW

/-- R8 and D4 on `Num` and `GAIN`: the `Num` obeys the spec's laws, and `GAIN` is positive and finite.
In binary32 every constant is a pattern, and that of `GAIN` has sign 0, is not zero, and has an
exponent that is not all ones (DEDUCED, log 3). -/
def Params.LegalNum (p : Params) : Prop :=
  match p.num with
  | .binary32 => 0 < p.gain ∧ p.gain < 0x7F800000 ∧
      ∀ a ∈ [p.f0, p.df, p.fs, p.speed, p.rate], a < 2 ^ 32
  | .other name => (Config.freeNum name).Lawful ∧ (Config.freeNum name).Positive p.gain

/-- A legal configuration: an illegal one cannot be built (R9, R281). -/
structure Config extends Params where
  legalLengths : toParams.LegalLengths
  legalNum : toParams.LegalNum
deriving DecidableEq, Repr

/-- The instance `State.reset` stands on: the lengths of the source's example (R8), the gain of the
test program P5, the default `Num` and accumulator width, the source's constants. DESIGN CHOICE, log
2: the spec leaves the lengths, `GAIN` and `STRATEGY` open. -/
def Config.example8 : Config where
  sweepLen := 8
  responseMono := 12
  fftLen := 32
  accW := 64
  strategy := .time
  num := .binary32
  f0 := 0x447A0000     -- 1000
  df := 0x40C80000     -- 6.25
  fs := 0x473B8000     -- 48000
  gain := 0x461C4000   -- 10000
  speed := 0x43AA0000  -- 340
  rate := 0x47BB8000   -- 96000
  legalLengths := by decide
  legalNum := ⟨by decide, by decide, by decide⟩

end Sys2Proof
end

