-- ==== Sys2Proof/Machine/Arith.lean ====
section
/-!
DEFINITION. Integer arithmetic of the notation (R11), the quantizer's clamp (R122) and the bit
reversal (R203).
-/

namespace Sys2Proof.Machine

open Sys2Proof

/-- `wrap_W(z)`: the integer congruent to `z` modulo `2^W` in `[-2^(W-1), 2^(W-1))` (R11). -/
def wrapTo (w : Nat) (z : Int) : Int := z.bmod (2 ^ w)

/-- `sext_16` of a sample, as an integer (R11, R76). -/
def sampleValue (v : Sample) : Int := v.toInt

/-- The integer part of a scaled amplitude as a sample, saturating at both ends (R122). -/
def saturate (z : Int) : Sample :=
  if z ≥ 32767 then 32767
  else if z ≤ -32768 then BitVec.ofInt 16 (-32768)
  else BitVec.ofInt 16 z

/-- `k` binary digits of `i` in reverse order: `rev_n(i)` of R203 for `n = 2^k`. -/
def reverseBits : Nat → Nat → Nat
  | 0, _ => 0
  | k + 1, i => i % 2 * 2 ^ k + reverseBits k (i / 2)

end Sys2Proof.Machine
end

