-- ==== Sys2Proof/Machine/Float32.lean ====
section
/-!
DEFINITION. The default instance of `Num`: IEEE 754 binary32 with round to nearest even, every
operation rounded on its own (R16, R17, R63, D1, D12), and the `Num` of a configuration (R8). PRESUMED
(log 4): the spec gives binary32 as general knowledge. A pattern is taken apart into an exact value
`± m · 2^e`, the operation is done on integers, and the exact result is rounded once.
-/

namespace Sys2Proof.Machine

open Sys2Proof

/-- What a binary32 pattern stands for. A finite value is `± m · 2^e`; a zero keeps its sign. -/
inductive FloatVal where
  | nan
  | inf (neg : Bool)
  | fin (neg : Bool) (m : Nat) (e : Int)
deriving DecidableEq, Repr

/-- The fields of a pattern: sign bit 31, exponent 30:23, fraction 22:0 (R63). -/
def signOf (w : Word) : Bool := w.toNat / 2 ^ 31 == 1
def exponentOf (w : Word) : Nat := w.toNat / 2 ^ 23 % 256
def fractionOf (w : Word) : Nat := w.toNat % 2 ^ 23

/-- A pattern taken apart. -/
def unpack (w : Word) : FloatVal :=
  if exponentOf w = 255 then
    if fractionOf w = 0 then .inf (signOf w) else .nan
  else if exponentOf w = 0 then .fin (signOf w) (fractionOf w) (-149)
  else .fin (signOf w) (fractionOf w + 2 ^ 23) ((exponentOf w : Int) - 150)

def isNaN (w : Word) : Bool := exponentOf w == 255 && fractionOf w != 0

/-- A pattern from a sign and the 31 bits below it. -/
def withSign (neg : Bool) (magnitude : Nat) : Word :=
  BitVec.ofNat 32 ((if neg then 2 ^ 31 else 0) + magnitude)

def infinity (neg : Bool) : Word := withSign neg 0x7F800000
def signedZero (neg : Bool) : Word := withSign neg 0

/-- A NaN whose sign and fraction are those of `p`; a fraction of 0, which would make it an
infinity, is replaced by its top bit. Every NaN is `nanFrom p` for some `p`. -/
def nanFrom (p : Word) : Word :=
  withSign (signOf p) (0x7F800000 + (if fractionOf p = 0 then 2 ^ 22 else fractionOf p))

/-- FREE VALUE (U9; log 6): some NaN, which one being left open. -/
def producedNaN (op : NumOp) (a b : Word) : Word := nanFrom (Config.freeNan op a b)

/-- `m / 2^k` to the nearest integer, a tie to the even one. -/
def roundShift (m k : Nat) : Nat :=
  let q := m / 2 ^ k
  let r := m % 2 ^ k
  if 2 * r > 2 ^ k ∨ (2 * r = 2 ^ k ∧ q % 2 = 1) then q + 1 else q

/-- The binary32 value nearest `± m · 2^e`. The last place of the result has weight `2^l`, `l` being
set by the leading bit of `m` and at least -149; the magnitude's pattern is the rounded significand
plus `(l + 149) · 2^23`, which also takes care of a significand that rounds up to the next power of
two. Beyond the largest finite pattern it is the infinity. -/
def roundPack (neg : Bool) (m : Nat) (e : Int) : Word :=
  if m = 0 then signedZero neg
  else
    let l : Int := max (e + (Nat.log2 m : Int) - 23) (-149)
    let q := if l ≤ e then m * 2 ^ (e - l).toNat else roundShift m (l - e).toNat
    let magnitude := q + (l + 149).toNat * 2 ^ 23
    if magnitude ≥ 0x7F800000 then infinity neg else withSign neg magnitude

/-- The integer `± m · 2^(e - g)`, for `g ≤ e`. -/
def scaled (neg : Bool) (m : Nat) (e g : Int) : Int :=
  let z : Int := (m * 2 ^ (e - g).toNat : Nat)
  if neg then -z else z

/-- The sum of two values taken apart; `nan` is the pattern for an invalid operation. An exact zero
sum is `-0` only when both summands are negative. -/
def addVals (nan : Word) (x y : FloatVal) : Word :=
  match x, y with
  | .nan, _ => nan
  | .inf _, .nan => nan
  | .fin _ _ _, .nan => nan
  | .inf s, .inf t => if s = t then infinity s else nan
  | .inf s, .fin _ _ _ => infinity s
  | .fin _ _ _, .inf t => infinity t
  | .fin s m e, .fin t n f =>
    let g := min e f
    let z := scaled s m e g + scaled t n f g
    if z = 0 then signedZero (s && t) else roundPack (decide (z < 0)) z.natAbs g

/-- The same value with its sign changed. -/
def FloatVal.negate : FloatVal → FloatVal
  | .nan => .nan
  | .inf s => .inf (!s)
  | .fin s m e => .fin (!s) m e

def floatAdd (a b : Word) : Word := addVals (producedNaN .add a b) (unpack a) (unpack b)

def floatSub (a b : Word) : Word := addVals (producedNaN .sub a b) (unpack a) (unpack b).negate

def floatMul (a b : Word) : Word :=
  match unpack a, unpack b with
  | .nan, _ => producedNaN .mul a b
  | .inf _, .nan => producedNaN .mul a b
  | .fin _ _ _, .nan => producedNaN .mul a b
  | .inf s, .inf t => infinity (s != t)
  | .inf s, .fin t n _ => if n = 0 then producedNaN .mul a b else infinity (s != t)
  | .fin s m _, .inf t => if m = 0 then producedNaN .mul a b else infinity (s != t)
  | .fin s m e, .fin t n f => roundPack (s != t) (m * n) (e + f)

/-- Division. The quotient of the significands is taken to 64 more places than an integer quotient,
and its last bit records whether a remainder is left, so that rounding it once rounds the exact
quotient. -/
def floatDiv (a b : Word) : Word :=
  match unpack a, unpack b with
  | .nan, _ => producedNaN .div a b
  | .inf _, .nan => producedNaN .div a b
  | .fin _ _ _, .nan => producedNaN .div a b
  | .inf _, .inf _ => producedNaN .div a b
  | .inf s, .fin t _ _ => infinity (s != t)
  | .fin s _ _, .inf t => signedZero (s != t)
  | .fin s m e, .fin t n f =>
    if n = 0 then
      if m = 0 then producedNaN .div a b else infinity (s != t)
    else
      let q := m * 2 ^ 64 / n
      let sticky := if m * 2 ^ 64 % n = 0 then 0 else 1
      roundPack (s != t) (2 * q + sticky) (e - f - 65)

/-- The integer square root of `n < 4^k`, found bit by bit from `2^(k-1)` down; `r` is what is found
so far. -/
def sqrtBits (n : Nat) : Nat → Nat → Nat
  | 0, r => r
  | k + 1, r => if (r + 2 ^ k) * (r + 2 ^ k) ≤ n then sqrtBits n k (r + 2 ^ k) else sqrtBits n k r

/-- Square root. The significand is scaled by `2^64` or `2^65` so that the exponent is even; the
last bit of the root records whether it is exact. -/
def floatSqrt (a : Word) : Word :=
  match unpack a with
  | .nan => producedNaN .sqrt a a
  | .inf s => if s then producedNaN .sqrt a a else infinity false
  | .fin s m e =>
    if m = 0 then signedZero s
    else if s then producedNaN .sqrt a a
    else
      let k : Nat := if e % 2 = 0 then 64 else 65
      let n := m * 2 ^ k
      let r := sqrtBits n 46 0
      let sticky := if r * r = n then 0 else 1
      roundPack false (2 * r + sticky) ((e - k) / 2 - 1)

/-- `i2f`: the binary32 value nearest an integer, zero giving `+0`. -/
def floatOfInt (z : Int) : Word := roundPack (decide (z < 0)) z.natAbs 0

/-- An order key of a pattern that is not a NaN: its magnitude with its sign, so that both zeros
have the key 0. -/
def orderKey (w : Word) : Int :=
  let magnitude : Int := (w.toNat % 2 ^ 31 : Nat)
  if signOf w then -magnitude else magnitude

/-- `fgt` (R17): false when either operand is a NaN; the two zeros are equal. -/
def floatGt (a b : Word) : Bool :=
  !isNaN a && !isNaN b && decide (orderKey a > orderKey b)

/-- The patterns of `+0` and `-0` (R17). -/
def floatIsZero (w : Word) : Bool := w.toNat % 2 ^ 31 == 0

/-- The integer part of `2^k` times a pattern's number, rounding toward zero (R122 for `k = 0`). -/
def floatScaledPart (k : Nat) (w : Word) : IntegerPart :=
  match unpack w with
  | .nan => .nan
  | .inf s => if s then .negInf else .posInf
  | .fin s m e =>
    let e := e + (k : Int)
    let q : Int := if 0 ≤ e then (m * 2 ^ e.toNat : Nat) else (m / 2 ^ (-e).toNat : Nat)
    .int (if s then -q else q)

/-- The literals the operations use (R13). -/
def floatConst : Literal → Word
  | .one => 0x3F800000
  | .two => 0x40000000
  | .twoPi => 0x40C90FDB

/-- `fcos` (R16): exactly 1 at `+0`, and a free value elsewhere (log 5). -/
def floatCos (a : Word) : Word := if a = 0 then floatConst .one else Config.freeCos a

/-- `fsin` (R16): exactly `+0` at `+0`, and a free value elsewhere (log 5). -/
def floatSin (a : Word) : Word := if a = 0 then 0 else Config.freeSin a

/-- The default `Num` (R16): binary32, the carrier being the pattern. -/
def binary32 : Num Word where
  fadd := floatAdd
  fsub := floatSub
  fmul := floatMul
  fdiv := floatDiv
  fsqrt := floatSqrt
  fcos := floatCos
  fsin := floatSin
  i2f := floatOfInt
  fgt := floatGt
  fconst := floatConst
  fzero := 0
  isZero := floatIsZero
  scaledPart := floatScaledPart
  bits w := w
  unbits w := w

end Sys2Proof.Machine

namespace Sys2Proof

/-- A `Num` with its values numbered: `code` gives a value its number, `value` reads it back. -/
def Num.coded {F : Type} (nu : Num F) (code : F → Scalar) (value : Scalar → F) : Num Scalar where
  fadd a b := code (nu.fadd (value a) (value b))
  fsub a b := code (nu.fsub (value a) (value b))
  fmul a b := code (nu.fmul (value a) (value b))
  fdiv a b := code (nu.fdiv (value a) (value b))
  fsqrt a := code (nu.fsqrt (value a))
  fcos a := code (nu.fcos (value a))
  fsin a := code (nu.fsin (value a))
  i2f z := code (nu.i2f z)
  fgt a b := nu.fgt (value a) (value b)
  fconst l := code (nu.fconst l)
  fzero := code nu.fzero
  isZero a := nu.isZero (value a)
  scaledPart k a := nu.scaledPart k (value a)
  bits a := nu.bits (value a)
  unbits w := code (nu.unbits w)

/-- The operations of a number format: those of binary32, a pattern's number being the pattern read
as an unsigned integer; or those the implementation supplies (log 4, 26). -/
def NumFormat.ops (f : NumFormat) : Num Scalar :=
  match f with
  | .binary32 => Machine.binary32.coded BitVec.toNat (BitVec.ofNat 32)
  | .other name => Config.freeNum name

/-- The `Num` of a configuration (R8). -/
def Config.ops (c : Config) : Num Scalar := c.num.ops

end Sys2Proof
end

