-- ==== Sys2Proof/Machine/State.lean ====
section
/-!
DEFINITION. The state of the core, of its two DMA channels and of the environment that drives it
(10_state.md), the reasons a step can stop, and the state after reset (R39, R320).
-/

namespace Sys2Proof.Machine

open Sys2Proof

/-- The two DMA directions (R19, R38). -/
inductive Channel where
  | rx | tx
deriving DecidableEq, Repr

/-- The references a descriptor names (R62, R68): two audio ports and two buffers, bound to
addresses by the platform. -/
inductive Endpoint where
  | audioRxPort | audioTxPort | refProbe | refCapture
deriving DecidableEq, Repr

/-- The output event `CFG(d, src, dst, count)` (R38, R150). -/
structure Descriptor where
  channel : Channel
  src : Endpoint
  dst : Endpoint
  count : Nat
deriving DecidableEq, Repr

/-- What R37 keeps of a DMA channel: the last descriptor, and whether a notification is still owed
since the channel was last enabled (R154 E1). -/
structure DmaChannel where
  desc : Option Descriptor
  owed : Bool
deriving DecidableEq, Repr

/-- The five actions of `ARM` (R149), in order. Between two of them a handler may run. -/
inductive ArmAction where
  | clearFlags | cfgRx | cfgTx | enableRx | enableTx
deriving DecidableEq, Repr

/-- `JSTEP` (R23): 0, 1, 2, 3 and 4. While it is 4 the job is inside `ARM`, at the action named. -/
inductive JobStep where
  | stopped
  | downmix
  | correlate
  | convert
  | rearm (next : ArmAction)
deriving DecidableEq, Repr

/-- The controller's states (R140, R141). -/
inductive CState where
  | idle | armed | partialDone | ready | processing
deriving DecidableEq, Repr

/-- One access of the host to the register window: a byte offset from the core's base address and a
width in bytes (R61, R64). -/
inductive HostAccess where
  | read (offset bytes : Nat)
  | write (offset bytes : Nat) (value : Word)
deriving DecidableEq, Repr

/-- What an input asks for beside notifications. -/
inductive Action where
  /-- Nothing beside the notifications. -/
  | nothing
  /-- A host register access (R61). -/
  | access (a : HostAccess)
  /-- The RX channel writes one element of `CAPTURE` (R154 E2, E3). -/
  | rxWrite (i : Nat) (v : Sample)
  /-- The TX channel reads one element of `PROBE` (R154 E2). -/
  | txRead (i : Nat)
  /-- The scheduler lets the job take its next step (R145, R146). -/
  | job
  /-- `RESET` is asserted (R320). -/
  | reset
deriving DecidableEq, Repr

/-- One input: the notifications that arrive, and what arrives with them. They are handled RX
first, then TX, then the rest (R288, R289; log 10). -/
structure Input where
  notifyRx : Bool
  notifyTx : Bool
  action : Action
deriving DecidableEq, Repr

/-- Why a step stops with a fault. -/
inductive Fault where
  /-- Raised by an element access of DMA channel `d` while the channel is disabled or the job
  computes (R154 E2, R330, U3). Safe: outside the contract the spec determines nothing. -/
  | dmaNotOwner (d : Channel)
  /-- Raised by an element access of DMA channel `d` at or beyond the count of its descriptor
  (R154 E3). Safe: outside the contract the spec determines nothing. -/
  | dmaBeyondCount (d : Channel)
deriving DecidableEq, Repr

/-- Why a step is refused. -/
inductive Refusal where
  /-- An instruction without a meaning. No arm of `exec` answers it: every row is modelled. Safe. -/
  | notModelled (mnemonic : String)
  /-- Raised by a host access that is not an aligned 32-bit access (R64, U10). Safe: the spec gives
  it no meaning. -/
  | hostAccessShape
deriving DecidableEq, Repr

/-- The state. Fields of the spec's own state cite the rule that names them; the last groups are
the DMA collaborator's state (R37, R154) and the model's own fields (log 8, 12, 13, 15). -/
structure State where
  /-- The configuration (R8), the same in every state of a run (log 1). -/
  cfg : Config
  /-- `PROBE` (R27). -/
  probe : Buf Sample
  /-- `CAPTURE` (R28). -/
  capture : Buf Sample
  /-- `MONO` (R29). -/
  mono : Buf Sample
  /-- `SSP`, the sweep spectrum (R30). -/
  ssp : Buf Scalar
  /-- `RSP`, the response spectrum (R30). -/
  rsp : Buf Scalar
  /-- `XSP`, the cross-correlation spectrum (R30). -/
  xsp : Buf Scalar
  /-- `TW`, the twiddle table (R30). -/
  tw : Buf Scalar
  /-- `RX_DONE` (R24). -/
  rxDone : Bool
  /-- `TX_DONE` (R24). -/
  txDone : Bool
  /-- `EN_RX`, the level of the receive enable output (R38). -/
  enRx : Bool
  /-- `EN_TX`, the level of the transmit enable output (R38). -/
  enTx : Bool
  /-- `JOB_PENDING` (R37). -/
  jobPending : Bool
  /-- `JSTEP` (R23). -/
  jstep : JobStep
  /-- `STARTED` (R25 bit 6). -/
  started : Bool
  /-- `RESULT_VALID` (R25 bit 7). -/
  resultValid : Bool
  /-- `TW_VALID` (R37). -/
  twValid : Bool
  /-- `CMD_ERR` (R25 bit 9, R285). -/
  cmdErr : Bool
  /-- `RESULT` (R31). -/
  result : Word
  /-- `INDEX` (R32). -/
  index : Word
  /-- `BUF_ADDR` (R35). -/
  bufAddr : Word
  /-- `JOBS` (R34). -/
  jobs : Word
  /-- The RX channel of the DMA collaborator (R37, R154). -/
  rxDma : DmaChannel
  /-- The TX channel of the DMA collaborator (R37, R154). -/
  txDma : DmaChannel
  /-- The sample the TX channel took last (log 15). -/
  txData : Sample
  /-- The `CFG` events issued since reset, oldest first (R38; log 13). -/
  cfgLog : List Descriptor
  /-- What the host's last read returned (R36, R67; log 12). -/
  readData : Word
  /-- The inputs still to come, the next one first (log 8). -/
  inputs : List Input
deriving DecidableEq, Repr

/-- A DMA channel with no descriptor and no notification owed (R323). -/
def DmaChannel.quiet : DmaChannel where
  desc := none
  owed := false

/-- The state after reset of the core with configuration `c` (R39, R320, R323), no input
following. -/
def State.resetWith (c : Config) : State where
  cfg := c
  probe := []
  capture := []
  mono := []
  ssp := []
  rsp := []
  xsp := []
  tw := []
  rxDone := false
  txDone := false
  enRx := false
  enTx := false
  jobPending := false
  jstep := .stopped
  started := false
  resultValid := false
  twValid := false
  cmdErr := false
  result := 0
  index := 0
  bufAddr := 0
  jobs := 0
  rxDma := .quiet
  txDma := .quiet
  txData := 0
  cfgLog := []
  readData := 0
  inputs := []

/-- The machine right after reset. Its configuration is a DESIGN CHOICE (log 2). -/
def State.reset : State := State.resetWith Config.example8

/-- The outcome of a step of this machine. -/
abbrev Result := Host.Outcome State Fault Refusal

end Sys2Proof.Machine
end

