-- ==== Sys2Proof/Machine/Flags.lean ====
section
/-!
DEFINITION. The computed views of the state: the controller state (R141) and the `STATUS` word (R25).
The core has no condition codes (R24).
-/

namespace Sys2Proof.Machine

open Sys2Proof

/-- The controller state: the first line of R141 that matches. -/
def cstate (s : State) : CState :=
  if s.started = false then .idle
  else if s.jstep ≠ .stopped then .processing
  else if s.jobPending = true ∨ (s.rxDone = true ∧ s.txDone = true) then .ready
  else if s.rxDone ≠ s.txDone then .partialDone
  else .armed

/-- The encoding of the controller state in `STATUS[14:12]` (R25). -/
def CState.code : CState → BitVec 3
  | .idle => 0
  | .armed => 1
  | .partialDone => 2
  | .ready => 3
  | .processing => 4

/-- The number `JSTEP` holds (R23). -/
def JobStep.code : JobStep → BitVec 3
  | .stopped => 0
  | .downmix => 1
  | .correlate => 2
  | .convert => 3
  | .rearm _ => 4

/-- `STATUS.JOB_RUNNING` (R23, R25 bit 5). -/
def jobRunning (s : State) : Bool := s.jstep.code != 0

/-- Whether the job is in one of the micro-steps 1 to 3, which compute over the buffers (R146,
R159 items 4 and 7). -/
def JobStep.computing : JobStep → Bool
  | .downmix | .correlate | .convert => true
  | .stopped | .rearm _ => false

/-- `STATUS` (R25), bit 31 first. -/
def statusWord (s : State) : Word :=
  (0 : BitVec 17) ++ (cstate s).code ++ (0 : BitVec 1) ++
    BitVec.ofBool (s.cfg.strategy == .freq) ++ BitVec.ofBool s.cmdErr ++
    BitVec.ofBool s.twValid ++ BitVec.ofBool s.resultValid ++ BitVec.ofBool s.started ++
    BitVec.ofBool (jobRunning s) ++ BitVec.ofBool s.jobPending ++ BitVec.ofBool s.enTx ++
    BitVec.ofBool s.enRx ++ BitVec.ofBool s.txDone ++ BitVec.ofBool s.rxDone

end Sys2Proof.Machine
end

