-- ==== Sys2Proof/Machine/Ops.lean ====
section
/-!
DEFINITION. The named operations over the buffers and the registers that the meanings share: reading
and writing one element, writing a whole buffer, refusing an access, accepting a command, the
notification handler (R143) and the actions of `ARM` (R149). The core has no exception (R280): the
handler is the only thing it enters by itself, entry saves nothing and there is no return (R290,
R291); what takes an exception's place for a refused command is `refuseAccess` (R285).
-/

namespace Sys2Proof.Machine

open Sys2Proof

/-! ### One buffer (R60) -/

section Buffer

variable {α : Type} [OfNat α 0] [DecidableEq α]

/-- `b[i]`: an index that is not listed holds zero. -/
def bufRead (b : Buf α) (i : Nat) : α :=
  match b with
  | [] => 0
  | (j, v) :: rest => if j = i then v else bufRead rest i

/-- `b[i] <- v`, keeping the list sorted and free of zero elements. -/
def bufWrite (b : Buf α) (i : Nat) (v : α) : Buf α :=
  match b with
  | [] => if v = 0 then [] else [(i, v)]
  | (j, u) :: rest =>
    if j < i then (j, u) :: bufWrite rest i v
    else if j = i then if v = 0 then rest else (i, v) :: rest
    else if v = 0 then (j, u) :: rest else (i, v) :: (j, u) :: rest

/-- The buffer that holds `l` from index `i` on, and zero elsewhere. -/
def bufFrom (i : Nat) : List (α) → Buf α
  | [] => []
  | v :: rest => if v = 0 then bufFrom (i + 1) rest else (i, v) :: bufFrom (i + 1) rest

/-- The buffer whose elements are those of `l`, in order. -/
def bufOfList (l : List (α)) : Buf α := bufFrom 0 l

/-- The first `n` elements of a buffer, in order. -/
def bufToList (n : Nat) (b : Buf α) : List (α) := (List.range n).map (bufRead b)

/-- The indices of `b` rise strictly, all at or above `lo` and below `n`, and no listed element is
zero. -/
def bufWfFrom (n lo : Nat) : Buf α → Bool
  | [] => true
  | (j, v) :: rest => decide (lo ≤ j) && decide (j < n) && decide (v ≠ 0) && bufWfFrom n (j + 1) rest

/-- The canonical form of a buffer of `n` elements. -/
def bufWf (n : Nat) (b : Buf α) : Bool := bufWfFrom n 0 b

end Buffer

/-! ### The seven buffers -/

/-- `len(b)` (R26). -/
def bufLen (c : Config) : BufId → Nat
  | .probe => c.sweepLen
  | .capture => c.responseLen
  | .mono => c.responseMono
  | .ssp | .rsp | .xsp => c.fftLen
  | .tw => c.n

/-- Every buffer is in canonical form and lists no index it does not have. -/
def Memory.wf (s : State) : Bool :=
  bufWf (bufLen s.cfg .probe) s.probe && bufWf (bufLen s.cfg .capture) s.capture &&
    bufWf (bufLen s.cfg .mono) s.mono && bufWf (bufLen s.cfg .ssp) s.ssp &&
    bufWf (bufLen s.cfg .rsp) s.rsp && bufWf (bufLen s.cfg .xsp) s.xsp &&
    bufWf (bufLen s.cfg .tw) s.tw

/-- One element of a buffer as the 32-bit word the host window shows: a sample sign-extended, a
scalar by `bits` (R36). -/
def elementWord (s : State) (b : BufId) (i : Nat) : Word :=
  match b with
  | .probe => (bufRead s.probe i).signExtend 32
  | .capture => (bufRead s.capture i).signExtend 32
  | .mono => (bufRead s.mono i).signExtend 32
  | .ssp => s.cfg.ops.bits (bufRead s.ssp i)
  | .rsp => s.cfg.ops.bits (bufRead s.rsp i)
  | .xsp => s.cfg.ops.bits (bufRead s.xsp i)
  | .tw => s.cfg.ops.bits (bufRead s.tw i)

/-- The host window's write of one element: a sample takes bits 15:0 of the word, a scalar its
`unbits`, and a write to `TW` also clears `TW_VALID` (R36). -/
def writeElement (s : State) (b : BufId) (i : Nat) (v : Word) : State :=
  match b with
  | .probe => { s with probe := bufWrite s.probe i (v.extractLsb' 0 16) }
  | .capture => { s with capture := bufWrite s.capture i (v.extractLsb' 0 16) }
  | .mono => { s with mono := bufWrite s.mono i (v.extractLsb' 0 16) }
  | .ssp => { s with ssp := bufWrite s.ssp i (s.cfg.ops.unbits v) }
  | .rsp => { s with rsp := bufWrite s.rsp i (s.cfg.ops.unbits v) }
  | .xsp => { s with xsp := bufWrite s.xsp i (s.cfg.ops.unbits v) }
  | .tw => { s with tw := bufWrite s.tw i (s.cfg.ops.unbits v), twValid := false }

/-! ### Refusal and acceptance -/

/-- A refused host access (R285): `CMD_ERR <- 1` is its whole effect. -/
def refuseAccess (s : State) : State := { s with cmdErr := true }

/-- A command is performed only when it is well formed and the controller is in `IDLE` (R99); any
other only sets `CMD_ERR` (R100). It always ends in a next state (R280). -/
def acceptCommand (wellFormed : Bool) (perform : State → State) (s : State) : Result :=
  if wellFormed = true ∧ cstate s = .idle then .next (perform s) else .next (refuseAccess s)

/-! ### The notification handler (R143, R157) -/

/-- `d_DONE <- 1; EN_d <- 0` (R143), and the DMA collaborator owes no further notification on `d`
until it is enabled again (R154 E1). -/
def completeChannel (d : Channel) (s : State) : State :=
  match d with
  | .rx => { s with rxDone := true, enRx := false, rxDma := { s.rxDma with owed := false } }
  | .tx => { s with txDone := true, enTx := false, txDma := { s.txDma with owed := false } }

/-- The second half of R143: when both flags are set, clear both and post the job. -/
def postJob (s : State) : State :=
  if s.rxDone = true ∧ s.txDone = true then
    { s with rxDone := false, txDone := false, jobPending := true }
  else s

/-- The handler of `NOTIFY(d)`, one atomic step (R143, R292). Before `START` the event is ignored and
no state changes (R157). -/
def notify (d : Channel) (s : State) : State :=
  if s.started = true then postJob (completeChannel d s) else s

/-! ### The arming sequence (R149) -/

/-- The descriptor of `CFG(RX, ...)` (R149). -/
def rxDescriptor (c : Config) : Descriptor where
  channel := .rx
  src := .audioRxPort
  dst := .refCapture
  count := c.responseLen

/-- The descriptor of `CFG(TX, ...)` (R149). -/
def txDescriptor (c : Config) : Descriptor where
  channel := .tx
  src := .refProbe
  dst := .audioTxPort
  count := c.sweepLen

/-- One action of `ARM` (R149). A channel that goes from disabled to enabled owes a notification
(R154 E1). -/
def armAction (a : ArmAction) (s : State) : State :=
  match a with
  | .clearFlags => { s with rxDone := false, txDone := false }
  | .cfgRx =>
    { s with
      rxDma := { s.rxDma with desc := some (rxDescriptor s.cfg) }
      cfgLog := s.cfgLog ++ [rxDescriptor s.cfg] }
  | .cfgTx =>
    { s with
      txDma := { s.txDma with desc := some (txDescriptor s.cfg) }
      cfgLog := s.cfgLog ++ [txDescriptor s.cfg] }
  | .enableRx => { s with enRx := true, rxDma := { s.rxDma with owed := s.rxDma.owed || !s.enRx } }
  | .enableTx => { s with enTx := true, txDma := { s.txDma with owed := s.txDma.owed || !s.enTx } }

/-- `ARM` as a whole (R149). -/
def arm (s : State) : State :=
  armAction .enableTx (armAction .enableRx (armAction .cfgTx (armAction .cfgRx
    (armAction .clearFlags s))))

/-! ### Reset -/

/-- `RESET` (R320): every piece of state takes its reset value; the configuration is not touched,
and the inputs that follow are still to come (log 22). -/
def resetCore (s : State) : State := { State.resetWith s.cfg with inputs := s.inputs }

end Sys2Proof.Machine
end

