-- ==== Sys2Proof/Machine/Operands.lean ====
section
/-!
DEFINITION. The operand forms of the commands (R95, R96): a buffer operand as one of the buffers its
opcode allows, and the contents of a buffer as the list the operations compute on.
-/

namespace Sys2Proof.Machine

open Sys2Proof

/-- The operand form `SPEC` (R96). -/
inductive Spectrum where
  | ssp | rsp | xsp
deriving DecidableEq, Repr

/-- The operand form of `BITREV` (R96): a buffer of complex samples. -/
inductive ScalarBuf where
  | spectrum (x : Spectrum)
  | tw
deriving DecidableEq, Repr

/-- The buffer of an operand of form `SPEC`, if it is one. -/
def spectrumOperand : BufId → Option Spectrum
  | .ssp => some .ssp
  | .rsp => some .rsp
  | .xsp => some .xsp
  | .probe | .capture | .mono | .tw => none

/-- The buffer of an operand of `BITREV`, if it is one. -/
def scalarOperand : BufId → Option ScalarBuf
  | .ssp => some (.spectrum .ssp)
  | .rsp => some (.spectrum .rsp)
  | .xsp => some (.spectrum .xsp)
  | .tw => some .tw
  | .probe | .capture | .mono => none

/-- The `FFT_LEN` scalars of a spectrum buffer (R30). -/
def spectrumList (s : State) : Spectrum → List Scalar
  | .ssp => bufToList s.cfg.fftLen s.ssp
  | .rsp => bufToList s.cfg.fftLen s.rsp
  | .xsp => bufToList s.cfg.fftLen s.xsp

/-- All scalars of a spectrum buffer written. -/
def setSpectrum (s : State) (x : Spectrum) (l : List Scalar) : State :=
  match x with
  | .ssp => { s with ssp := bufOfList l }
  | .rsp => { s with rsp := bufOfList l }
  | .xsp => { s with xsp := bufOfList l }

/-- The `FFT_LEN/2` scalars of the twiddle table (R30). -/
def twiddleList (s : State) : List Scalar := bufToList s.cfg.n s.tw

/-- The samples of `PROBE`, `CAPTURE` and `MONO` (R27 to R29). -/
def probeList (s : State) : List Sample := bufToList s.cfg.sweepLen s.probe
def captureList (s : State) : List Sample := bufToList s.cfg.responseLen s.capture
def monoList (s : State) : List Sample := bufToList s.cfg.responseMono s.mono

/-- A command of format `X` on a spectrum buffer (R93, R96, R99, R100). -/
def onSpectrum (d : BufId) (perform : Spectrum → State → State) (s : State) : Result :=
  match spectrumOperand d with
  | some x => acceptCommand true (perform x) s
  | none => acceptCommand false id s

/-- A command of format `X` on a spectrum buffer or the twiddle table (R93, R96, R99, R100). -/
def onScalarBuf (d : BufId) (perform : ScalarBuf → State → State) (s : State) : Result :=
  match scalarOperand d with
  | some x => acceptCommand true (perform x) s
  | none => acceptCommand false id s

/-- A command of format `T` on spectrum buffers (R94, R96, R99, R100). -/
def onSpectra (d a b : BufId) (perform : Spectrum → Spectrum → Spectrum → State → State)
    (s : State) : Result :=
  match spectrumOperand d, spectrumOperand a, spectrumOperand b with
  | some x, some y, some z => acceptCommand true (perform x y z) s
  | _, _, _ => acceptCommand false id s

end Sys2Proof.Machine
end

