-- ==== Sys2Proof/Machine/Synth.lean ====
section
/-!
DEFINITION. The probe waveform synthesizer, `SYNTH` (40_probe_synth.md).
-/

namespace Sys2Proof.Machine

open Sys2Proof

/-- `F_SEED = F0 + DF` (R8, D8; log 7). -/
def seedFrequency (nu : Num Scalar) (c : Config) : Scalar := nu.fadd c.f0 c.df

/-- `omega_seed()` (R121). -/
def omegaSeed (nu : Num Scalar) (c : Config) : Scalar :=
  nu.fdiv (nu.fmul (nu.fconst .twoPi) (seedFrequency nu c)) c.fs

/-- `omega(k)` (R121). -/
def omega (nu : Num Scalar) (c : Config) (k : Nat) : Scalar :=
  nu.fdiv (nu.fmul (nu.fconst .twoPi) (nu.fadd c.f0 (nu.fmul (nu.i2f k) c.df))) c.fs

/-- `osc_step(v0, v1, w)` (R121): `v0` is the sample two steps back, `v1` one step back. -/
def oscStep {F : Type} (nu : Num F) (v0 v1 w : F) : F :=
  let cw := nu.fcos w
  let sw := nu.fsin w
  let rad := nu.fsub (nu.fadd (nu.fmul v1 v1) (nu.fmul v0 v0))
    (nu.fmul (nu.fmul (nu.fmul (nu.fconst .two) v0) v1) cw)
  nu.fmul (nu.fdiv sw (nu.fsqrt rad))
    (nu.fsub (nu.fmul (nu.fmul (nu.fconst .two) cw) v1) v0)

/-- The seed `v1` (R120); the seed `v0` is `fconst(1)`. -/
def seedV1 (nu : Num Scalar) (c : Config) : Scalar :=
  nu.fmul (nu.fmul (nu.fconst .two) (nu.fcos (omegaSeed nu c))) (nu.fsin (omegaSeed nu c))

/-- The oscillator's `count` values from index `k` on, after the two values `v0`, `v1` (R120). -/
def oscillate (nu : Num Scalar) (c : Config) : Nat → Nat → Scalar → Scalar → List Scalar
  | 0, _, _, _ => []
  | count + 1, k, v0, v1 =>
    oscStep nu v0 v1 (omega nu c k) ::
      oscillate nu c count (k + 1) v1 (oscStep nu v0 v1 (omega nu c k))

/-- The oscillator values of the first half, `SWEEP_LEN / 2` of them (R120). -/
def halfWave (nu : Num Scalar) (c : Config) : List Scalar :=
  nu.fconst .one :: seedV1 nu c ::
    oscillate nu c (c.sweepLen / 2 - 2) 2 (nu.fconst .one) (seedV1 nu c)

/-- The quantizer `Q` (R122). A finite value is at or above 32767, or at or below -32768, exactly
when its integer part is (DEDUCED, log 25). -/
def quantize {F : Type} (nu : Num F) (gain v : F) : Sample :=
  match nu.integerPart (nu.fmul gain v) with
  | .nan => 0
  | .posInf => 32767
  | .negInf => BitVec.ofInt 16 (-32768)
  | .int z => saturate z

/-- The samples of the probe: the quantized first half, then the same samples in reverse order
(R120). -/
def synthList (nu : Num Scalar) (c : Config) : List Sample :=
  let half := (halfWave nu c).map (quantize nu c.gain)
  half ++ half.reverse

/-- What `SYNTH` does (R120). -/
def opSynth (nu : Num Scalar) (s : State) : State := { s with probe := bufOfList (synthList nu s.cfg) }

/-- `SYNTH` (R120). -/
def execSynth (s : State) : Result := acceptCommand true (opSynth s.cfg.ops) s

end Sys2Proof.Machine
end

