-- ==== Sys2Proof/Machine/Control.lean ====
section
/-!
DEFINITION. `START` (41_acquisition_controller.md R142).
-/

namespace Sys2Proof.Machine

open Sys2Proof

/-- What `START` does (R142): `SYNTH`, then `ARM`, then `STARTED <- 1`. -/
def opStart (nu : Num Scalar) (s : State) : State := { arm (opSynth nu s) with started := true }

/-- `START` (R142). -/
def execStart (s : State) : Result := acceptCommand true (opStart s.cfg.ops) s

end Sys2Proof.Machine
end

