-- ==== Sys2Proof/Machine/Fft.lean ====
section
/-!
DEFINITION. The FFT engine, `TWGEN`, `BITREV`, `FFT` and `IFFT` (44_fft_engine.md). The transforms
are written on lists of scalars over any carrier, in place: a list is the content of a buffer, and
`set` is the assignment to one element. Loop nests by direct index, log 24.
-/

namespace Sys2Proof.Machine

open Sys2Proof

/-! ### TWGEN -/

/-- The angle of complex twiddle `i` for a transform of `n` points (R200). -/
def twiddleAngle {F : Type} (nu : Num F) (n i : Nat) : F :=
  nu.fdiv (nu.fmul (nu.i2f i) (nu.fconst .twoPi)) (nu.i2f n)

/-- The natural-order table for `n` points: `n/2` pairs of cosine and sine (R200). -/
def twiddleTable {F : Type} (nu : Num F) (n : Nat) : List F :=
  (List.range (n / 2)).flatMap fun i => [nu.fcos (twiddleAngle nu n i), nu.fsin (twiddleAngle nu n i)]

/-- What `TWGEN` does (R200): the table is now in natural order, so `TW_VALID <- 0`. -/
def opTwgen (nu : Num Scalar) (s : State) : State :=
  { s with tw := bufOfList (twiddleTable nu s.cfg.n), twValid := false }

/-- `TWGEN` (R200). -/
def execTwgen (s : State) : Result := acceptCommand true (opTwgen s.cfg.ops) s

/-! ### BITREV -/

/-- Complex samples `i` and `j` exchanged (R203). -/
def swapSamples {F : Type} (z : F) (x : List F) (i j : Nat) : List F :=
  (((x.set (2 * i) (x.getD (2 * j) z)).set (2 * j) (x.getD (2 * i) z)).set
    (2 * i + 1) (x.getD (2 * j + 1) z)).set (2 * j + 1) (x.getD (2 * i + 1) z)

/-- The permutation of `n` complex samples (R203): for `i` from 1 to `n - 2`, a swap with
`j = rev_n(i)` when `i < j`. `z` is what an index beyond the list would read; none is read. -/
def bitrevList {F : Type} (z : F) (n : Nat) (x : List F) : List F :=
  (List.range' 1 (n - 2)).foldl
    (fun x i => if i < reverseBits (Nat.log2 n) i then swapSamples z x i (reverseBits (Nat.log2 n) i)
      else x)
    x

/-- What `BITREV` does (R203): `n` is `N` for a spectrum buffer, and `N/2` for the twiddle table,
whose validity it ends. -/
def opBitrev (b : ScalarBuf) (s : State) : State :=
  match b with
  | .spectrum x => setSpectrum s x (bitrevList 0 s.cfg.n (spectrumList s x))
  | .tw => { s with tw := bufOfList (bitrevList 0 (s.cfg.n / 2) (twiddleList s)), twValid := false }

/-- `BITREV d` (R203). -/
def execBitrev (d : BufId) (s : State) : Result := onScalarBuf d opBitrev s

/-! ### FFT -/

/-- The forward butterfly `BF_DIT(x, ia, m, c, s)` (R211). -/
def butterflyDit {F : Type} (nu : Num F) (x : List F) (ia m : Nat) (c s : F) : List F :=
  let z := nu.fzero
  let tmpR := nu.fadd (nu.fmul c (x.getD (2 * m) z)) (nu.fmul s (x.getD (2 * m + 1) z))
  let tmpI := nu.fsub (nu.fmul c (x.getD (2 * m + 1) z)) (nu.fmul s (x.getD (2 * m) z))
  (((x.set (2 * m) (nu.fsub (x.getD (2 * ia) z) tmpR)).set
    (2 * m + 1) (nu.fsub (x.getD (2 * ia + 1) z) tmpI)).set
    (2 * ia) (nu.fadd (x.getD (2 * ia) z) tmpR)).set
    (2 * ia + 1) (nu.fadd (x.getD (2 * ia + 1) z) tmpI)

/-- One stage (R210, R212): `ie` blocks of `2·n2` samples; block `j` uses twiddle entry `j`, and
butterfly `i` of it pairs `ia = 2·n2·j + i` with `m = ia + n2`. -/
def stageDit {F : Type} (nu : Num F) (w : List F) (n2 ie : Nat) (x : List F) : List F :=
  (List.range ie).foldl
    (fun x j =>
      (List.range n2).foldl
        (fun x i =>
          butterflyDit nu x (2 * n2 * j + i) (2 * n2 * j + i + n2)
            (w.getD (2 * j) nu.fzero) (w.getD (2 * j + 1) nu.fzero))
        x)
    x

/-- The outer loop of R210, `while n2 > 1`, for at most `stages` passes. -/
def stagesDit {F : Type} (nu : Num F) (w : List F) : Nat → Nat → Nat → List F → List F
  | 0, _, _, x => x
  | stages + 1, n2, ie, x =>
    if n2 > 1 then stagesDit nu w stages (n2 / 2) (2 * ie) (stageDit nu w (n2 / 2) ie x) else x

/-- The forward transform of `n` complex samples (R210): `log2 n` stages. -/
def fftList {F : Type} (nu : Num F) (n : Nat) (w x : List F) : List F :=
  stagesDit nu w (Nat.log2 n) n 1 x

/-- What `FFT` does (R210), with the twiddle table as it is (R215). -/
def opFft (nu : Num Scalar) (x : Spectrum) (s : State) : State :=
  setSpectrum s x (fftList nu s.cfg.n (twiddleList s) (spectrumList s x))

/-- `FFT d` (R210). -/
def execFft (d : BufId) (s : State) : Result := onSpectrum d (opFft s.cfg.ops) s

/-! ### IFFT -/

/-- The inverse butterfly `BF_DIF(x, ia, m, c, s)` (R221). -/
def butterflyDif {F : Type} (nu : Num F) (x : List F) (ia m : Nat) (c s : F) : List F :=
  let z := nu.fzero
  let tmpR := nu.fsub (x.getD (2 * ia) z) (x.getD (2 * m) z)
  let tmpI := nu.fsub (x.getD (2 * ia + 1) z) (x.getD (2 * m + 1) z)
  (((x.set (2 * ia) (nu.fadd (x.getD (2 * ia) z) (x.getD (2 * m) z))).set
    (2 * ia + 1) (nu.fadd (x.getD (2 * ia + 1) z) (x.getD (2 * m + 1) z))).set
    (2 * m) (nu.fsub (nu.fmul c tmpR) (nu.fmul s tmpI))).set
    (2 * m + 1) (nu.fadd (nu.fmul c tmpI) (nu.fmul s tmpR))

/-- One stage of the inverse (R220, R222), the blocks as in `stageDit`. -/
def stageDif {F : Type} (nu : Num F) (w : List F) (n2 ie : Nat) (x : List F) : List F :=
  (List.range ie).foldl
    (fun x j =>
      (List.range n2).foldl
        (fun x i =>
          butterflyDif nu x (2 * n2 * j + i) (2 * n2 * j + i + n2)
            (w.getD (2 * j) nu.fzero) (w.getD (2 * j + 1) nu.fzero))
        x)
    x

/-- The outer loop of R220, `while ie > 1`, for at most `stages` passes. -/
def stagesDif {F : Type} (nu : Num F) (w : List F) : Nat → Nat → Nat → List F → List F
  | 0, _, _, x => x
  | stages + 1, n2, ie, x =>
    if ie > 1 then stagesDif nu w stages (2 * n2) (ie / 2) (stageDif nu w n2 (ie / 2) x) else x

/-- The inverse transform of `n` complex samples, without the factor `1/n` (R220, R223). -/
def ifftList {F : Type} (nu : Num F) (n : Nat) (w x : List F) : List F :=
  stagesDif nu w (Nat.log2 n) 1 n x

/-- What `IFFT` does (R220), with the twiddle table as it is (R215). -/
def opIfft (nu : Num Scalar) (x : Spectrum) (s : State) : State :=
  setSpectrum s x (ifftList nu s.cfg.n (twiddleList s) (spectrumList s x))

/-- `IFFT d` (R220). -/
def execIfft (d : BufId) (s : State) : Result := onSpectrum d (opIfft s.cfg.ops) s

end Sys2Proof.Machine
end

