-- ==== Sys2Proof/Machine/CorrFreq.lean ====
section
/-!
DEFINITION. The frequency-domain correlator: `PADP`, `PADE`, `CMUL`, `PEAK` and `CORRF`
(45_corr_freq.md).
-/

namespace Sys2Proof.Machine

open Sys2Proof

/-! ### PADP and PADE -/

/-- What `PADP` does (R240): the probe divided by `GAIN` in the real parts of `SSP`, zero beyond it
and in every imaginary part. -/
def opPadp (nu : Num Scalar) (s : State) : State :=
  setSpectrum s .ssp
    ((List.range s.cfg.n).flatMap fun i =>
      [if i < s.cfg.sweepLen then nu.fdiv (nu.i2f (sampleValue (bufRead s.probe i))) s.cfg.gain
        else nu.fzero, nu.fzero])

/-- `PADP` (R240). -/
def execPadp (s : State) : Result := acceptCommand true (opPadp s.cfg.ops) s

/-- What `PADE` does (R242): the echo, not normalised, in the real parts of `RSP`. -/
def opPade (nu : Num Scalar) (s : State) : State :=
  setSpectrum s .rsp
    ((List.range s.cfg.n).flatMap fun i =>
      [if i < s.cfg.responseMono then nu.i2f (sampleValue (bufRead s.mono i)) else nu.fzero,
        nu.fzero])

/-- `PADE` (R242). -/
def execPade (s : State) : Result := acceptCommand true (opPade s.cfg.ops) s

/-! ### CMUL -/

/-- The pointwise product of `n` complex samples, unconjugated (R246, R247). The sources are the
contents before the command, so each sample's inputs are read before its outputs are written,
whatever buffers coincide. -/
def cmulList {F : Type} (nu : Num F) (n : Nat) (a b : List F) : List F :=
  (List.range n).flatMap fun k =>
    let ar := a.getD (2 * k) nu.fzero
    let ai := a.getD (2 * k + 1) nu.fzero
    let br := b.getD (2 * k) nu.fzero
    let bi := b.getD (2 * k + 1) nu.fzero
    [nu.fsub (nu.fmul ar br) (nu.fmul ai bi), nu.fadd (nu.fmul ar bi) (nu.fmul ai br)]

/-- What `CMUL d, a, b` does (R246). -/
def opCmul (nu : Num Scalar) (d a b : Spectrum) (s : State) : State :=
  setSpectrum s d (cmulList nu s.cfg.n (spectrumList s a) (spectrumList s b))

/-- `CMUL d, a, b` (R246). -/
def execCmul (d a b : BufId) (s : State) : Result := onSpectra d a b (opCmul s.cfg.ops) s

/-! ### PEAK -/

/-- One pass of the scan of R248: a strictly greater value replaces the choice. -/
def considerPeak {F : Type} (nu : Num F) (x : List F) (choice : F × Nat) (k : Nat) : F × Nat :=
  if nu.fgt (x.getD (2 * k) nu.fzero) choice.1 then (x.getD (2 * k) nu.fzero, 2 * k) else choice

/-- The scalar index `PEAK` chooses among the real parts `x[0], x[2], ..` of the first `m` complex
samples (R248, R249). -/
def peakIndex {F : Type} (nu : Num F) (m : Nat) (x : List F) : Nat :=
  ((List.range m).foldl (considerPeak nu x) (nu.fzero, 0)).2

/-- What `PEAK` does (R248): the even scalar indices below `RESPONSE_LEN` are the real parts of the
first `RESPONSE_MONO` complex samples. -/
def opPeak (nu : Num Scalar) (x : Spectrum) (s : State) : State :=
  { s with index := BitVec.ofNat 32 (peakIndex nu s.cfg.responseMono (spectrumList s x)) }

/-- `PEAK d` (R248). -/
def execPeak (d : BufId) (s : State) : Result := onSpectrum d (opPeak s.cfg.ops) s

/-! ### CORRF -/

/-- Step 2 of R250: the table is generated and bit-reversed only while `TW_VALID` is 0. -/
def prepareTable (nu : Num Scalar) (s : State) : State :=
  if s.twValid = false then { opBitrev .tw (opTwgen nu s) with twValid := true } else s

/-- What `CORRF` does (R250). -/
def opCorrf (nu : Num Scalar) (s : State) : State :=
  opPeak nu .xsp (opIfft nu .xsp (opCmul nu .xsp .ssp .rsp (opFft nu .rsp (opFft nu .ssp
    (prepareTable nu (opPade nu (opPadp nu s)))))))

/-- `CORRF` (R250). -/
def execCorrf (s : State) : Result := acceptCommand true (opCorrf s.cfg.ops) s

end Sys2Proof.Machine
end

