-- ==== Sys2Proof/Machine/Pipeline.lean ====
section
/-!
DEFINITION. The mono downmixer `DOWNMIX` (42_downmix.md), the time-domain correlator `CORRT`
(43_corr_time.md) and the distance converter `TODIST` (46_distance.md).
-/

namespace Sys2Proof.Machine

open Sys2Proof

/-! ### DOWNMIX -/

/-- What `DOWNMIX` does (R180): `MONO[i] <- CAPTURE[2i]`, no summation (R181). -/
def opDownmix (s : State) : State :=
  { s with mono := bufOfList ((List.range s.cfg.responseMono).map fun i => bufRead s.capture (2 * i)) }

/-- `DOWNMIX` (R180). -/
def execDownmix (s : State) : Result := acceptCommand true opDownmix s

/-! ### CORRT -/

/-- The running sum of R190 for lag `k`: `m` runs from `k` to `RESPONSE_MONO - 1`, a term beyond the
probe is dropped (R191), and each addition wraps at `ACC_W` bits (R192). -/
def lagSum (c : Config) (probe mono : Buf Sample) (k : Nat) : Int :=
  (List.range' k (c.responseMono - k)).foldl
    (fun r m =>
      if m - k < c.sweepLen then
        wrapTo c.accW (r + sampleValue (bufRead probe (m - k)) * sampleValue (bufRead mono m))
      else r)
    0

/-- One pass of the search of R190: a strictly greater sum replaces the choice (R193). -/
def considerLag (c : Config) (probe mono : Buf Sample) (choice : Int × Nat) (k : Nat) : Int × Nat :=
  if lagSum c probe mono k > choice.1 then (lagSum c probe mono k, k) else choice

/-- The lag `CORRT` chooses (R190, R193). -/
def bestLag (c : Config) (probe mono : Buf Sample) : Nat :=
  ((List.range c.sweepLen).foldl (considerLag c probe mono) (0, 0)).2

/-- What `CORRT` does (R190). -/
def opCorrt (s : State) : State :=
  { s with index := BitVec.ofNat 32 (bestLag s.cfg s.probe s.mono) }

/-- `CORRT` (R190). -/
def execCorrt (s : State) : Result := acceptCommand true opCorrt s

/-! ### TODIST -/

/-- The distance of an index, in the evaluation order of R270. -/
def distanceOf (nu : Num Scalar) (c : Config) (index : Word) : Scalar :=
  nu.fdiv (nu.fmul (nu.i2f index.toNat) c.speed) (nu.fmul (nu.fconst .two) c.rate)

/-- What `TODIST` does (R270). -/
def opTodist (nu : Num Scalar) (s : State) : State :=
  { s with result := nu.bits (distanceOf nu s.cfg s.index), resultValid := true }

/-- `TODIST` (R270). -/
def execTodist (s : State) : Result := acceptCommand true (opTodist s.cfg.ops) s

end Sys2Proof.Machine
end

