-- ==== Sys2Proof/Machine/Dispatch.lean ====
section
/-!
DEFINITION. The meaning of each command, one arm per constructor (R97).
-/

namespace Sys2Proof.Machine

open Sys2Proof

def exec (i : Instr) (s : State) : Host.Outcome State Fault Refusal :=
  match i with
  | .start => Sys2Proof.Machine.execStart s
  | .synth => Sys2Proof.Machine.execSynth s
  | .downmix => Sys2Proof.Machine.execDownmix s
  | .corrt => Sys2Proof.Machine.execCorrt s
  | .corrf => Sys2Proof.Machine.execCorrf s
  | .todist => Sys2Proof.Machine.execTodist s
  | .twgen => Sys2Proof.Machine.execTwgen s
  | .bitrev d => Sys2Proof.Machine.execBitrev d s
  | .fft d => Sys2Proof.Machine.execFft d s
  | .ifft d => Sys2Proof.Machine.execIfft d s
  | .cmul d a b => Sys2Proof.Machine.execCmul d a b s
  | .padp => Sys2Proof.Machine.execPadp s
  | .pade => Sys2Proof.Machine.execPade s
  | .peak d => Sys2Proof.Machine.execPeak d s

end Sys2Proof.Machine
end

