-- ==== Sys2Proof/Machine/HostPort.lean ====
section
/-!
DEFINITION. The host's register window (10_state.md section 3): the registers by offset, reads,
writes, and the window on the buffers.
-/

namespace Sys2Proof.Machine

open Sys2Proof

/-- The registers of the window (R25). -/
inductive HostReg where
  | cmd | status | result | index | bufAddr | bufData | jobs | reserved
deriving DecidableEq, Repr

/-- The register at a byte offset; every aligned offset from `0x1C` up is reserved (R25, R61). -/
def hostReg (offset : Nat) : HostReg :=
  match offset with
  | 0x00 => .cmd
  | 0x04 => .status
  | 0x08 => .result
  | 0x0C => .index
  | 0x10 => .bufAddr
  | 0x14 => .bufData
  | 0x18 => .jobs
  | _ => .reserved

/-- The host accesses that have a meaning: 32 bits wide, at a multiple of 4 (R64). -/
def validShape (offset bytes : Nat) : Bool := bytes == 4 && offset % 4 == 0

/-- The buffer field `BUF_ADDR[31:28]` and the element field `BUF_ADDR[27:0]` (R35). -/
def windowId (s : State) : Nibble := s.bufAddr.extractLsb' 28 4
def windowIndex (s : State) : Nat := (s.bufAddr.extractLsb' 0 28).toNat

/-- The element `BUF_DATA` reaches (R36): none outside `IDLE`, for a reserved buffer id, or for an
index at or beyond the buffer's length. -/
def windowTarget (s : State) : Option (BufId × Nat) :=
  if cstate s = .idle then
    match BufId.ofNibble (windowId s) with
    | some b => if windowIndex s < bufLen s.cfg b then some (b, windowIndex s) else none
    | none => none
  else none

/-- A read of `BUF_DATA` (R36): a refused read returns 0. -/
def readWindow (s : State) : State :=
  match windowTarget s with
  | some (b, i) => { s with readData := elementWord s b i }
  | none => { refuseAccess s with readData := 0 }

/-- A write of `BUF_DATA` (R36). -/
def writeWindow (s : State) (v : Word) : State :=
  match windowTarget s with
  | some (b, i) => writeElement s b i v
  | none => refuseAccess s

/-- A host read of a register (R25, R31 to R36). Only a refused read of `BUF_DATA` changes the core's
state (R67). -/
def hostRead (r : HostReg) (s : State) : State :=
  match r with
  | .cmd => { s with readData := 0 }
  | .status => { s with readData := statusWord s }
  | .result => { s with readData := s.result }
  | .index => { s with readData := s.index }
  | .bufAddr => { s with readData := s.bufAddr }
  | .bufData => readWindow s
  | .jobs => { s with readData := s.jobs }
  | .reserved => { s with readData := 0 }

/-- A host write of `INDEX`: only in `IDLE` (R32). -/
def writeIndex (s : State) (v : Word) : State :=
  if cstate s = .idle then { s with index := v } else refuseAccess s

/-- A host write of `CMD`: the command the word encodes is performed, an illegal word is refused
(R33, R98, R100). -/
def writeCommand (s : State) (v : Word) : Result :=
  match decode v with
  | .ok i => exec i s
  | .error _ => .next (refuseAccess s)

/-- A host write of a register (R25, R31 to R36); read-only and reserved ones ignore it, without
`CMD_ERR` (R25, R285). -/
def hostWrite (r : HostReg) (v : Word) (s : State) : Result :=
  match r with
  | .cmd => writeCommand s v
  | .index => .next (writeIndex s v)
  | .bufAddr => .next { s with bufAddr := v }
  | .bufData => .next (writeWindow s v)
  | .status | .result | .jobs | .reserved => .next s

/-- A host access; one that is not an aligned 32-bit access has no meaning (R64). -/
def hostAccess (a : HostAccess) (s : State) : Result :=
  match a with
  | .read offset bytes =>
    if validShape offset bytes then .next (hostRead (hostReg offset) s) else .refused .hostAccessShape
  | .write offset bytes v =>
    if validShape offset bytes then hostWrite (hostReg offset) v s else .refused .hostAccessShape

end Sys2Proof.Machine
end

