-- ==== Sys2Proof/Machine/Schedule.lean ====
section
/-!
DEFINITION. What happens next: the job's dispatch and micro-steps (R145, R146, R149), the element
accesses of the DMA channels (R154), and the taking of one input.
-/

namespace Sys2Proof.Machine

open Sys2Proof

/-- Micro-step 2 (R146, R156): the correlator of the build. -/
def opCorrelate (nu : Num Scalar) (s : State) : State :=
  match s.cfg.strategy with
  | .time => opCorrt s
  | .freq => opCorrf nu s

/-- One action of the re-arm micro-step (R146, R149). The last one also ends the job:
`JOBS <- JOBS + 1`, `JSTEP <- 0` (log 11). -/
def rearmStep (a : ArmAction) (s : State) : State :=
  match a with
  | .clearFlags => { armAction .clearFlags s with jstep := .rearm .cfgRx }
  | .cfgRx => { armAction .cfgRx s with jstep := .rearm .cfgTx }
  | .cfgTx => { armAction .cfgTx s with jstep := .rearm .enableRx }
  | .enableRx => { armAction .enableRx s with jstep := .rearm .enableTx }
  | .enableTx => { armAction .enableTx s with jobs := s.jobs + 1, jstep := .stopped }

/-- The job's next step: dispatch when it is posted and not running (R145), else the micro-step
`JSTEP` names (R146). With no job posted or running there is none. Each of micro-steps 1 to 3 is one
step: the handler could not tell (R146, R290). A host register read could, between two registers a
micro-step writes (`TW_VALID` and `INDEX` in 2, `RESULT` and `RESULT_VALID` in 3): R288 serves reads at
any time and R66 makes only the single register atomic. That no input falls inside a micro-step is the
model's DESIGN CHOICE (log 11). -/
def jobStep (nu : Num Scalar) (s : State) : State :=
  match s.jstep with
  | .stopped => if s.jobPending = true then { s with jobPending := false, jstep := .downmix } else s
  | .downmix => { opDownmix s with jstep := .correlate }
  | .correlate => { opCorrelate nu s with jstep := .convert }
  | .convert => { opTodist nu s with jstep := .rearm .clearFlags }
  | .rearm a => rearmStep a s

/-- The RX channel writes one element of `CAPTURE` (R154 E2, E3; U3). -/
def rxWrite (i : Nat) (v : Sample) (s : State) : Result :=
  if s.enRx = false ∨ s.jstep.computing = true then .fault (.dmaNotOwner .rx)
  else if i < s.cfg.responseLen then .next { s with capture := bufWrite s.capture i v }
  else .fault (.dmaBeyondCount .rx)

/-- The TX channel reads one element of `PROBE` (R154 E2; U3). -/
def txRead (i : Nat) (s : State) : Result :=
  if s.enTx = false ∨ s.jstep.computing = true then .fault (.dmaNotOwner .tx)
  else if i < s.cfg.sweepLen then .next { s with txData := bufRead s.probe i }
  else .fault (.dmaBeyondCount .tx)

/-- What an input asks for beside its notifications. -/
def perform (a : Action) (s : State) : Result :=
  match a with
  | .nothing => .next s
  | .access h => hostAccess h s
  | .rxWrite i v => rxWrite i v s
  | .txRead i => txRead i s
  | .job => .next (jobStep s.cfg.ops s)
  | .reset => .next (resetCore s)

/-- The notifications of an input, RX first (R289). -/
def deliver (i : Input) (s : State) : State :=
  let s1 := if i.notifyRx = true then notify .rx s else s
  if i.notifyTx = true then notify .tx s1 else s1

/-- The next thing that happens. An input is taken whole: its notifications, then the rest (R288,
R289; log 10). When none is left the scheduler lets the job take its next step; with no job the
core waits, and its state does not change (log 9). -/
def nextStep (s : State) : Result :=
  match s.inputs with
  | [] => .next (jobStep s.cfg.ops s)
  | i :: rest => perform i.action (deliver i { s with inputs := rest })

/-- An input that is a host write of a word to `CMD` and nothing else. -/
def commandInput (w : Word) : Input where
  notifyRx := false
  notifyTx := false
  action := .access (.write 0x00 4 w)

end Sys2Proof.Machine
end

