-- ==== Sys2Proof/Machine/Step.lean ====
section
/-!
DEFINITION. One step of the machine, and how a command word is placed so that the next step runs
it.
-/

namespace Sys2Proof.Machine

open Sys2Proof

/-- One step: the next thing that happens. -/
def step (s : State) : Host.Outcome State Fault Refusal := nextStep s

/-- `s` with the command word `w` as the next input, a host write to `CMD` (R33; log 16). -/
def State.withFetchWord (s : State) (_nbits w : Nat) : State :=
  { s with inputs := commandInput (BitVec.ofNat 32 w) :: s.inputs }

end Sys2Proof.Machine
end

