-- ==== Sys2Proof/Safety.lean ====
section
/-!
DEFINITION. What the claims speak of beside the machine itself: the environment's contract (R154 E1),
the invariants of the controller (R159) and of the twiddle table (R202), what it means for arithmetic
to be exact and for a table of reals to be the bit-reversed one (R213), and the value of a binary32
pattern.
-/

namespace Sys2Proof.Machine

open Sys2Proof

/-! ### The environment and the controller -/

/-- Premise E1 of R154 for the next input: a notification is delivered only on a channel that owes
one, that is at most once after each enable and never before the first. -/
def EnvContract (s : State) : Prop :=
  ∀ i rest, s.inputs = i :: rest →
    (i.notifyRx = true → s.rxDma.owed = true) ∧ (i.notifyTx = true → s.txDma.owed = true)

/-- Both channels disabled, both flags clear, no job posted. -/
def Quiescent (s : State) : Prop :=
  s.enRx = false ∧ s.enTx = false ∧ s.rxDone = false ∧ s.txDone = false ∧ s.jobPending = false

/-- The controller between bursts and during them, while no job runs (R159 items 1 to 3): armed,
one channel done, or the job posted. -/
def WaitingShape (s : State) : Prop :=
  (s.enRx = true ∧ s.enTx = true ∧ s.rxDone = false ∧ s.txDone = false ∧ s.jobPending = false) ∨
  (s.enRx = false ∧ s.enTx = true ∧ s.rxDone = true ∧ s.txDone = false ∧ s.jobPending = false) ∨
  (s.enRx = true ∧ s.enTx = false ∧ s.rxDone = false ∧ s.txDone = true ∧ s.jobPending = false) ∨
  (s.enRx = false ∧ s.enTx = false ∧ s.rxDone = false ∧ s.txDone = false ∧ s.jobPending = true)

/-- The last action of the re-arm is still to come: the receive channel is enabled, or has already
completed (R141, R149). -/
def RxArmedShape (s : State) : Prop :=
  s.enTx = false ∧ s.txDone = false ∧ s.jobPending = false ∧ s.enRx = !s.rxDone

/-- The shape of the controller for each place the job can be at. -/
def ShapeAt (s : State) : JobStep → Prop
  | .stopped => WaitingShape s
  | .downmix => Quiescent s
  | .correlate => Quiescent s
  | .convert => Quiescent s
  | .rearm .clearFlags => Quiescent s
  | .rearm .cfgRx => Quiescent s
  | .rearm .cfgTx => Quiescent s
  | .rearm .enableRx => Quiescent s
  | .rearm .enableTx => RxArmedShape s

/-- The invariant behind R159: before `START` nothing is enabled, posted or running; afterwards the
controller has the shape of the place the job is at; and a channel owes a notification exactly
while it is enabled. -/
def ControllerInv (s : State) : Prop :=
  (s.started = false → Quiescent s ∧ s.jstep = .stopped) ∧
  (s.started = true → ShapeAt s s.jstep) ∧
  s.rxDma.owed = s.enRx ∧ s.txDma.owed = s.enTx

/-! ### The twiddle table -/

/-- What `TW_VALID` promises (R25 bit 8, R37, R202): while it is 1, complex entry `j` of `TW` is the
cosine and sine that `TWGEN` computes for entry `rev(j)`, `rev` reversing the `log2 (N/2)` bits of
`j`. -/
def TableInv (s : State) : Prop :=
  s.twValid = true →
    ∀ j < s.cfg.n / 2, ∀ i, i = reverseBits (Nat.log2 (s.cfg.n / 2)) j →
      ∀ a, a = s.cfg.ops.fdiv (s.cfg.ops.fmul (s.cfg.ops.i2f i) (s.cfg.ops.fconst .twoPi))
          (s.cfg.ops.i2f s.cfg.n) →
        bufRead s.tw (2 * j) = s.cfg.ops.fcos a ∧ bufRead s.tw (2 * j + 1) = s.cfg.ops.fsin a

/-! ### Exact arithmetic and valid tables -/

/-- `Num` with exact addition, subtraction and multiplication on a ring: the "exact arithmetic" of
R213, R214 and R223. -/
structure ExactNum {R : Type} [CommRing R] (nu : Num R) : Prop where
  add : ∀ a b, nu.fadd a b = a + b
  sub : ∀ a b, nu.fsub a b = a - b
  mul : ∀ a b, nu.fmul a b = a * b
  zero : nu.fzero = 0

/-- The bit-reversed table for `2^(k+1)` points over the reals (R202): complex entry `j` is the
cosine and sine of `2π · rev(j) / 2^(k+1)`, `rev` reversing the `k` bits of `j`. -/
def IsBitReversedTable (k : Nat) (w : List ℝ) : Prop :=
  w.length = 2 ^ (k + 1) ∧
  ∀ j < 2 ^ k,
    w.getD (2 * j) 0 = Real.cos (2 * Real.pi * reverseBits k j / 2 ^ (k + 1)) ∧
    w.getD (2 * j + 1) 0 = Real.sin (2 * Real.pi * reverseBits k j / 2 ^ (k + 1))

/-- Complex sample `p` of an interleaved sequence (R19, R30). -/
noncomputable def complexSample (x : List ℝ) (p : Nat) : ℂ :=
  (x.getD (2 * p) 0 : ℂ) + (x.getD (2 * p + 1) 0 : ℂ) * Complex.I

/-! ### What a transform stage is -/

/-- `y` is `x` after one forward stage (R211, R212): in each of `ie` blocks of `2·n2` complex samples,
sample `ia` of the first half and its partner `m` in the second half are replaced by the butterfly
of R211 with twiddle entry `j`, both from the old values. -/
def ForwardStage (nu : Num Scalar) (w : List Scalar) (n2 ie : Nat) (x y : List Scalar) : Prop :=
  y.length = x.length ∧
  ∀ j < ie, ∀ i < n2, ∀ ia m : Nat, ia = 2 * n2 * j + i → m = ia + n2 →
    ∀ c s tmpR tmpI : Scalar, c = w.getD (2 * j) 0 → s = w.getD (2 * j + 1) 0 →
      tmpR = nu.fadd (nu.fmul c (x.getD (2 * m) 0)) (nu.fmul s (x.getD (2 * m + 1) 0)) →
      tmpI = nu.fsub (nu.fmul c (x.getD (2 * m + 1) 0)) (nu.fmul s (x.getD (2 * m) 0)) →
      y.getD (2 * m) 0 = nu.fsub (x.getD (2 * ia) 0) tmpR ∧
      y.getD (2 * m + 1) 0 = nu.fsub (x.getD (2 * ia + 1) 0) tmpI ∧
      y.getD (2 * ia) 0 = nu.fadd (x.getD (2 * ia) 0) tmpR ∧
      y.getD (2 * ia + 1) 0 = nu.fadd (x.getD (2 * ia + 1) 0) tmpI

/-- `y` is `x` after one inverse stage (R221, R222), the blocks as in `ForwardStage`. -/
def InverseStage (nu : Num Scalar) (w : List Scalar) (n2 ie : Nat) (x y : List Scalar) : Prop :=
  y.length = x.length ∧
  ∀ j < ie, ∀ i < n2, ∀ ia m : Nat, ia = 2 * n2 * j + i → m = ia + n2 →
    ∀ c s tmpR tmpI : Scalar, c = w.getD (2 * j) 0 → s = w.getD (2 * j + 1) 0 →
      tmpR = nu.fsub (x.getD (2 * ia) 0) (x.getD (2 * m) 0) →
      tmpI = nu.fsub (x.getD (2 * ia + 1) 0) (x.getD (2 * m + 1) 0) →
      y.getD (2 * ia) 0 = nu.fadd (x.getD (2 * ia) 0) (x.getD (2 * m) 0) ∧
      y.getD (2 * ia + 1) 0 = nu.fadd (x.getD (2 * ia + 1) 0) (x.getD (2 * m + 1) 0) ∧
      y.getD (2 * m) 0 = nu.fsub (nu.fmul c tmpR) (nu.fmul s tmpI) ∧
      y.getD (2 * m + 1) 0 = nu.fadd (nu.fmul c tmpI) (nu.fmul s tmpR)

/-! ### The value of a pattern -/

/-- The rational number a finite binary32 pattern stands for: `± m · 2^e`. -/
def finiteValue (neg : Bool) (m : Nat) (e : Int) : ℚ := (if neg then -1 else 1) * m * 2 ^ e

/-! ### Frames -/

/-- The contents of a buffer of samples; the scalar buffers have none. -/
def samplesOf (s : State) : BufId → Buf Sample
  | .probe => s.probe
  | .capture => s.capture
  | .mono => s.mono
  | .ssp | .rsp | .xsp | .tw => []

/-- The contents of a buffer of `Num` scalars; the sample buffers have none. -/
def scalarsOf (s : State) : BufId → Buf Scalar
  | .ssp => s.ssp
  | .rsp => s.rsp
  | .xsp => s.xsp
  | .tw => s.tw
  | .probe | .capture | .mono => []

/-- `t` differs from `s` in the contents of the scalar buffer `d` at most, and in `TW_VALID`, which
is 0, when `d` is the twiddle table. -/
def OnlyScalarsWritten (d : BufId) (s t : State) : Prop :=
  match d with
  | .ssp => t = { s with ssp := t.ssp }
  | .rsp => t = { s with rsp := t.rsp }
  | .xsp => t = { s with xsp := t.xsp }
  | .tw => t = { s with tw := t.tw, twValid := false }
  | .probe | .capture | .mono => t = s

/-- The mathematical sum of R191 for lag `k`, before wrapping: the terms the probe and the echo both
have. -/
def exactLagSum (s : State) (k : Nat) : Int :=
  ∑ j ∈ Finset.range (min s.cfg.sweepLen (s.cfg.responseMono - k)),
    (bufRead s.probe j).toInt * (bufRead s.mono (k + j)).toInt

end Sys2Proof.Machine
end

