-- ==== Sys2Proof/Certificates/Slice0/Obligations.lean ====
section
/-!
DEFINITION. The statements for the provers. Each formalises the rules its docstring names. They are
stated for every state, and so for every legal configuration, which is a field of the state; `nu` is
the configuration's `Num`.
-/

open Sys2Proof Sys2Proof.Machine

/-! ### Reset, views and the configuration -/

/-- R39, R320: after reset, under every configuration, every sample is 0 and every scalar is `fzero`,
whose pattern, as the host window shows it, is 0x00000000; every flag and register has the value of
the table, no DMA notification is owed, and `STATUS` is 0, or 0x400 when the strategy is FREQ. -/
def Obligations.ResetHoldsTheStatedValues : Prop :=
  ∀ c : Config, ∀ s : State, s = State.resetWith c →
    (∀ i, bufRead s.probe i = 0 ∧ bufRead s.capture i = 0 ∧ bufRead s.mono i = 0) ∧
    (∀ i, bufRead s.ssp i = c.ops.fzero ∧ bufRead s.rsp i = c.ops.fzero ∧
      bufRead s.xsp i = c.ops.fzero ∧ bufRead s.tw i = c.ops.fzero) ∧
    (∀ b i, elementWord s b i = 0) ∧
    s.rxDone = false ∧ s.txDone = false ∧ s.enRx = false ∧ s.enTx = false ∧
    s.jobPending = false ∧ s.jstep.code = 0 ∧ s.started = false ∧ s.resultValid = false ∧
    s.twValid = false ∧ s.cmdErr = false ∧ s.result = 0 ∧ s.index = 0 ∧ s.bufAddr = 0 ∧
    s.jobs = 0 ∧ cstate s = .idle ∧ s.rxDma.owed = false ∧ s.txDma.owed = false ∧
    statusWord s = (if c.strategy = .freq then 0x400 else 0)

/-- R320, R322: whatever the machine was doing, an input with RESET gives the reset state of its
configuration, which is not touched; no CFG event is issued. That the inputs that follow are still to
come is the model's choice (log 22). -/
def Obligations.ResetInputGivesTheResetState : Prop :=
  ∀ (s : State) (i : Input) (rest : List Input), s.inputs = i :: rest → i.action = .reset →
    step s = .next { State.resetWith s.cfg with inputs := rest }

/-- The bit table of R25: each bit of `STATUS` is the live view of its piece of state, the bits not
listed read 0, and bits 14:12 are 0 in `IDLE`, 1 in `ARMED`, 2 in `PARTIAL`, 3 in `READY` and 4 in
`PROCESSING`, the controller state being the first line of R141 that matches. -/
def Obligations.StatusBitsAreLiveViews : Prop :=
  ∀ s : State,
    (statusWord s).getLsbD 0 = s.rxDone ∧ (statusWord s).getLsbD 1 = s.txDone ∧
    (statusWord s).getLsbD 2 = s.enRx ∧ (statusWord s).getLsbD 3 = s.enTx ∧
    (statusWord s).getLsbD 4 = s.jobPending ∧
    ((statusWord s).getLsbD 5 = true ↔ s.jstep ≠ .stopped) ∧
    (statusWord s).getLsbD 6 = s.started ∧ (statusWord s).getLsbD 7 = s.resultValid ∧
    (statusWord s).getLsbD 8 = s.twValid ∧ (statusWord s).getLsbD 9 = s.cmdErr ∧
    ((statusWord s).getLsbD 10 = true ↔ s.cfg.strategy = .freq) ∧
    (statusWord s).getLsbD 11 = false ∧
    (statusWord s).extractLsb' 12 3 =
      (if s.started = false then 0
      else if s.jstep ≠ .stopped then 4
      else if s.jobPending = true ∨ (s.rxDone = true ∧ s.txDone = true) then 3
      else if s.rxDone ≠ s.txDone then 2
      else 1) ∧
    (cstate s = .idle ↔ (statusWord s).extractLsb' 12 3 = 0) ∧
    (cstate s = .armed ↔ (statusWord s).extractLsb' 12 3 = 1) ∧
    (cstate s = .partialDone ↔ (statusWord s).extractLsb' 12 3 = 2) ∧
    (cstate s = .ready ↔ (statusWord s).extractLsb' 12 3 = 3) ∧
    (cstate s = .processing ↔ (statusWord s).extractLsb' 12 3 = 4) ∧
    (∀ k, 15 ≤ k → (statusWord s).getLsbD k = false)

/-- R8 ("None of them can change after reset"), R320: no step changes the configuration. -/
def Obligations.ConfigurationNeverChanges : Prop :=
  ∀ s t : State, step s = .next t → t.cfg = s.cfg

/-! ### Encoding -/

/-- R92 to R98: for every well-formed command, decoding its word gives it back. -/
def Obligations.DecodeOfEncodeIsTheCommand : Prop :=
  ∀ i : Instr, i.wellFormed = true → decode (encode i) = .ok i

/-- R98, R101: every word the decoder accepts is the word of a well-formed command, so no reserved
opcode, non-zero unused field or operand that is not allowed is executed as anything. -/
def Obligations.OnlyWordsOfCommandsDecode : Prop :=
  ∀ (w : Word) (i : Instr), decode w = .ok i → i.wellFormed = true ∧ encode i = w

/-- Words of 95_test_vectors.md 2.12 and of R97's table decode as written there. -/
def Obligations.SpecWordsDecodeAsListed : Prop :=
  decode 0x01000000 = .ok .start ∧ decode 0x14000000 = .ok .todist ∧
  decode 0x21600000 = .ok (.bitrev .tw) ∧ decode 0x22400000 = .ok (.fft .rsp) ∧
  decode 0x24345000 = .ok (.cmul .ssp .rsp .xsp) ∧ decode 0x27500000 = .ok (.peak .xsp) ∧
  (decode 0x00000000).toOption = none ∧ (decode 0x10000001).toOption = none ∧
  (decode 0x22340000).toOption = none ∧ (decode 0x24346000).toOption = none

/-! ### What runs, and what is refused -/

/-- R33, R98 to R100: when the next input is an aligned 32-bit host write of a word to `CMD`, the step
delivers the notifications that come with it and then runs the command the word decodes to; a word
that does not decode only sets `CMD_ERR`. -/
def Obligations.StepRunsTheDecodedCommand : Prop :=
  ∀ (s : State) (rx tx : Bool) (w : Word) (rest : List Input),
    s.inputs = ⟨rx, tx, .access (.write 0 4 w)⟩ :: rest →
    (∀ i, decode w = .ok i →
      step s = exec i (deliver ⟨rx, tx, .access (.write 0 4 w)⟩ { s with inputs := rest })) ∧
    (∀ e, decode w = .error e →
      step s = .next { deliver ⟨rx, tx, .access (.write 0 4 w)⟩ { s with inputs := rest } with
        cmdErr := true })

/-- R99, R100: a write to `CMD` of an illegal word, or of any word outside `IDLE`, changes no state
except `CMD_ERR <- 1`; so does a command outside `IDLE`. That a command value with an operand its
opcode does not allow, the value of no word, does the same is the model's choice (log 21). -/
def Obligations.RefusedCommandOnlySetsCmdErr : Prop :=
  (∀ (w : Word) (s : State), (∃ e, decode w = .error e) ∨ cstate s ≠ .idle →
    writeCommand s w = .next { s with cmdErr := true }) ∧
  (∀ (i : Instr) (s : State), cstate s ≠ .idle ∨ i.wellFormed = false →
    exec i s = .next { s with cmdErr := true })

/-- R280: no command traps, faults or is left without an end state. That this holds of a command value
that is not well formed too, which no word decodes to, is the model's choice (log 21). -/
def Obligations.EveryCommandEndsInANextState : Prop :=
  ∀ (i : Instr) (s : State), ∃ t, exec i s = .next t

/-- R64, R154 E2 and E3, R280, R330: a step does not end in a next state exactly when it takes a host
access that is not an aligned 32-bit access, or an element access of a DMA channel that, after the
notifications that come with it, is disabled or shut out by the computing job, or that goes to or
beyond the count of its descriptor. That these stop, and under which names, is the model's choice (log
14, 19). -/
def Obligations.StopsComeOnlyFromOutsideTheContract : Prop :=
  ∀ s : State,
    (∀ r, step s = .refused r → r = .hostAccessShape ∧ ∃ i rest, s.inputs = i :: rest ∧
      ∃ offset bytes, (bytes ≠ 4 ∨ offset % 4 ≠ 0) ∧
        (i.action = .access (.read offset bytes) ∨
          ∃ v, i.action = .access (.write offset bytes v))) ∧
    (∀ f, step s = .fault f → ∃ i rest, s.inputs = i :: rest ∧
      ∃ u k, u = deliver i { s with inputs := rest } ∧
        (((∃ v, i.action = .rxWrite k v) ∧
          ((f = .dmaNotOwner .rx ∧
              (u.enRx = false ∨ u.jstep = .downmix ∨ u.jstep = .correlate ∨ u.jstep = .convert)) ∨
            (f = .dmaBeyondCount .rx ∧ s.cfg.responseLen ≤ k))) ∨
        (i.action = .txRead k ∧
          ((f = .dmaNotOwner .tx ∧
              (u.enTx = false ∨ u.jstep = .downmix ∨ u.jstep = .correlate ∨ u.jstep = .convert)) ∨
            (f = .dmaBeyondCount .tx ∧ s.cfg.sweepLen ≤ k))))) ∧
    (∀ i rest u, s.inputs = i :: rest → u = deliver i { s with inputs := rest } →
      (∀ offset bytes, bytes ≠ 4 ∨ offset % 4 ≠ 0 →
        (i.action = .access (.read offset bytes) ∨
          ∃ v, i.action = .access (.write offset bytes v)) →
        step s = .refused .hostAccessShape) ∧
      (∀ k v, i.action = .rxWrite k v →
        (u.enRx = false ∨ u.jstep = .downmix ∨ u.jstep = .correlate ∨ u.jstep = .convert →
          step s = .fault (.dmaNotOwner .rx)) ∧
        (u.enRx = true → u.jstep ≠ .downmix → u.jstep ≠ .correlate → u.jstep ≠ .convert →
          s.cfg.responseLen ≤ k → step s = .fault (.dmaBeyondCount .rx))) ∧
      (∀ k, i.action = .txRead k →
        (u.enTx = false ∨ u.jstep = .downmix ∨ u.jstep = .correlate ∨ u.jstep = .convert →
          step s = .fault (.dmaNotOwner .tx)) ∧
        (u.enTx = true → u.jstep ≠ .downmix → u.jstep ≠ .correlate → u.jstep ≠ .convert →
          s.cfg.sweepLen ≤ k → step s = .fault (.dmaBeyondCount .tx))))

/-! ### START and SYNTH -/

/-- R142, R149: in `IDLE`, `START` does what `SYNTH` does, then clears both flags, issues `CFG(RX)`
and then `CFG(TX)` with the arguments of R149, enables both channels and sets `STARTED`; nothing
else changes. Outside `IDLE` it is refused. That a channel going from disabled to enabled then owes
a notification is R154 E1. -/
def Obligations.StartSynthesizesAndArms : Prop :=
  ∀ s : State,
    (cstate s = .idle →
      ∃ u, exec .synth s = .next u ∧
        exec .start s = .next { u with
          rxDone := false
          txDone := false
          rxDma := {
            desc := some ⟨.rx, .audioRxPort, .refCapture, s.cfg.responseLen⟩
            owed := s.rxDma.owed || !s.enRx }
          txDma := {
            desc := some ⟨.tx, .refProbe, .audioTxPort, s.cfg.sweepLen⟩
            owed := s.txDma.owed || !s.enTx }
          cfgLog := s.cfgLog ++ [⟨.rx, .audioRxPort, .refCapture, s.cfg.responseLen⟩,
            ⟨.tx, .refProbe, .audioTxPort, s.cfg.sweepLen⟩]
          enRx := true
          enTx := true
          started := true }) ∧
    (cstate s ≠ .idle → exec .start s = .next { s with cmdErr := true })

/-- R124: after `SYNTH`, `PROBE[k] = PROBE[SWEEP_LEN - 1 - k]` for every `k` of the second half, and
no other state changes; the symmetry holds for every `Num` instance. -/
def Obligations.SynthMirrorsTheFirstHalf : Prop :=
  (∀ s : State, cstate s = .idle →
    ∃ t, exec .synth s = .next t ∧ t = { s with probe := t.probe } ∧
      ∀ k, s.cfg.sweepLen / 2 ≤ k → k < s.cfg.sweepLen →
        bufRead t.probe k = bufRead t.probe (s.cfg.sweepLen - 1 - k)) ∧
  (∀ (nu : Num Scalar) (s : State) (k : Nat), s.cfg.sweepLen / 2 ≤ k → k < s.cfg.sweepLen →
    bufRead (opSynth nu s).probe k = bufRead (opSynth nu s).probe (s.cfg.sweepLen - 1 - k))

/-- R120, R121: in `IDLE`, `SYNTH` writes the quantized values of the oscillator: the seeds 1 and
`2·cos(ω0)·sin(ω0)` with `ω0 = omega_seed()`, then each value from the two before it by `osc_step`
with `omega(k)`; the second half mirrors the first; no other state changes. That the seed frequency
is `fadd(F0, DF)` is DEDUCED (log 7). -/
def Obligations.SynthFollowsTheOscillator : Prop :=
  ∀ (s : State) (nu : Num Scalar), nu = s.cfg.ops → cstate s = .idle →
    ∃ (t : State) (v : Nat → Scalar), exec .synth s = .next t ∧ t = { s with probe := t.probe } ∧
      v 0 = nu.fconst .one ∧
      (∀ w0, w0 = nu.fdiv (nu.fmul (nu.fconst .twoPi) (nu.fadd s.cfg.f0 s.cfg.df)) s.cfg.fs →
        v 1 = nu.fmul (nu.fmul (nu.fconst .two) (nu.fcos w0)) (nu.fsin w0)) ∧
      (∀ k, 2 ≤ k → k < s.cfg.sweepLen / 2 → ∀ w cw sw rad : Scalar,
        w = nu.fdiv (nu.fmul (nu.fconst .twoPi)
          (nu.fadd s.cfg.f0 (nu.fmul (nu.i2f k) s.cfg.df))) s.cfg.fs →
        cw = nu.fcos w → sw = nu.fsin w →
        rad = nu.fsub (nu.fadd (nu.fmul (v (k - 1)) (v (k - 1))) (nu.fmul (v (k - 2)) (v (k - 2))))
          (nu.fmul (nu.fmul (nu.fmul (nu.fconst .two) (v (k - 2))) (v (k - 1))) cw) →
        v k = nu.fmul (nu.fdiv sw (nu.fsqrt rad))
          (nu.fsub (nu.fmul (nu.fmul (nu.fconst .two) cw) (v (k - 1))) (v (k - 2)))) ∧
      (∀ k, k < s.cfg.sweepLen / 2 →
        bufRead t.probe k = quantize nu s.cfg.gain (v k)) ∧
      (∀ k, s.cfg.sweepLen / 2 ≤ k → k < s.cfg.sweepLen →
        bufRead t.probe k = bufRead t.probe (s.cfg.sweepLen - 1 - k))

/-- R122. With any `Num`, in terms of the integer part of `t = fmul(GAIN, v)`, the model's field for
what R122 asks of a value (log 25): 0 for a NaN, the bounds for the infinities, and an integer part
saturated at 32767 and -32768. With binary32, in terms of the value `r` that the pattern of `t` stands
for: 0 for a NaN, 32767 for `r` at or above 32767 or the positive infinity, -32768 for `r` at or below
-32768 or the negative infinity, and else the integer with the sign of `r` whose magnitude is at most
that of `r` and within 1 of it. -/
def Obligations.QuantizerSaturatesAndTruncates : Prop :=
  (∀ (nu : Num Scalar) (gain v : Scalar) (q : Int), q = (quantize nu gain v).toInt →
    (nu.integerPart (nu.fmul gain v) = .nan → q = 0) ∧
    (nu.integerPart (nu.fmul gain v) = .posInf → q = 32767) ∧
    (nu.integerPart (nu.fmul gain v) = .negInf → q = -32768) ∧
    (∀ z, nu.integerPart (nu.fmul gain v) = .int z →
      (32767 ≤ z → q = 32767) ∧ (z ≤ -32768 → q = -32768) ∧
      (-32768 < z → z < 32767 → q = z))) ∧
  (∀ (c : Config) (gain v t : Word) (q : Int), c.num = .binary32 → t = floatMul gain v →
    q = (quantize c.ops gain.toNat v.toNat).toInt →
    (unpack t = .nan → q = 0) ∧
    (unpack t = .inf false → q = 32767) ∧
    (unpack t = .inf true → q = -32768) ∧
    (∀ (neg : Bool) (m : Nat) (e : Int) (r : ℚ), unpack t = .fin neg m e →
      r = finiteValue neg m e →
      (32767 ≤ r → q = 32767) ∧ (r ≤ -32768 → q = -32768) ∧
      (-32768 < r → r < 32767 → 0 ≤ q * r ∧ |(q : ℚ)| ≤ |r| ∧ |r| < |(q : ℚ)| + 1)))

/-! ### DOWNMIX, CORRT and TODIST -/

/-- R180: in `IDLE`, `DOWNMIX` makes `MONO[i] = CAPTURE[2i]` for every `i` below `RESPONSE_MONO`, bit
for bit, and changes nothing else. -/
def Obligations.DownmixTakesTheLeftChannel : Prop :=
  ∀ s : State, cstate s = .idle →
    ∃ t, exec .downmix s = .next t ∧ t = { s with mono := t.mono } ∧
      ∀ i < s.cfg.responseMono, bufRead t.mono i = bufRead s.capture (2 * i)

/-- R190, R191, R193, R194: in `IDLE`, `CORRT` sets `INDEX` to a lag below `SWEEP_LEN`: 0 when no
wrapped sum exceeds 0, else the smallest lag whose wrapped sum is the greatest; nothing else
changes. The sum of a lag is that of the terms both buffers have, wrapped at `ACC_W` bits (R192). -/
def Obligations.CorrtPicksTheEarliestStrictMaximum : Prop :=
  ∀ s : State, cstate s = .idle →
    ∃ t, exec .corrt s = .next t ∧ t = { s with index := t.index } ∧
      t.index.toNat < s.cfg.sweepLen ∧
      ∀ r : Nat → Int, (∀ k, r k = (exactLagSum s k).bmod (2 ^ s.cfg.accW)) →
        ((∀ k < s.cfg.sweepLen, r k ≤ 0) → t.index = 0) ∧
        ((∃ k < s.cfg.sweepLen, 0 < r k) →
          0 < r t.index.toNat ∧
          (∀ k < s.cfg.sweepLen, r k ≤ r t.index.toNat) ∧
          (∀ k < t.index.toNat, r k < r t.index.toNat))

/-- R192: with an accumulator of at least 64 bits the wrapped sum of every lag is the exact
mathematical sum, in every legal configuration. -/
def Obligations.WideAccumulatorIsExact : Prop :=
  ∀ (s : State) (k : Nat), 64 ≤ s.cfg.accW →
    lagSum s.cfg s.probe s.mono k = exactLagSum s k

/-- R196: with an accumulator of at least 64 bits, when the mono echo is the probe at offset `d` and
zero elsewhere, the whole probe fits and is not all zero, `CORRT` recovers `d`. -/
def Obligations.CorrtRecoversTheInjectedDelay : Prop :=
  ∀ (s : State) (d : Nat), cstate s = .idle → 64 ≤ s.cfg.accW → d < s.cfg.sweepLen →
    d + s.cfg.sweepLen ≤ s.cfg.responseMono →
    (∃ j < s.cfg.sweepLen, bufRead s.probe j ≠ 0) →
    (∀ m < s.cfg.responseMono, bufRead s.mono m =
      if d ≤ m ∧ m < d + s.cfg.sweepLen then bufRead s.probe (m - d) else 0) →
    exec .corrt s = .next { s with index := BitVec.ofNat 32 d }

/-- R270, R31: in `IDLE`, `TODIST` writes `bits(fdiv(fmul(i2f(INDEX), SPEED), fmul(2, RATE)))` with
`INDEX` unsigned to `RESULT`, sets `RESULT_VALID`, and changes nothing else. -/
def Obligations.TodistConvertsTheIndex : Prop :=
  ∀ (s : State) (nu : Num Scalar), nu = s.cfg.ops → cstate s = .idle →
    exec .todist s = .next { s with
      result := nu.bits (nu.fdiv (nu.fmul (nu.i2f s.index.toNat) s.cfg.speed)
        (nu.fmul (nu.fconst .two) s.cfg.rate))
      resultValid := true }

/-- R272: the no-signal default yields distance +0, the pattern 0: under every `Num` when `SPEED` and
`2·RATE` are positive and finite (the spec asks this of `GAIN` only; log 3), and so with binary32 and
the source's `SPEED` and `RATE`. -/
def Obligations.IndexZeroGivesDistanceZero : Prop :=
  ∀ (s : State) (nu : Num Scalar), nu = s.cfg.ops → cstate s = .idle → s.index = 0 →
    (nu.Positive s.cfg.speed → nu.Positive (nu.fmul (nu.fconst .two) s.cfg.rate) →
      exec .todist s = .next { s with result := 0, resultValid := true }) ∧
    (s.cfg.num = .binary32 → s.cfg.speed = 0x43AA0000 → s.cfg.rate = 0x47BB8000 →
      exec .todist s = .next { s with result := 0, resultValid := true })

/-- R272 ("never decreasing"): with binary32 and the source's constants a greater index never has a
smaller distance. -/
def Obligations.DistanceNeverDecreases : Prop :=
  ∀ (c : Config) (i1 i2 : Word), c.num = .binary32 → c.speed = 0x43AA0000 →
    c.rate = 0x47BB8000 → i1.toNat ≤ i2.toNat →
    c.ops.fgt (distanceOf c.ops c i1) (distanceOf c.ops c i2) = false

/-- The claim of R272 that with binary32 the conversion is strictly increasing for all indices below
`2^24`. Expected to fail: `fmul` by 340 already rounds products above `2^32` to multiples of 512. -/
def Obligations.DistanceStrictBelowTwoPow24 : Prop :=
  ∀ (c : Config) (i1 i2 : Word), c.num = .binary32 → c.speed = 0x43AA0000 →
    c.rate = 0x47BB8000 → i1.toNat < i2.toNat → i2.toNat < 2 ^ 24 →
    c.ops.fgt (distanceOf c.ops c i2) (distanceOf c.ops c i1) = true

/-! ### The FFT engine -/

/-- R200: in `IDLE`, `TWGEN` writes the cosine and sine of `fdiv(fmul(i2f(i), 2π), i2f(N))` to the
scalars `2i` and `2i+1` of `TW`, entry 0 being exactly (1, 0) under every `Num`, clears `TW_VALID` and
changes nothing else. -/
def Obligations.TwgenWritesTheNaturalOrderTable : Prop :=
  ∀ (s : State) (nu : Num Scalar), nu = s.cfg.ops → cstate s = .idle →
    ∃ t, exec .twgen s = .next t ∧ t = { s with tw := t.tw, twValid := false } ∧
      (∀ i < s.cfg.n / 2, ∀ a : Scalar,
        a = nu.fdiv (nu.fmul (nu.i2f i) (nu.fconst .twoPi)) (nu.i2f s.cfg.n) →
        bufRead t.tw (2 * i) = nu.fcos a ∧ bufRead t.tw (2 * i + 1) = nu.fsin a) ∧
      bufRead t.tw 0 = nu.fconst .one ∧ bufRead t.tw 1 = nu.fzero

/-- R203, R205: in `IDLE`, `BITREV d` on a spectrum buffer (`n = N`) or the twiddle table
(`n = N/2`) makes the complex sample at every position `p` the old one at `rev_n(p)`; nothing else
changes but `TW_VALID`, cleared when `d` is `TW`. -/
def Obligations.BitrevPermutesByReversal : Prop :=
  ∀ (s : State) (d : BufId) (n : Nat), cstate s = .idle → d.isPermutable = true →
    n = (if d = .tw then s.cfg.n / 2 else s.cfg.n) →
    ∃ t, exec (.bitrev d) s = .next t ∧ OnlyScalarsWritten d s t ∧
      ∀ p < n,
        bufRead (scalarsOf t d) (2 * p) =
          bufRead (scalarsOf s d) (2 * reverseBits (Nat.log2 n) p) ∧
        bufRead (scalarsOf t d) (2 * p + 1) =
          bufRead (scalarsOf s d) (2 * reverseBits (Nat.log2 n) p + 1)

/-- R205: applying `BITREV` twice gives back the same machine state, but that `TW_VALID` is 0 when
the buffer is the twiddle table. -/
def Obligations.BitrevTwiceRestoresTheBuffer : Prop :=
  ∀ (s : State) (d : BufId), cstate s = .idle → Memory.wf s = true → d.isPermutable = true →
    ∃ t, exec (.bitrev d) s = .next t ∧
      exec (.bitrev d) t = .next (if d = .tw then { s with twValid := false } else s)

/-- R210, R211, R212: in `IDLE`, `FFT d` takes the scalars of `d` through `log2 N` stages, the stage
number `q` with `n2 = N / 2^(q+1)` and `ie = 2^q`, each the butterflies of R211 with the twiddle
table as it is; nothing else changes. -/
def Obligations.FftRunsTheButterflyStages : Prop :=
  ∀ (s : State) (d : BufId), cstate s = .idle → d.isSpectrum = true →
    ∃ (t : State) (x : Nat → List Scalar), exec (.fft d) s = .next t ∧ OnlyScalarsWritten d s t ∧
      x 0 = bufToList s.cfg.fftLen (scalarsOf s d) ∧
      (∀ q < Nat.log2 s.cfg.n, ForwardStage s.cfg.ops (bufToList s.cfg.n s.tw)
        (s.cfg.n / 2 ^ (q + 1)) (2 ^ q) (x q) (x (q + 1))) ∧
      bufToList s.cfg.fftLen (scalarsOf t d) = x (Nat.log2 s.cfg.n)

/-- R220, R221, R222: in `IDLE`, `IFFT d` takes the scalars of `d` through `log2 N` stages, the stage
number `q` with `n2 = 2^q` and `ie = N / 2^(q+1)`, each the butterflies of R221 with the twiddle
table as it is; nothing else changes. -/
def Obligations.IfftRunsTheButterflyStages : Prop :=
  ∀ (s : State) (d : BufId), cstate s = .idle → d.isSpectrum = true →
    ∃ (t : State) (x : Nat → List Scalar), exec (.ifft d) s = .next t ∧ OnlyScalarsWritten d s t ∧
      x 0 = bufToList s.cfg.fftLen (scalarsOf s d) ∧
      (∀ q < Nat.log2 s.cfg.n, InverseStage s.cfg.ops (bufToList s.cfg.n s.tw)
        (2 ^ q) (s.cfg.n / 2 ^ (q + 1)) (x q) (x (q + 1))) ∧
      bufToList s.cfg.fftLen (scalarsOf t d) = x (Nat.log2 s.cfg.n)

/-- R213: with exact real arithmetic and the bit-reversed table, the forward transform of `N = 2^(k+1)`
complex samples leaves at position `p` the discrete Fourier transform's value for `rev_N(p)`, with
the negative exponent and no scaling. -/
def Obligations.FftComputesTheFourierTransform : Prop :=
  ∀ (nu : Num ℝ) (k : Nat) (w x : List ℝ), ExactNum nu → IsBitReversedTable k w →
    x.length = 2 * 2 ^ (k + 1) →
    ∀ p < 2 ^ (k + 1),
      complexSample (fftList nu (2 ^ (k + 1)) w x) p =
        ∑ t ∈ Finset.range (2 ^ (k + 1)), complexSample x t *
          Complex.exp (-2 * Real.pi * Complex.I * reverseBits (k + 1) p * t / 2 ^ (k + 1))

/-- R214: with exact arithmetic in any ring the forward transform is a linear map of the buffer,
whatever the twiddle table holds: the transform of a sum is the sum of the transforms, and a common
factor goes through it. -/
def Obligations.FftIsLinear : Prop :=
  ∀ (R : Type) [CommRing R] (nu : Num R) (k : Nat) (w x y : List R) (a : R), ExactNum nu →
    x.length = 2 * 2 ^ k → y.length = 2 * 2 ^ k →
    fftList nu (2 ^ k) w (List.zipWith (fun u v => u + v) x y) =
      List.zipWith (fun u v => u + v) (fftList nu (2 ^ k) w x) (fftList nu (2 ^ k) w y) ∧
    fftList nu (2 ^ k) w (x.map fun v => a * v) = (fftList nu (2 ^ k) w x).map fun v => a * v

/-- R223: with exact real arithmetic and the bit-reversed table, the inverse transform of
`N = 2^(k+1)` complex samples in bit-reversed order leaves at position `t` the sum of the spectrum's
values with the positive exponent, in natural order and without the factor `1/N`. -/
def Obligations.IfftComputesTheInverseTransform : Prop :=
  ∀ (nu : Num ℝ) (k : Nat) (w x : List ℝ), ExactNum nu → IsBitReversedTable k w →
    x.length = 2 * 2 ^ (k + 1) →
    ∀ t < 2 ^ (k + 1),
      complexSample (ifftList nu (2 ^ (k + 1)) w x) t =
        ∑ q ∈ Finset.range (2 ^ (k + 1)), complexSample x (reverseBits (k + 1) q) *
          Complex.exp (2 * Real.pi * Complex.I * q * t / 2 ^ (k + 1))

/-- R223: with exact arithmetic, the inverse transform after the forward one returns `N` times the
original, for every table whose entries lie on the unit circle; no `1/N` is applied. -/
def Obligations.IfftAfterFftIsNTimes : Prop :=
  ∀ (R : Type) [CommRing R] (nu : Num R) (k : Nat) (w x : List R), ExactNum nu →
    (∀ j < 2 ^ k / 2, w.getD (2 * j) 0 * w.getD (2 * j) 0 +
      w.getD (2 * j + 1) 0 * w.getD (2 * j + 1) 0 = 1) →
    x.length = 2 * 2 ^ k →
    ifftList nu (2 ^ k) w (fftList nu (2 ^ k) w x) = x.map (fun v => 2 ^ k * v)

/-! ### The frequency-domain correlator -/

/-- R240: in `IDLE`, `PADP` writes `fdiv(i2f(PROBE[i]), GAIN)` to the real parts of `SSP` for `i`
below `SWEEP_LEN`, `fzero` to the other real parts and to every imaginary part, and changes nothing
else. Under every `Num` a sample 0 gives `fzero`. -/
def Obligations.PadpLoadsTheNormalisedProbe : Prop :=
  ∀ (s : State) (nu : Num Scalar), nu = s.cfg.ops → cstate s = .idle →
    ∃ t, exec .padp s = .next t ∧ t = { s with ssp := t.ssp } ∧
      ∀ i < s.cfg.n,
        bufRead t.ssp (2 * i) = (if i < s.cfg.sweepLen
          then nu.fdiv (nu.i2f (bufRead s.probe i).toInt) s.cfg.gain else nu.fzero) ∧
        bufRead t.ssp (2 * i + 1) = nu.fzero ∧
        (bufRead s.probe i = 0 → bufRead t.ssp (2 * i) = nu.fzero)

/-- R242: in `IDLE`, `PADE` writes `i2f(MONO[i])` to the real parts of `RSP` for `i` below
`RESPONSE_MONO`, `fzero` to the other real parts and to every imaginary part, and changes nothing
else. -/
def Obligations.PadeLoadsTheEcho : Prop :=
  ∀ (s : State) (nu : Num Scalar), nu = s.cfg.ops → cstate s = .idle →
    ∃ t, exec .pade s = .next t ∧ t = { s with rsp := t.rsp } ∧
      ∀ i < s.cfg.n,
        bufRead t.rsp (2 * i) = (if i < s.cfg.responseMono
          then nu.i2f (bufRead s.mono i).toInt else nu.fzero) ∧
        bufRead t.rsp (2 * i + 1) = nu.fzero

/-- R246, R247: in `IDLE`, `CMUL d, a, b` writes to every complex sample of `d` the unconjugated
product of the old samples of `a` and `b`, whichever of the three buffers coincide, and changes
nothing else. -/
def Obligations.CmulMultipliesPointwise : Prop :=
  ∀ (s : State) (nu : Num Scalar) (d a b : BufId), nu = s.cfg.ops → cstate s = .idle →
    d.isSpectrum = true → a.isSpectrum = true → b.isSpectrum = true →
    ∃ t, exec (.cmul d a b) s = .next t ∧ OnlyScalarsWritten d s t ∧
      ∀ k < s.cfg.n, ∀ ar ai br bi : Scalar,
        ar = bufRead (scalarsOf s a) (2 * k) → ai = bufRead (scalarsOf s a) (2 * k + 1) →
        br = bufRead (scalarsOf s b) (2 * k) → bi = bufRead (scalarsOf s b) (2 * k + 1) →
        bufRead (scalarsOf t d) (2 * k) = nu.fsub (nu.fmul ar br) (nu.fmul ai bi) ∧
        bufRead (scalarsOf t d) (2 * k + 1) = nu.fadd (nu.fmul ar bi) (nu.fmul ai br)

/-- R248, R249, R17: in `IDLE`, `PEAK d` sets `INDEX` to an even scalar index below `RESPONSE_LEN`: 0
when no scanned real part exceeds `fzero`, else the first index whose real part no scanned one exceeds;
every earlier real part is smaller or a NaN. Nothing else changes. -/
def Obligations.PeakPicksTheFirstStrictMaximum : Prop :=
  ∀ (s : State) (nu : Num Scalar) (d : BufId), nu = s.cfg.ops → cstate s = .idle →
    d.isSpectrum = true →
    ∃ t, exec (.peak d) s = .next t ∧ t = { s with index := t.index } ∧
      t.index.toNat % 2 = 0 ∧ t.index.toNat < s.cfg.responseLen ∧
      ∀ re : Nat → Scalar, (∀ i, re i = bufRead (scalarsOf s d) i) →
        ((∀ i < s.cfg.responseLen, i % 2 = 0 → nu.fgt (re i) nu.fzero = false) → t.index = 0) ∧
        ((∃ i < s.cfg.responseLen, i % 2 = 0 ∧ nu.fgt (re i) nu.fzero = true) →
          nu.fgt (re t.index.toNat) nu.fzero = true ∧
          (∀ i < s.cfg.responseLen, i % 2 = 0 → nu.fgt (re i) (re t.index.toNat) = false) ∧
          (∀ i < t.index.toNat, i % 2 = 0 →
            nu.fgt (re t.index.toNat) (re i) = true ∨ nu.integerPart (re i) = .nan))

/-- R250: in `IDLE`, `CORRF` ends in the state that the primitives give one after the other: `PADP`,
`PADE`, then `TWGEN` and `BITREV TW` and setting `TW_VALID` only while it is 0, then `FFT SSP`,
`FFT RSP`, `CMUL XSP, SSP, RSP`, `IFFT XSP`, `PEAK XSP`. -/
def Obligations.CorrfIsThePrimitiveSequence : Prop :=
  ∀ s : State, cstate s = .idle →
    ∃ s1 s2 s3 s4 s5 s6 s7 s8 : State,
      exec .padp s = .next s1 ∧ exec .pade s1 = .next s2 ∧
      (s.twValid = false → ∃ u v, exec .twgen s2 = .next u ∧ exec (.bitrev .tw) u = .next v ∧
        s3 = { v with twValid := true }) ∧
      (s.twValid = true → s3 = s2) ∧
      exec (.fft .ssp) s3 = .next s4 ∧ exec (.fft .rsp) s4 = .next s5 ∧
      exec (.cmul .xsp .ssp .rsp) s5 = .next s6 ∧ exec (.ifft .xsp) s6 = .next s7 ∧
      exec (.peak .xsp) s7 = .next s8 ∧ exec .corrf s = .next s8

/-! ### The controller -/

/-- R143: once started, a notification on one channel sets its flag and disables the channel; when
both flags are then set they are cleared and the job is posted; no buffer is touched. Before `START`
it changes nothing. The environment has then delivered the notification it owed (R37, R154 E1). -/
def Obligations.NotificationRunsTheHandler : Prop :=
  ∀ (s : State) (rest : List Input),
    (s.started = true → s.inputs = ⟨true, false, .nothing⟩ :: rest →
      step s = .next { s with
        inputs := rest
        rxDone := !s.txDone
        txDone := false
        enRx := false
        jobPending := s.jobPending || s.txDone
        rxDma := { s.rxDma with owed := false } }) ∧
    (s.started = true → s.inputs = ⟨false, true, .nothing⟩ :: rest →
      step s = .next { s with
        inputs := rest
        txDone := !s.rxDone
        rxDone := false
        enTx := false
        jobPending := s.jobPending || s.rxDone
        txDma := { s.txDma with owed := false } }) ∧
    (s.started = false →
      s.inputs = ⟨true, false, .nothing⟩ :: rest ∨ s.inputs = ⟨false, true, .nothing⟩ :: rest →
      step s = .next { s with inputs := rest })

/-- R144, R289: from a started state with both flags clear, RX then TX, TX then RX, and both at once
end in the same state: both flags clear, both channels disabled, the job posted once. -/
def Obligations.NotificationOrderIsUnobservable : Prop :=
  ∀ (s t : State) (rest : List Input), s.started = true → s.rxDone = false → s.txDone = false →
    t = { s with
      inputs := rest
      enRx := false
      enTx := false
      jobPending := true
      rxDma := { s.rxDma with owed := false }
      txDma := { s.txDma with owed := false } } →
    Host.Core.run Sys2Proof.core 2
        { s with inputs := ⟨true, false, .nothing⟩ :: ⟨false, true, .nothing⟩ :: rest } = .next t ∧
    Host.Core.run Sys2Proof.core 2
        { s with inputs := ⟨false, true, .nothing⟩ :: ⟨true, false, .nothing⟩ :: rest } = .next t ∧
    step { s with inputs := ⟨true, true, .nothing⟩ :: rest } = .next t

/-- R144: a duplicate notification for a channel that has already signalled is a no-op. -/
def Obligations.DuplicateNotificationIsHarmless : Prop :=
  ∀ (s : State) (rest : List Input), s.started = true →
    (s.rxDone = true → s.txDone = false → s.enRx = false → s.rxDma.owed = false →
      s.inputs = ⟨true, false, .nothing⟩ :: rest → step s = .next { s with inputs := rest }) ∧
    (s.txDone = true → s.rxDone = false → s.enTx = false → s.txDma.owed = false →
      s.inputs = ⟨false, true, .nothing⟩ :: rest → step s = .next { s with inputs := rest })

/-- R157: before `START` every notification, alone or together, changes no state. -/
def Obligations.NotificationBeforeStartIsIgnored : Prop :=
  ∀ (s : State) (rx tx : Bool) (rest : List Input), s.started = false →
    s.inputs = ⟨rx, tx, .nothing⟩ :: rest → step s = .next { s with inputs := rest }

/-- R145: a posted job that is not running is dispatched when the scheduler picks it. That it is
picked when no input is left is the model's choice (log 9). -/
def Obligations.DispatchStartsThePostedJob : Prop :=
  ∀ (s : State) (rest : List Input), s.jobPending = true → s.jstep = .stopped →
    (s.inputs = ⟨false, false, .job⟩ :: rest →
      step s = .next { s with inputs := rest, jobPending := false, jstep := .downmix }) ∧
    (s.inputs = [] → step s = .next { s with jobPending := false, jstep := .downmix })

/-- R146, R149, R156: when the scheduler lets the running job move, or no input is left (log 9), the
step, after the notifications that come with it, performs the micro-step `JSTEP` names: the downmix,
the correlator of the build, the conversion, or the next action of the re-arm, the last of which adds
one to `JOBS` and ends the job. Each operation is the one the command of that name performs in `IDLE`.
A notification on RX and the action that enables TX commute. The whole job, uninterrupted, ends with
what R146 and R149 list. When the job moves and where it is cut into steps is the model's choice (log
9, 11). -/
def Obligations.JobRunsItsMicroStepsInOrder : Prop :=
  (∀ s u : State, (s.inputs = [] ∧ u = s) ∨ (∃ rx tx rest, s.inputs = ⟨rx, tx, .job⟩ :: rest ∧
      u = deliver ⟨rx, tx, .job⟩ { s with inputs := rest }) →
    (u.jstep = .downmix → step s = .next { opDownmix u with jstep := .correlate }) ∧
    (u.jstep = .correlate → u.cfg.strategy = .time →
      step s = .next { opCorrt u with jstep := .convert }) ∧
    (u.jstep = .correlate → u.cfg.strategy = .freq →
      step s = .next { opCorrf u.cfg.ops u with jstep := .convert }) ∧
    (u.jstep = .convert →
      step s = .next { opTodist u.cfg.ops u with jstep := .rearm .clearFlags }) ∧
    (u.jstep = .rearm .clearFlags →
      step s = .next { u with rxDone := false, txDone := false, jstep := .rearm .cfgRx }) ∧
    (u.jstep = .rearm .cfgRx → step s = .next { u with
      rxDma := ⟨some ⟨.rx, .audioRxPort, .refCapture, u.cfg.responseLen⟩, u.rxDma.owed⟩
      cfgLog := u.cfgLog ++ [⟨.rx, .audioRxPort, .refCapture, u.cfg.responseLen⟩]
      jstep := .rearm .cfgTx }) ∧
    (u.jstep = .rearm .cfgTx → step s = .next { u with
      txDma := ⟨some ⟨.tx, .refProbe, .audioTxPort, u.cfg.sweepLen⟩, u.txDma.owed⟩
      cfgLog := u.cfgLog ++ [⟨.tx, .refProbe, .audioTxPort, u.cfg.sweepLen⟩]
      jstep := .rearm .enableRx }) ∧
    (u.jstep = .rearm .enableRx → step s = .next { u with
      enRx := true
      rxDma := ⟨u.rxDma.desc, u.rxDma.owed || !u.enRx⟩
      jstep := .rearm .enableTx }) ∧
    (u.jstep = .rearm .enableTx → step s = .next { u with
      enTx := true
      txDma := ⟨u.txDma.desc, u.txDma.owed || !u.enTx⟩
      jobs := u.jobs + 1
      jstep := .stopped })) ∧
  (∀ (s t : State) (rest : List Input), s.started = true → s.jstep = .rearm .enableTx →
    t = { s with
      inputs := rest
      rxDone := !s.txDone
      txDone := false
      enRx := false
      jobPending := s.jobPending || s.txDone
      rxDma := ⟨s.rxDma.desc, false⟩
      enTx := true
      txDma := ⟨s.txDma.desc, s.txDma.owed || !s.enTx⟩
      jobs := s.jobs + 1
      jstep := .stopped } →
    Host.Core.run Sys2Proof.core 2
        { s with inputs := ⟨true, false, .nothing⟩ :: ⟨false, false, .job⟩ :: rest } = .next t ∧
    Host.Core.run Sys2Proof.core 2
        { s with inputs := ⟨false, false, .job⟩ :: ⟨true, false, .nothing⟩ :: rest } = .next t) ∧
  (∀ s : State, s.jstep = .downmix → s.inputs = [] →
    ∃ u, u = opTodist s.cfg.ops
        (if s.cfg.strategy = .time then opCorrt (opDownmix s)
          else opCorrf s.cfg.ops (opDownmix s)) ∧
      Host.Core.run Sys2Proof.core 3 s = .next { u with jstep := .rearm .clearFlags } ∧
      Host.Core.run Sys2Proof.core 8 s = .next { u with
        rxDone := false
        txDone := false
        rxDma := {
          desc := some ⟨.rx, .audioRxPort, .refCapture, s.cfg.responseLen⟩
          owed := s.rxDma.owed || !s.enRx }
        txDma := {
          desc := some ⟨.tx, .refProbe, .audioTxPort, s.cfg.sweepLen⟩
          owed := s.txDma.owed || !s.enTx }
        cfgLog := s.cfgLog ++ [⟨.rx, .audioRxPort, .refCapture, s.cfg.responseLen⟩,
          ⟨.tx, .refProbe, .audioTxPort, s.cfg.sweepLen⟩]
        enRx := true
        enTx := true
        jobs := s.jobs + 1
        jstep := .stopped }) ∧
  (∀ s : State, cstate s = .idle →
    exec .downmix s = .next (opDownmix s) ∧ exec .corrt s = .next (opCorrt s) ∧
    exec .corrf s = .next (opCorrf s.cfg.ops s) ∧ exec .todist s = .next (opTodist s.cfg.ops s))

/-- R146, R147, R159 item 6: from `ARMED`, one pair of notifications, in either order, and the job that
follows complete exactly one cycle: `ARMED` again, `JOBS` one greater, `MONO` the left channel of
what was captured, `INDEX` what the correlator of the build finds in it (with FREQ the spectra and the
table too are those `CORRF` leaves), `RESULT` the distance of `INDEX`, valid. That the job moves when no
input is left, and the number of steps, are the model's choice (log 9, 11). -/
def Obligations.OneCyclePerPairOfNotifications : Prop :=
  ∀ (s : State) (nu : Num Scalar) (first second : Input), nu = s.cfg.ops → ControllerInv s →
    cstate s = .armed →
    (first = ⟨true, false, .nothing⟩ ∧ second = ⟨false, true, .nothing⟩ ∨
      first = ⟨false, true, .nothing⟩ ∧ second = ⟨true, false, .nothing⟩) →
    s.inputs = [first, second] →
    ∃ t, Host.Core.run Sys2Proof.core 11 s = .next t ∧ cstate t = .armed ∧ t.inputs = [] ∧
      t.jobs = s.jobs + 1 ∧ t.resultValid = true ∧
      (∀ i < s.cfg.responseMono, bufRead t.mono i = bufRead s.capture (2 * i)) ∧
      (s.cfg.strategy = .time → t.index = (opCorrt (opDownmix s)).index ∧
        t.index = BitVec.ofNat 32 (bestLag s.cfg s.probe t.mono) ∧
        t.ssp = s.ssp ∧ t.rsp = s.rsp ∧ t.xsp = s.xsp ∧ t.tw = s.tw ∧ t.twValid = s.twValid) ∧
      (s.cfg.strategy = .freq → ∀ u, u = opCorrf nu (opDownmix s) →
        t.index = u.index ∧
        t.index = BitVec.ofNat 32 (peakIndex nu s.cfg.responseMono
          (bufToList s.cfg.fftLen t.xsp)) ∧
        t.ssp = u.ssp ∧ t.rsp = u.rsp ∧ t.xsp = u.xsp ∧ t.tw = u.tw ∧ t.twValid = u.twValid) ∧
      t.result = nu.bits (nu.fdiv (nu.fmul (nu.i2f t.index.toNat) s.cfg.speed)
        (nu.fmul (nu.fconst .two) s.cfg.rate)) ∧
      t.probe = s.probe ∧ t.capture = s.capture ∧ t.cmdErr = s.cmdErr ∧
      t.cfgLog.length = s.cfgLog.length + 2

/-- The invariant behind R159 holds right after reset, under every configuration. -/
def Obligations.ControllerInvAtReset : Prop :=
  ∀ c : Config, ControllerInv (State.resetWith c)

/-- The invariant behind R159: every step from a state that satisfies it, under premise E1 of R154,
gives a state that satisfies it. -/
def Obligations.ControllerInvIsKept : Prop :=
  ∀ s t : State, ControllerInv s → EnvContract s → step s = .next t → ControllerInv t

/-- R159 items 1 to 5, and R147: what the invariant says in each controller state. -/
def Obligations.ControllerInvGivesTheStateTable : Prop :=
  ∀ s : State, ControllerInv s →
    (cstate s = .armed → s.enRx = true ∧ s.enTx = true ∧ s.rxDone = false ∧ s.txDone = false ∧
      s.jobPending = false ∧ s.jstep = .stopped) ∧
    (cstate s = .partialDone →
      ((s.rxDone = true ∧ s.enRx = false ∧ s.enTx = true) ∨
        (s.txDone = true ∧ s.enTx = false ∧ s.enRx = true)) ∧
      s.jobPending = false ∧ s.jstep = .stopped) ∧
    (cstate s = .ready → s.enRx = false ∧ s.enTx = false ∧ s.rxDone = false ∧ s.txDone = false ∧
      s.jobPending = true ∧ s.jstep = .stopped) ∧
    (s.jstep.computing = true → s.enRx = false ∧ s.enTx = false ∧ s.rxDone = false ∧
      s.txDone = false ∧ s.jobPending = false) ∧
    ¬ (s.rxDone = true ∧ s.txDone = true) ∧
    ¬ (s.jobPending = true ∧ s.jstep ≠ .stopped)

/-- R71 item 2, R159 item 7, R330: under the invariant, while the job computes, an element access of
either DMA channel is outside the contract, whatever comes with it under E1. That the model then
stops is its choice (log 14). -/
def Obligations.NoDmaAccessWhileTheJobComputes : Prop :=
  ∀ (s : State) (i : Input) (rest : List Input), ControllerInv s → EnvContract s →
    s.jstep.computing = true → s.inputs = i :: rest →
    (∀ k v, i.action = .rxWrite k v → step s = .fault (.dmaNotOwner .rx)) ∧
    (∀ k, i.action = .txRead k → step s = .fault (.dmaNotOwner .tx))

/-- R148: `ARMED` and `PARTIAL` are left by a notification or by RESET only. -/
def Obligations.WaitingIsLeftOnlyByNotification : Prop :=
  ∀ s t : State, cstate s = .armed ∨ cstate s = .partialDone → step s = .next t →
    (∀ i rest, s.inputs = i :: rest →
      i.notifyRx = false ∧ i.notifyTx = false ∧ i.action ≠ .reset) →
    cstate t = cstate s

/-- R23: `JSTEP` goes 0, 1, 2, 3, 4, 0 and never otherwise, staying where it is in between; R34:
`JOBS` grows by one exactly when `JSTEP` goes from 4 to 0, and by nothing else. RESET apart. -/
def Obligations.JobStepsAdvanceAndAreCounted : Prop :=
  ∀ s t : State, step s = .next t →
    (∀ i rest, s.inputs = i :: rest → i.action ≠ .reset) →
    (t.jstep.code = s.jstep.code ∧ t.jobs = s.jobs) ∨
    (s.jstep.code ≠ 4 ∧ t.jstep.code = s.jstep.code + 1 ∧ t.jobs = s.jobs) ∨
    (s.jstep.code = 4 ∧ t.jstep.code = 0 ∧ t.jobs = s.jobs + 1)

/-! ### Whole-machine rules -/

/-- R25 (the "cleared by: never (reset only)" rows), R285: once set, `STARTED`, `RESULT_VALID` and
`CMD_ERR` stay set but for RESET. -/
def Obligations.StickyBitsStaySet : Prop :=
  ∀ s t : State, step s = .next t →
    (∀ i rest, s.inputs = i :: rest → i.action ≠ .reset) →
    (s.started = true → t.started = true) ∧ (s.resultValid = true → t.resultValid = true) ∧
    (s.cmdErr = true → t.cmdErr = true)

/-- R123, R335: after `START` nothing but RESET changes `PROBE`. -/
def Obligations.ProbeIsReadOnlyAfterStart : Prop :=
  ∀ s t : State, s.started = true → step s = .next t →
    (∀ i rest, s.inputs = i :: rest → i.action ≠ .reset) → t.probe = s.probe

/-- The canonical form of the buffers (the model's choice, log 18) holds right after reset, under every
configuration. -/
def Obligations.MemoryFormAtReset : Prop :=
  ∀ c : Config, Memory.wf (State.resetWith c) = true

/-- The canonical form of the buffers (the model's choice, log 18), with no element beyond a buffer's length (R26, R60), is kept by
every step. -/
def Obligations.MemoryFormIsKept : Prop :=
  ∀ s t : State, Memory.wf s = true → step s = .next t → Memory.wf t = true

/-- R28, R180 ("Odd-indexed elements of CAPTURE are not read at all"): whatever a command does, it
does the same when every odd-indexed element of `CAPTURE` is replaced. -/
def Obligations.OddCaptureElementsAreNeverRead : Prop :=
  ∀ (i : Instr) (s t : State) (c : Buf Sample),
    (∀ k, bufRead c (2 * k) = bufRead s.capture (2 * k)) → exec i s = .next t →
    exec i { s with capture := c } = .next { t with capture := c }

/-! ### The host's registers and the DMA's accesses -/

/-- R25, R31 to R35, R67, R289: an aligned 32-bit read of a register other than `BUF_DATA` returns the
register's value after the notifications that come with it, `CMD` and the reserved offsets 0, and
changes nothing else of the core. Where the value is kept is the model's choice (log 12), so is that a
read of `RESULT` returns the register while `RESULT_VALID` is 0 too (log 17); that every aligned
offset from `0x1C` up is reserved is DEDUCED (log 19). -/
def Obligations.HostReadsReturnTheRegisters : Prop :=
  ∀ (s u : State) (rx tx : Bool) (offset : Nat) (rest : List Input),
    s.inputs = ⟨rx, tx, .access (.read offset 4)⟩ :: rest →
    u = deliver ⟨rx, tx, .access (.read offset 4)⟩ { s with inputs := rest } →
    offset % 4 = 0 → offset ≠ 0x14 →
    step s = .next { u with
      readData :=
        if offset = 0x04 then statusWord u
        else if offset = 0x08 then u.result
        else if offset = 0x0C then u.index
        else if offset = 0x10 then u.bufAddr
        else if offset = 0x18 then u.jobs
        else 0 }

/-- R25, R32, R35, R289: an aligned 32-bit write of `INDEX` takes effect in `IDLE` and else only sets
`CMD_ERR`; of `BUF_ADDR` always takes effect; of `STATUS`, `RESULT`, `JOBS` and the reserved offsets
(log 19) is ignored. The notifications that come with it are handled first. -/
def Obligations.HostWritesOfRegisters : Prop :=
  ∀ (s u : State) (rx tx : Bool) (offset : Nat) (v : Word) (rest : List Input),
    s.inputs = ⟨rx, tx, .access (.write offset 4 v)⟩ :: rest →
    u = deliver ⟨rx, tx, .access (.write offset 4 v)⟩ { s with inputs := rest } →
    offset % 4 = 0 →
    (offset = 0x0C → cstate u = .idle → step s = .next { u with index := v }) ∧
    (offset = 0x0C → cstate u ≠ .idle → step s = .next { u with cmdErr := true }) ∧
    (offset = 0x10 → step s = .next { u with bufAddr := v }) ∧
    (offset = 0x04 ∨ offset = 0x08 ∨ 0x18 ≤ offset → step s = .next u)

/-- R36, R285 item 4, R289: `BUF_DATA` in `IDLE` with a defined buffer id and an index below the length
reads that element, a sample sign-extended and a scalar as its `bits`, and writes it, a sample taking
bits 15:0 and a scalar `unbits`, a write to `TW` clearing `TW_VALID`; otherwise a read returns 0, a
write is ignored, and `CMD_ERR` is set. The notifications that come with the access are handled
first. -/
def Obligations.WindowReadsAndWritesOneElement : Prop :=
  ∀ (s u : State) (rx tx : Bool) (a : HostAccess) (rest : List Input), Memory.wf s = true →
    s.inputs = ⟨rx, tx, .access a⟩ :: rest →
    u = deliver ⟨rx, tx, .access a⟩ { s with inputs := rest } →
    (∀ b i, cstate u = .idle → BufId.ofNibble (u.bufAddr.extractLsb' 28 4) = some b →
      i = (u.bufAddr.extractLsb' 0 28).toNat → i < bufLen u.cfg b →
      (a = .read 0x14 4 →
        step s = .next { u with
          readData := if b = .probe ∨ b = .capture ∨ b = .mono
            then (bufRead (samplesOf u b) i).signExtend 32
            else u.cfg.ops.bits (bufRead (scalarsOf u b) i) }) ∧
      (∀ v, a = .write 0x14 4 v →
        ∃ t, step s = .next t ∧
          t = { u with
            probe := t.probe
            capture := t.capture
            mono := t.mono
            ssp := t.ssp
            rsp := t.rsp
            xsp := t.xsp
            tw := t.tw
            twValid := if b = .tw then false else u.twValid } ∧
          (if b = .probe ∨ b = .capture ∨ b = .mono
            then bufRead (samplesOf t b) i = v.extractLsb' 0 16
            else bufRead (scalarsOf t b) i = u.cfg.ops.unbits v) ∧
          (∀ b' i', (b', i') ≠ (b, i) →
            bufRead (samplesOf t b') i' = bufRead (samplesOf u b') i' ∧
            bufRead (scalarsOf t b') i' = bufRead (scalarsOf u b') i'))) ∧
    ((cstate u ≠ .idle ∨ BufId.ofNibble (u.bufAddr.extractLsb' 28 4) = none ∨
        (∃ b, BufId.ofNibble (u.bufAddr.extractLsb' 28 4) = some b ∧
          bufLen u.cfg b ≤ (u.bufAddr.extractLsb' 0 28).toNat)) →
      (a = .read 0x14 4 → step s = .next { u with readData := 0, cmdErr := true }) ∧
      (∀ v, a = .write 0x14 4 v → step s = .next { u with cmdErr := true }))

/-- R154 E2, E3: while its channel is enabled and the job does not compute, the RX channel's write of
element `k` below `RESPONSE_LEN` changes that element of `CAPTURE` and nothing else, and the TX
channel's read of element `k` below `SWEEP_LEN` takes `PROBE[k]` and changes nothing in the core.
That an enabled channel may access its buffer while `JSTEP` is 4 is the model's deduction (log 14):
read literally, R71 shuts the DMA out while the job runs. Where the sample taken is kept is the model's
choice (log 15). -/
def Obligations.DmaTouchesOnlyItsBuffer : Prop :=
  ∀ (s : State) (k : Nat) (rest : List Input), Memory.wf s = true → s.jstep.computing = false →
    (∀ v, s.inputs = ⟨false, false, .rxWrite k v⟩ :: rest → s.enRx = true →
      k < s.cfg.responseLen →
      ∃ t, step s = .next t ∧ t = { s with inputs := rest, capture := t.capture } ∧
        bufRead t.capture k = v ∧ ∀ j, j ≠ k → bufRead t.capture j = bufRead s.capture j) ∧
    (s.inputs = ⟨false, false, .txRead k⟩ :: rest → s.enTx = true → k < s.cfg.sweepLen →
      step s = .next { s with inputs := rest, txData := bufRead s.probe k })

/-- R25 bit 8, R37, R202: while `TW_VALID` is 1, `TW` holds the table `TWGEN` computes, bit-reversed. It
holds after reset, under every configuration, and every step keeps it. A step that takes
the bit from 0 to 1, from whatever state, is `CORRF`, written to `CMD` by the host or run as
micro-step 2 of a FREQ build. -/
def Obligations.TwValidMeansTheGeneratedTable : Prop :=
  (∀ c : Config, TableInv (State.resetWith c)) ∧
  (∀ s t : State, TableInv s → step s = .next t → TableInv t) ∧
  ∀ s t : State, step s = .next t → s.twValid = false → t.twValid = true →
    (∃ i rest w, s.inputs = i :: rest ∧ i.action = .access (.write 0x00 4 w) ∧
      decode w = .ok .corrf) ∨
    (s.cfg.strategy = .freq ∧ s.jstep = .correlate ∧
      (s.inputs = [] ∨ ∃ i rest, s.inputs = i :: rest ∧ i.action = .job))
end

