-- ==== Sys2Proof/Laws/Arith.lean ====
section
/-!
SUPPORT. The laws of the bit reversal (R203): it stays below `2^k` and undoes itself.
-/

namespace Sys2Proof.Machine

open Sys2Proof

theorem reverseBits_lt (k i : Nat) : reverseBits k i < 2 ^ k := by
  induction k generalizing i with
  | zero => simp [reverseBits]
  | succ k ih =>
    have h := ih (i / 2)
    have h2 : i % 2 * 2 ^ k ≤ 1 * 2 ^ k := Nat.mul_le_mul_right _ (by omega)
    rw [reverseBits, pow_succ]
    omega

/-- The same reversal, taking the digits from the top. -/
theorem reverseBits_top (k i : Nat) (h : i < 2 ^ (k + 1)) :
    reverseBits (k + 1) i = 2 * reverseBits k (i % 2 ^ k) + i / 2 ^ k := by
  induction k generalizing i with
  | zero => simp [reverseBits]; omega
  | succ k ih =>
    have hp : (2 : Nat) ^ (k + 1) = 2 * 2 ^ k := by rw [pow_succ]; ring
    have h2 : i / 2 < 2 ^ (k + 1) := by rw [pow_succ] at h; omega
    have hm : i % 2 ^ (k + 1) / 2 = i / 2 % 2 ^ k := by
      rw [hp, Nat.mod_mul_right_div_self]
    have hd : i / 2 / 2 ^ k = i / 2 ^ (k + 1) := by rw [hp, Nat.div_div_eq_div_mul]
    have hb : i % 2 ^ (k + 1) % 2 = i % 2 := by
      rw [hp]; exact Nat.mod_mul_right_mod i 2 (2 ^ k)
    rw [reverseBits, ih _ h2, reverseBits, hm, hd, hb, hp]
    ring

/-- R205: the reversal undoes itself. -/
theorem reverseBits_reverseBits (k i : Nat) (h : i < 2 ^ k) :
    reverseBits k (reverseBits k i) = i := by
  induction k generalizing i with
  | zero => simp [reverseBits]; omega
  | succ k ih =>
    have hlt := reverseBits_lt k (i / 2)
    rw [reverseBits_top k _ (reverseBits_lt _ _), reverseBits, Nat.mul_comm (i % 2),
      Nat.mul_add_mod, Nat.mod_eq_of_lt hlt, Nat.mul_add_div (by positivity),
      Nat.div_eq_of_lt hlt, ih _ (by rw [pow_succ] at h; omega)]
    omega

end Sys2Proof.Machine
end

