-- ==== Sys2Proof/Laws/Buffer.lean ====
section
/-!
SUPPORT. The laws of one buffer: what a read gives after a write, and that every buffer operation
keeps the canonical form, in which two buffers with the same elements are the same list.
-/

namespace Sys2Proof.Machine

open Sys2Proof

variable {α : Type} [OfNat α 0] [DecidableEq α]

/-! ### The canonical form -/

theorem bufWfFrom_cons {n lo j : Nat} {v : α} {b : Buf α} :
    bufWfFrom n lo ((j, v) :: b) = true ↔
      lo ≤ j ∧ j < n ∧ v ≠ 0 ∧ bufWfFrom n (j + 1) b = true := by
  simp [bufWfFrom, and_assoc]

theorem bufWfFrom_mono {n n' lo lo' : Nat} (hn : n ≤ n') (hlo : lo' ≤ lo) {b : Buf α}
    (h : bufWfFrom n lo b = true) : bufWfFrom n' lo' b = true := by
  induction b generalizing lo lo' with
  | nil => rfl
  | cons p b ih =>
    obtain ⟨j, v⟩ := p
    rw [bufWfFrom_cons] at h ⊢
    exact ⟨by omega, by omega, h.2.2.1, ih le_rfl h.2.2.2⟩

/-- A canonical buffer reads zero below its first index and at or beyond its length. -/
theorem bufRead_eq_zero_of_wf {n lo i : Nat} {b : Buf α} (h : bufWfFrom n lo b = true)
    (hi : i < lo ∨ n ≤ i) : bufRead b i = 0 := by
  induction b generalizing lo with
  | nil => rfl
  | cons p b ih =>
    obtain ⟨j, v⟩ := p
    rw [bufWfFrom_cons] at h
    have hne : j ≠ i := by omega
    rw [bufRead, if_neg hne]
    exact ih h.2.2.2 (by omega)

omit [DecidableEq α] in
@[simp] theorem bufRead_nil (i : Nat) : bufRead ([] : Buf α) i = 0 := rfl

/-- Equal elements make equal buffers: the canonical form is unique. -/
theorem buf_ext {n lo : Nat} {a b : Buf α} (ha : bufWfFrom n lo a = true)
    (hb : bufWfFrom n lo b = true) (h : ∀ i, bufRead a i = bufRead b i) : a = b := by
  induction a generalizing b lo with
  | nil =>
    cases b with
    | nil => rfl
    | cons q b =>
      obtain ⟨k, u⟩ := q
      rw [bufWfFrom_cons] at hb
      exact absurd ((h k).symm.trans rfl) (by simpa [bufRead] using hb.2.2.1)
  | cons p a ih =>
    obtain ⟨j, v⟩ := p
    rw [bufWfFrom_cons] at ha
    cases b with
    | nil => exact absurd (h j) (by simpa [bufRead] using ha.2.2.1)
    | cons q b =>
      obtain ⟨k, u⟩ := q
      rw [bufWfFrom_cons] at hb
      have hjk : j = k := by
        by_contra hne
        rcases Nat.lt_or_gt_of_ne hne with hlt | hlt
        · have := h j
          rw [bufRead, if_pos rfl, bufRead, if_neg (by omega),
            bufRead_eq_zero_of_wf hb.2.2.2 (Or.inl (by omega))] at this
          exact ha.2.2.1 this
        · have := h k
          rw [bufRead, if_neg (by omega), bufRead_eq_zero_of_wf ha.2.2.2 (Or.inl (by omega)),
            bufRead, if_pos rfl] at this
          exact hb.2.2.1 this.symm
      subst hjk
      have hvu : v = u := by simpa [bufRead] using h j
      subst hvu
      congr 1
      refine ih ha.2.2.2 hb.2.2.2 fun i => ?_
      by_cases hij : j = i
      · subst hij
        rw [bufRead_eq_zero_of_wf ha.2.2.2 (Or.inl (by omega)),
          bufRead_eq_zero_of_wf hb.2.2.2 (Or.inl (by omega))]
      · simpa [bufRead, hij] using h i

/-! ### Writing one element -/

/-- A write leaves every other element alone. -/
theorem bufRead_bufWrite_of_ne (b : Buf α) {i k : Nat} (v : α) (h : k ≠ i) :
    bufRead (bufWrite b i v) k = bufRead b k := by
  induction b with
  | nil =>
    unfold bufWrite
    split <;> simp [bufRead, h.symm]
  | cons p b ih =>
    obtain ⟨j, u⟩ := p
    unfold bufWrite
    split
    · simp [bufRead, ih]
    · split
      · next hji => subst hji; split <;> simp [bufRead, h.symm]
      · split <;> simp [bufRead, h.symm]

/-- A read after a write to the same element gives what was written. -/
theorem bufRead_bufWrite_same {n lo : Nat} {b : Buf α} (hb : bufWfFrom n lo b = true) (i : Nat)
    (v : α) : bufRead (bufWrite b i v) i = v := by
  induction b generalizing lo with
  | nil =>
    unfold bufWrite
    split
    · next h => simp [h]
    · simp [bufRead]
  | cons p b ih =>
    obtain ⟨j, u⟩ := p
    rw [bufWfFrom_cons] at hb
    unfold bufWrite
    split
    · next h => rw [bufRead, if_neg (by omega)]; exact ih hb.2.2.2
    · next h =>
      split
      · next h2 =>
        split
        · next h3 => rw [h3]; exact bufRead_eq_zero_of_wf hb.2.2.2 (Or.inl (by omega))
        · simp [bufRead]
      · next h2 =>
        split
        · next h3 =>
          rw [bufRead, if_neg h2, h3]
          exact bufRead_eq_zero_of_wf hb.2.2.2 (Or.inl (by omega))
        · simp [bufRead]

/-- A write inside the buffer keeps the canonical form. -/
theorem bufWfFrom_bufWrite {n lo i : Nat} {b : Buf α} (hb : bufWfFrom n lo b = true) (hlo : lo ≤ i)
    (hi : i < n) (v : α) : bufWfFrom n lo (bufWrite b i v) = true := by
  induction b generalizing lo with
  | nil =>
    unfold bufWrite
    split
    · rfl
    · next h => exact bufWfFrom_cons.2 ⟨hlo, hi, h, rfl⟩
  | cons p b ih =>
    obtain ⟨j, u⟩ := p
    have hb' := hb
    rw [bufWfFrom_cons] at hb
    unfold bufWrite
    split
    · next h => exact bufWfFrom_cons.2 ⟨hb.1, hb.2.1, hb.2.2.1, ih hb.2.2.2 (by omega)⟩
    · next h =>
      split
      · next h2 =>
        subst h2
        split
        · exact bufWfFrom_mono le_rfl (by omega) hb.2.2.2
        · next h3 => exact bufWfFrom_cons.2 ⟨hlo, hi, h3, hb.2.2.2⟩
      · next h2 =>
        split
        · exact hb'
        · next h3 =>
          exact bufWfFrom_cons.2 ⟨hlo, hi, h3, bufWfFrom_cons.2 ⟨by omega, hb.2.1, hb.2.2.1, hb.2.2.2⟩⟩

theorem bufWf_bufWrite {n i : Nat} {b : Buf α} (hb : bufWf n b = true) (hi : i < n) (v : α) :
    bufWf n (bufWrite b i v) = true :=
  bufWfFrom_bufWrite hb (Nat.zero_le i) hi v

/-! ### Writing a whole buffer -/

theorem bufWfFrom_bufFrom (l : List (α)) {n i : Nat} (h : i + l.length ≤ n) :
    bufWfFrom n i (bufFrom i l) = true := by
  induction l generalizing i with
  | nil => rfl
  | cons v l ih =>
    simp only [List.length_cons] at h
    unfold bufFrom
    split
    · exact bufWfFrom_mono le_rfl (Nat.le_succ i) (ih (by omega))
    · next hv => exact bufWfFrom_cons.2 ⟨le_rfl, by omega, hv, ih (by omega)⟩

theorem bufWf_bufOfList {n : Nat} {l : List (α)} (h : l.length ≤ n) :
    bufWf n (bufOfList l) = true :=
  bufWfFrom_bufFrom l (by omega)

theorem bufRead_bufFrom (l : List (α)) (i k : Nat) :
    bufRead (bufFrom i l) (i + k) = l.getD k 0 := by
  induction l generalizing i k with
  | nil => simp [bufFrom]
  | cons v l ih =>
    unfold bufFrom
    cases k with
    | zero =>
      split
      · next h =>
        have hwf : bufWfFrom (i + 1 + l.length) (i + 1) (bufFrom (i + 1) l) = true :=
          bufWfFrom_bufFrom l le_rfl
        simpa [h] using bufRead_eq_zero_of_wf hwf (i := i) (Or.inl (by omega))
      · simp [bufRead]
    | succ k =>
      have := ih (i + 1) k
      rw [show i + 1 + k = i + (k + 1) by omega] at this
      split
      · simpa using this
      · simpa [bufRead] using this

/-- A buffer made from a list holds the list's elements, and zero beyond them. -/
@[simp] theorem bufRead_bufOfList (l : List (α)) (i : Nat) :
    bufRead (bufOfList l) i = l.getD i 0 := by
  simpa [bufOfList] using bufRead_bufFrom l 0 i

omit [DecidableEq α] in
@[simp] theorem length_bufToList (n : Nat) (b : Buf α) : (bufToList n b).length = n := by
  simp [bufToList]

omit [DecidableEq α] in
theorem getD_bufToList (n : Nat) (b : Buf α) (i : Nat) :
    (bufToList n b).getD i 0 = if i < n then bufRead b i else 0 := by
  by_cases h : i < n <;> simp [bufToList, List.getD, h]

/-- A canonical buffer is the one made from the list of its elements. -/
theorem bufOfList_bufToList {n : Nat} {b : Buf α} (hb : bufWf n b = true) :
    bufOfList (bufToList n b) = b := by
  refine buf_ext (bufWf_bufOfList (by simp)) hb fun i => ?_
  rw [bufRead_bufOfList, getD_bufToList]
  split
  · rfl
  · exact (bufRead_eq_zero_of_wf hb (Or.inr (by omega))).symm

theorem bufToList_bufOfList {l : List (α)} : bufToList l.length (bufOfList l) = l := by
  refine List.ext_getElem (by simp) fun i h1 h2 => ?_
  simp [bufToList, List.getD, h2]

end Sys2Proof.Machine
end

