-- ==== Sys2Proof/Laws/Config.lean ====
section
/-!
SUPPORT. What a legal configuration gives (R9): the arithmetic facts about the lengths.
-/

namespace Sys2Proof

theorem Config.fftLen_pow (c : Config) : c.fftLen = 2 ^ Nat.log2 c.fftLen := c.legalLengths.1

theorem Config.responseLen_le (c : Config) : c.responseLen ≤ c.fftLen := c.legalLengths.2.1

theorem Config.sweepLen_even (c : Config) : 2 * (c.sweepLen / 2) = c.sweepLen := by
  have := c.legalLengths.2.2.2.1; omega

theorem Config.four_le_sweepLen (c : Config) : 4 ≤ c.sweepLen := c.legalLengths.2.2.2.2.1

theorem Config.sweepLen_le_n (c : Config) : c.sweepLen ≤ c.n := c.legalLengths.2.2.2.2.2.1

theorem Config.one_le_responseMono (c : Config) : 1 ≤ c.responseMono := c.legalLengths.2.2.2.2.2.2.1

theorem Config.responseLen_lt (c : Config) : c.responseLen < 2 ^ 28 := c.legalLengths.2.2.2.2.2.2.2.1

theorem Config.fftLen_lt (c : Config) : c.fftLen < 2 ^ 28 := c.legalLengths.2.2.2.2.2.2.2.2.1

theorem Config.sweepLen_lt (c : Config) : c.sweepLen < 2 ^ 28 := c.legalLengths.2.2.2.2.2.2.2.2.2.1

theorem Config.one_le_accW (c : Config) : 1 ≤ c.accW := c.legalLengths.2.2.2.2.2.2.2.2.2.2

/-- R9: items 5 and 6 force at least four complex samples. -/
theorem Config.four_le_n (c : Config) : 4 ≤ c.n := le_trans c.four_le_sweepLen c.sweepLen_le_n

/-- The transform length is a power of two, `2^(k+1)` with `FFT_LEN = 2^(k+2)`. -/
theorem Config.exists_pow (c : Config) : ∃ k, c.fftLen = 2 ^ (k + 2) ∧ c.n = 2 ^ (k + 1) := by
  have h := c.fftLen_pow
  have h4 := c.four_le_n
  simp only [Params.n] at h4 ⊢
  rcases hk : Nat.log2 c.fftLen with _ | _ | k
  · rw [hk] at h; omega
  · rw [hk] at h; omega
  · rw [hk] at h
    refine ⟨k, h, ?_⟩
    rw [h, pow_succ]; omega

/-- `FFT_LEN = 2·N`. -/
theorem Config.two_mul_n (c : Config) : 2 * c.n = c.fftLen := by
  obtain ⟨k, h1, h2⟩ := c.exists_pow
  rw [h1, h2]; ring

/-- `RESPONSE_MONO ≤ N` (R9 item 3). -/
theorem Config.responseMono_le_n (c : Config) : c.responseMono ≤ c.n := by
  have h := c.responseLen_le
  have h2 := c.two_mul_n
  simp only [Params.responseLen] at h
  omega

/-- The twiddle table's `N/2` complex entries fill its `N` scalars. -/
theorem Config.two_mul_half_n (c : Config) : 2 * (c.n / 2) = c.n := by
  obtain ⟨k, -, h⟩ := c.exists_pow
  rw [h, pow_succ]; omega

/-- The reading of R9 item 3 in `Params.LegalLengths`: for a power of two `m`, being at least every power
of two at or above `r` that is the smallest such is being at least `r`. -/
theorem le_pow_iff_nextPow (k r p : Nat) (hp : r ≤ 2 ^ p) (hmin : ∀ q, r ≤ 2 ^ q → p ≤ q) :
    2 ^ p ≤ 2 ^ k ↔ r ≤ 2 ^ k := by
  refine ⟨fun h => le_trans hp h, fun h => Nat.pow_le_pow_right (by norm_num) (hmin k h)⟩

end Sys2Proof
end

