-- ==== Sys2Proof/Laws/State.lean ====
section
/-!
SUPPORT. The fields of the state after each named update: one lemma for each field, true by `rfl`, so
that no proof unfolds an update.
-/

namespace Sys2Proof.Machine

open Sys2Proof

/-! ### `refuseAccess s` -/

@[simp] theorem refuseAccess_cfg (s : State) :
    (refuseAccess s).cfg = s.cfg := rfl
@[simp] theorem refuseAccess_probe (s : State) :
    (refuseAccess s).probe = s.probe := rfl
@[simp] theorem refuseAccess_capture (s : State) :
    (refuseAccess s).capture = s.capture := rfl
@[simp] theorem refuseAccess_mono (s : State) :
    (refuseAccess s).mono = s.mono := rfl
@[simp] theorem refuseAccess_ssp (s : State) :
    (refuseAccess s).ssp = s.ssp := rfl
@[simp] theorem refuseAccess_rsp (s : State) :
    (refuseAccess s).rsp = s.rsp := rfl
@[simp] theorem refuseAccess_xsp (s : State) :
    (refuseAccess s).xsp = s.xsp := rfl
@[simp] theorem refuseAccess_tw (s : State) :
    (refuseAccess s).tw = s.tw := rfl
@[simp] theorem refuseAccess_rxDone (s : State) :
    (refuseAccess s).rxDone = s.rxDone := rfl
@[simp] theorem refuseAccess_txDone (s : State) :
    (refuseAccess s).txDone = s.txDone := rfl
@[simp] theorem refuseAccess_enRx (s : State) :
    (refuseAccess s).enRx = s.enRx := rfl
@[simp] theorem refuseAccess_enTx (s : State) :
    (refuseAccess s).enTx = s.enTx := rfl
@[simp] theorem refuseAccess_jobPending (s : State) :
    (refuseAccess s).jobPending = s.jobPending := rfl
@[simp] theorem refuseAccess_jstep (s : State) :
    (refuseAccess s).jstep = s.jstep := rfl
@[simp] theorem refuseAccess_started (s : State) :
    (refuseAccess s).started = s.started := rfl
@[simp] theorem refuseAccess_resultValid (s : State) :
    (refuseAccess s).resultValid = s.resultValid := rfl
@[simp] theorem refuseAccess_twValid (s : State) :
    (refuseAccess s).twValid = s.twValid := rfl
@[simp] theorem refuseAccess_cmdErr (s : State) :
    (refuseAccess s).cmdErr = true := rfl
@[simp] theorem refuseAccess_result (s : State) :
    (refuseAccess s).result = s.result := rfl
@[simp] theorem refuseAccess_index (s : State) :
    (refuseAccess s).index = s.index := rfl
@[simp] theorem refuseAccess_bufAddr (s : State) :
    (refuseAccess s).bufAddr = s.bufAddr := rfl
@[simp] theorem refuseAccess_jobs (s : State) :
    (refuseAccess s).jobs = s.jobs := rfl
@[simp] theorem refuseAccess_rxDma (s : State) :
    (refuseAccess s).rxDma = s.rxDma := rfl
@[simp] theorem refuseAccess_txDma (s : State) :
    (refuseAccess s).txDma = s.txDma := rfl
@[simp] theorem refuseAccess_txData (s : State) :
    (refuseAccess s).txData = s.txData := rfl
@[simp] theorem refuseAccess_cfgLog (s : State) :
    (refuseAccess s).cfgLog = s.cfgLog := rfl
@[simp] theorem refuseAccess_readData (s : State) :
    (refuseAccess s).readData = s.readData := rfl
@[simp] theorem refuseAccess_inputs (s : State) :
    (refuseAccess s).inputs = s.inputs := rfl

/-! ### `completeChannel .rx s` -/

@[simp] theorem completeChannel_rx_cfg (s : State) :
    (completeChannel .rx s).cfg = s.cfg := rfl
@[simp] theorem completeChannel_rx_probe (s : State) :
    (completeChannel .rx s).probe = s.probe := rfl
@[simp] theorem completeChannel_rx_capture (s : State) :
    (completeChannel .rx s).capture = s.capture := rfl
@[simp] theorem completeChannel_rx_mono (s : State) :
    (completeChannel .rx s).mono = s.mono := rfl
@[simp] theorem completeChannel_rx_ssp (s : State) :
    (completeChannel .rx s).ssp = s.ssp := rfl
@[simp] theorem completeChannel_rx_rsp (s : State) :
    (completeChannel .rx s).rsp = s.rsp := rfl
@[simp] theorem completeChannel_rx_xsp (s : State) :
    (completeChannel .rx s).xsp = s.xsp := rfl
@[simp] theorem completeChannel_rx_tw (s : State) :
    (completeChannel .rx s).tw = s.tw := rfl
@[simp] theorem completeChannel_rx_rxDone (s : State) :
    (completeChannel .rx s).rxDone = true := rfl
@[simp] theorem completeChannel_rx_txDone (s : State) :
    (completeChannel .rx s).txDone = s.txDone := rfl
@[simp] theorem completeChannel_rx_enRx (s : State) :
    (completeChannel .rx s).enRx = false := rfl
@[simp] theorem completeChannel_rx_enTx (s : State) :
    (completeChannel .rx s).enTx = s.enTx := rfl
@[simp] theorem completeChannel_rx_jobPending (s : State) :
    (completeChannel .rx s).jobPending = s.jobPending := rfl
@[simp] theorem completeChannel_rx_jstep (s : State) :
    (completeChannel .rx s).jstep = s.jstep := rfl
@[simp] theorem completeChannel_rx_started (s : State) :
    (completeChannel .rx s).started = s.started := rfl
@[simp] theorem completeChannel_rx_resultValid (s : State) :
    (completeChannel .rx s).resultValid = s.resultValid := rfl
@[simp] theorem completeChannel_rx_twValid (s : State) :
    (completeChannel .rx s).twValid = s.twValid := rfl
@[simp] theorem completeChannel_rx_cmdErr (s : State) :
    (completeChannel .rx s).cmdErr = s.cmdErr := rfl
@[simp] theorem completeChannel_rx_result (s : State) :
    (completeChannel .rx s).result = s.result := rfl
@[simp] theorem completeChannel_rx_index (s : State) :
    (completeChannel .rx s).index = s.index := rfl
@[simp] theorem completeChannel_rx_bufAddr (s : State) :
    (completeChannel .rx s).bufAddr = s.bufAddr := rfl
@[simp] theorem completeChannel_rx_jobs (s : State) :
    (completeChannel .rx s).jobs = s.jobs := rfl
@[simp] theorem completeChannel_rx_rxDma (s : State) :
    (completeChannel .rx s).rxDma = { s.rxDma with owed := false } := rfl
@[simp] theorem completeChannel_rx_txDma (s : State) :
    (completeChannel .rx s).txDma = s.txDma := rfl
@[simp] theorem completeChannel_rx_txData (s : State) :
    (completeChannel .rx s).txData = s.txData := rfl
@[simp] theorem completeChannel_rx_cfgLog (s : State) :
    (completeChannel .rx s).cfgLog = s.cfgLog := rfl
@[simp] theorem completeChannel_rx_readData (s : State) :
    (completeChannel .rx s).readData = s.readData := rfl
@[simp] theorem completeChannel_rx_inputs (s : State) :
    (completeChannel .rx s).inputs = s.inputs := rfl

/-! ### `completeChannel .tx s` -/

@[simp] theorem completeChannel_tx_cfg (s : State) :
    (completeChannel .tx s).cfg = s.cfg := rfl
@[simp] theorem completeChannel_tx_probe (s : State) :
    (completeChannel .tx s).probe = s.probe := rfl
@[simp] theorem completeChannel_tx_capture (s : State) :
    (completeChannel .tx s).capture = s.capture := rfl
@[simp] theorem completeChannel_tx_mono (s : State) :
    (completeChannel .tx s).mono = s.mono := rfl
@[simp] theorem completeChannel_tx_ssp (s : State) :
    (completeChannel .tx s).ssp = s.ssp := rfl
@[simp] theorem completeChannel_tx_rsp (s : State) :
    (completeChannel .tx s).rsp = s.rsp := rfl
@[simp] theorem completeChannel_tx_xsp (s : State) :
    (completeChannel .tx s).xsp = s.xsp := rfl
@[simp] theorem completeChannel_tx_tw (s : State) :
    (completeChannel .tx s).tw = s.tw := rfl
@[simp] theorem completeChannel_tx_rxDone (s : State) :
    (completeChannel .tx s).rxDone = s.rxDone := rfl
@[simp] theorem completeChannel_tx_txDone (s : State) :
    (completeChannel .tx s).txDone = true := rfl
@[simp] theorem completeChannel_tx_enRx (s : State) :
    (completeChannel .tx s).enRx = s.enRx := rfl
@[simp] theorem completeChannel_tx_enTx (s : State) :
    (completeChannel .tx s).enTx = false := rfl
@[simp] theorem completeChannel_tx_jobPending (s : State) :
    (completeChannel .tx s).jobPending = s.jobPending := rfl
@[simp] theorem completeChannel_tx_jstep (s : State) :
    (completeChannel .tx s).jstep = s.jstep := rfl
@[simp] theorem completeChannel_tx_started (s : State) :
    (completeChannel .tx s).started = s.started := rfl
@[simp] theorem completeChannel_tx_resultValid (s : State) :
    (completeChannel .tx s).resultValid = s.resultValid := rfl
@[simp] theorem completeChannel_tx_twValid (s : State) :
    (completeChannel .tx s).twValid = s.twValid := rfl
@[simp] theorem completeChannel_tx_cmdErr (s : State) :
    (completeChannel .tx s).cmdErr = s.cmdErr := rfl
@[simp] theorem completeChannel_tx_result (s : State) :
    (completeChannel .tx s).result = s.result := rfl
@[simp] theorem completeChannel_tx_index (s : State) :
    (completeChannel .tx s).index = s.index := rfl
@[simp] theorem completeChannel_tx_bufAddr (s : State) :
    (completeChannel .tx s).bufAddr = s.bufAddr := rfl
@[simp] theorem completeChannel_tx_jobs (s : State) :
    (completeChannel .tx s).jobs = s.jobs := rfl
@[simp] theorem completeChannel_tx_rxDma (s : State) :
    (completeChannel .tx s).rxDma = s.rxDma := rfl
@[simp] theorem completeChannel_tx_txDma (s : State) :
    (completeChannel .tx s).txDma = { s.txDma with owed := false } := rfl
@[simp] theorem completeChannel_tx_txData (s : State) :
    (completeChannel .tx s).txData = s.txData := rfl
@[simp] theorem completeChannel_tx_cfgLog (s : State) :
    (completeChannel .tx s).cfgLog = s.cfgLog := rfl
@[simp] theorem completeChannel_tx_readData (s : State) :
    (completeChannel .tx s).readData = s.readData := rfl
@[simp] theorem completeChannel_tx_inputs (s : State) :
    (completeChannel .tx s).inputs = s.inputs := rfl

/-! ### `armAction .clearFlags s` -/

@[simp] theorem armAction_clearFlags_cfg (s : State) :
    (armAction .clearFlags s).cfg = s.cfg := rfl
@[simp] theorem armAction_clearFlags_probe (s : State) :
    (armAction .clearFlags s).probe = s.probe := rfl
@[simp] theorem armAction_clearFlags_capture (s : State) :
    (armAction .clearFlags s).capture = s.capture := rfl
@[simp] theorem armAction_clearFlags_mono (s : State) :
    (armAction .clearFlags s).mono = s.mono := rfl
@[simp] theorem armAction_clearFlags_ssp (s : State) :
    (armAction .clearFlags s).ssp = s.ssp := rfl
@[simp] theorem armAction_clearFlags_rsp (s : State) :
    (armAction .clearFlags s).rsp = s.rsp := rfl
@[simp] theorem armAction_clearFlags_xsp (s : State) :
    (armAction .clearFlags s).xsp = s.xsp := rfl
@[simp] theorem armAction_clearFlags_tw (s : State) :
    (armAction .clearFlags s).tw = s.tw := rfl
@[simp] theorem armAction_clearFlags_rxDone (s : State) :
    (armAction .clearFlags s).rxDone = false := rfl
@[simp] theorem armAction_clearFlags_txDone (s : State) :
    (armAction .clearFlags s).txDone = false := rfl
@[simp] theorem armAction_clearFlags_enRx (s : State) :
    (armAction .clearFlags s).enRx = s.enRx := rfl
@[simp] theorem armAction_clearFlags_enTx (s : State) :
    (armAction .clearFlags s).enTx = s.enTx := rfl
@[simp] theorem armAction_clearFlags_jobPending (s : State) :
    (armAction .clearFlags s).jobPending = s.jobPending := rfl
@[simp] theorem armAction_clearFlags_jstep (s : State) :
    (armAction .clearFlags s).jstep = s.jstep := rfl
@[simp] theorem armAction_clearFlags_started (s : State) :
    (armAction .clearFlags s).started = s.started := rfl
@[simp] theorem armAction_clearFlags_resultValid (s : State) :
    (armAction .clearFlags s).resultValid = s.resultValid := rfl
@[simp] theorem armAction_clearFlags_twValid (s : State) :
    (armAction .clearFlags s).twValid = s.twValid := rfl
@[simp] theorem armAction_clearFlags_cmdErr (s : State) :
    (armAction .clearFlags s).cmdErr = s.cmdErr := rfl
@[simp] theorem armAction_clearFlags_result (s : State) :
    (armAction .clearFlags s).result = s.result := rfl
@[simp] theorem armAction_clearFlags_index (s : State) :
    (armAction .clearFlags s).index = s.index := rfl
@[simp] theorem armAction_clearFlags_bufAddr (s : State) :
    (armAction .clearFlags s).bufAddr = s.bufAddr := rfl
@[simp] theorem armAction_clearFlags_jobs (s : State) :
    (armAction .clearFlags s).jobs = s.jobs := rfl
@[simp] theorem armAction_clearFlags_rxDma (s : State) :
    (armAction .clearFlags s).rxDma = s.rxDma := rfl
@[simp] theorem armAction_clearFlags_txDma (s : State) :
    (armAction .clearFlags s).txDma = s.txDma := rfl
@[simp] theorem armAction_clearFlags_txData (s : State) :
    (armAction .clearFlags s).txData = s.txData := rfl
@[simp] theorem armAction_clearFlags_cfgLog (s : State) :
    (armAction .clearFlags s).cfgLog = s.cfgLog := rfl
@[simp] theorem armAction_clearFlags_readData (s : State) :
    (armAction .clearFlags s).readData = s.readData := rfl
@[simp] theorem armAction_clearFlags_inputs (s : State) :
    (armAction .clearFlags s).inputs = s.inputs := rfl

/-! ### `armAction .cfgRx s` -/

@[simp] theorem armAction_cfgRx_cfg (s : State) :
    (armAction .cfgRx s).cfg = s.cfg := rfl
@[simp] theorem armAction_cfgRx_probe (s : State) :
    (armAction .cfgRx s).probe = s.probe := rfl
@[simp] theorem armAction_cfgRx_capture (s : State) :
    (armAction .cfgRx s).capture = s.capture := rfl
@[simp] theorem armAction_cfgRx_mono (s : State) :
    (armAction .cfgRx s).mono = s.mono := rfl
@[simp] theorem armAction_cfgRx_ssp (s : State) :
    (armAction .cfgRx s).ssp = s.ssp := rfl
@[simp] theorem armAction_cfgRx_rsp (s : State) :
    (armAction .cfgRx s).rsp = s.rsp := rfl
@[simp] theorem armAction_cfgRx_xsp (s : State) :
    (armAction .cfgRx s).xsp = s.xsp := rfl
@[simp] theorem armAction_cfgRx_tw (s : State) :
    (armAction .cfgRx s).tw = s.tw := rfl
@[simp] theorem armAction_cfgRx_rxDone (s : State) :
    (armAction .cfgRx s).rxDone = s.rxDone := rfl
@[simp] theorem armAction_cfgRx_txDone (s : State) :
    (armAction .cfgRx s).txDone = s.txDone := rfl
@[simp] theorem armAction_cfgRx_enRx (s : State) :
    (armAction .cfgRx s).enRx = s.enRx := rfl
@[simp] theorem armAction_cfgRx_enTx (s : State) :
    (armAction .cfgRx s).enTx = s.enTx := rfl
@[simp] theorem armAction_cfgRx_jobPending (s : State) :
    (armAction .cfgRx s).jobPending = s.jobPending := rfl
@[simp] theorem armAction_cfgRx_jstep (s : State) :
    (armAction .cfgRx s).jstep = s.jstep := rfl
@[simp] theorem armAction_cfgRx_started (s : State) :
    (armAction .cfgRx s).started = s.started := rfl
@[simp] theorem armAction_cfgRx_resultValid (s : State) :
    (armAction .cfgRx s).resultValid = s.resultValid := rfl
@[simp] theorem armAction_cfgRx_twValid (s : State) :
    (armAction .cfgRx s).twValid = s.twValid := rfl
@[simp] theorem armAction_cfgRx_cmdErr (s : State) :
    (armAction .cfgRx s).cmdErr = s.cmdErr := rfl
@[simp] theorem armAction_cfgRx_result (s : State) :
    (armAction .cfgRx s).result = s.result := rfl
@[simp] theorem armAction_cfgRx_index (s : State) :
    (armAction .cfgRx s).index = s.index := rfl
@[simp] theorem armAction_cfgRx_bufAddr (s : State) :
    (armAction .cfgRx s).bufAddr = s.bufAddr := rfl
@[simp] theorem armAction_cfgRx_jobs (s : State) :
    (armAction .cfgRx s).jobs = s.jobs := rfl
@[simp] theorem armAction_cfgRx_rxDma (s : State) :
    (armAction .cfgRx s).rxDma = { s.rxDma with desc := some (rxDescriptor s.cfg) } := rfl
@[simp] theorem armAction_cfgRx_txDma (s : State) :
    (armAction .cfgRx s).txDma = s.txDma := rfl
@[simp] theorem armAction_cfgRx_txData (s : State) :
    (armAction .cfgRx s).txData = s.txData := rfl
@[simp] theorem armAction_cfgRx_cfgLog (s : State) :
    (armAction .cfgRx s).cfgLog = s.cfgLog ++ [rxDescriptor s.cfg] := rfl
@[simp] theorem armAction_cfgRx_readData (s : State) :
    (armAction .cfgRx s).readData = s.readData := rfl
@[simp] theorem armAction_cfgRx_inputs (s : State) :
    (armAction .cfgRx s).inputs = s.inputs := rfl

/-! ### `armAction .cfgTx s` -/

@[simp] theorem armAction_cfgTx_cfg (s : State) :
    (armAction .cfgTx s).cfg = s.cfg := rfl
@[simp] theorem armAction_cfgTx_probe (s : State) :
    (armAction .cfgTx s).probe = s.probe := rfl
@[simp] theorem armAction_cfgTx_capture (s : State) :
    (armAction .cfgTx s).capture = s.capture := rfl
@[simp] theorem armAction_cfgTx_mono (s : State) :
    (armAction .cfgTx s).mono = s.mono := rfl
@[simp] theorem armAction_cfgTx_ssp (s : State) :
    (armAction .cfgTx s).ssp = s.ssp := rfl
@[simp] theorem armAction_cfgTx_rsp (s : State) :
    (armAction .cfgTx s).rsp = s.rsp := rfl
@[simp] theorem armAction_cfgTx_xsp (s : State) :
    (armAction .cfgTx s).xsp = s.xsp := rfl
@[simp] theorem armAction_cfgTx_tw (s : State) :
    (armAction .cfgTx s).tw = s.tw := rfl
@[simp] theorem armAction_cfgTx_rxDone (s : State) :
    (armAction .cfgTx s).rxDone = s.rxDone := rfl
@[simp] theorem armAction_cfgTx_txDone (s : State) :
    (armAction .cfgTx s).txDone = s.txDone := rfl
@[simp] theorem armAction_cfgTx_enRx (s : State) :
    (armAction .cfgTx s).enRx = s.enRx := rfl
@[simp] theorem armAction_cfgTx_enTx (s : State) :
    (armAction .cfgTx s).enTx = s.enTx := rfl
@[simp] theorem armAction_cfgTx_jobPending (s : State) :
    (armAction .cfgTx s).jobPending = s.jobPending := rfl
@[simp] theorem armAction_cfgTx_jstep (s : State) :
    (armAction .cfgTx s).jstep = s.jstep := rfl
@[simp] theorem armAction_cfgTx_started (s : State) :
    (armAction .cfgTx s).started = s.started := rfl
@[simp] theorem armAction_cfgTx_resultValid (s : State) :
    (armAction .cfgTx s).resultValid = s.resultValid := rfl
@[simp] theorem armAction_cfgTx_twValid (s : State) :
    (armAction .cfgTx s).twValid = s.twValid := rfl
@[simp] theorem armAction_cfgTx_cmdErr (s : State) :
    (armAction .cfgTx s).cmdErr = s.cmdErr := rfl
@[simp] theorem armAction_cfgTx_result (s : State) :
    (armAction .cfgTx s).result = s.result := rfl
@[simp] theorem armAction_cfgTx_index (s : State) :
    (armAction .cfgTx s).index = s.index := rfl
@[simp] theorem armAction_cfgTx_bufAddr (s : State) :
    (armAction .cfgTx s).bufAddr = s.bufAddr := rfl
@[simp] theorem armAction_cfgTx_jobs (s : State) :
    (armAction .cfgTx s).jobs = s.jobs := rfl
@[simp] theorem armAction_cfgTx_rxDma (s : State) :
    (armAction .cfgTx s).rxDma = s.rxDma := rfl
@[simp] theorem armAction_cfgTx_txDma (s : State) :
    (armAction .cfgTx s).txDma = { s.txDma with desc := some (txDescriptor s.cfg) } := rfl
@[simp] theorem armAction_cfgTx_txData (s : State) :
    (armAction .cfgTx s).txData = s.txData := rfl
@[simp] theorem armAction_cfgTx_cfgLog (s : State) :
    (armAction .cfgTx s).cfgLog = s.cfgLog ++ [txDescriptor s.cfg] := rfl
@[simp] theorem armAction_cfgTx_readData (s : State) :
    (armAction .cfgTx s).readData = s.readData := rfl
@[simp] theorem armAction_cfgTx_inputs (s : State) :
    (armAction .cfgTx s).inputs = s.inputs := rfl

/-! ### `armAction .enableRx s` -/

@[simp] theorem armAction_enableRx_cfg (s : State) :
    (armAction .enableRx s).cfg = s.cfg := rfl
@[simp] theorem armAction_enableRx_probe (s : State) :
    (armAction .enableRx s).probe = s.probe := rfl
@[simp] theorem armAction_enableRx_capture (s : State) :
    (armAction .enableRx s).capture = s.capture := rfl
@[simp] theorem armAction_enableRx_mono (s : State) :
    (armAction .enableRx s).mono = s.mono := rfl
@[simp] theorem armAction_enableRx_ssp (s : State) :
    (armAction .enableRx s).ssp = s.ssp := rfl
@[simp] theorem armAction_enableRx_rsp (s : State) :
    (armAction .enableRx s).rsp = s.rsp := rfl
@[simp] theorem armAction_enableRx_xsp (s : State) :
    (armAction .enableRx s).xsp = s.xsp := rfl
@[simp] theorem armAction_enableRx_tw (s : State) :
    (armAction .enableRx s).tw = s.tw := rfl
@[simp] theorem armAction_enableRx_rxDone (s : State) :
    (armAction .enableRx s).rxDone = s.rxDone := rfl
@[simp] theorem armAction_enableRx_txDone (s : State) :
    (armAction .enableRx s).txDone = s.txDone := rfl
@[simp] theorem armAction_enableRx_enRx (s : State) :
    (armAction .enableRx s).enRx = true := rfl
@[simp] theorem armAction_enableRx_enTx (s : State) :
    (armAction .enableRx s).enTx = s.enTx := rfl
@[simp] theorem armAction_enableRx_jobPending (s : State) :
    (armAction .enableRx s).jobPending = s.jobPending := rfl
@[simp] theorem armAction_enableRx_jstep (s : State) :
    (armAction .enableRx s).jstep = s.jstep := rfl
@[simp] theorem armAction_enableRx_started (s : State) :
    (armAction .enableRx s).started = s.started := rfl
@[simp] theorem armAction_enableRx_resultValid (s : State) :
    (armAction .enableRx s).resultValid = s.resultValid := rfl
@[simp] theorem armAction_enableRx_twValid (s : State) :
    (armAction .enableRx s).twValid = s.twValid := rfl
@[simp] theorem armAction_enableRx_cmdErr (s : State) :
    (armAction .enableRx s).cmdErr = s.cmdErr := rfl
@[simp] theorem armAction_enableRx_result (s : State) :
    (armAction .enableRx s).result = s.result := rfl
@[simp] theorem armAction_enableRx_index (s : State) :
    (armAction .enableRx s).index = s.index := rfl
@[simp] theorem armAction_enableRx_bufAddr (s : State) :
    (armAction .enableRx s).bufAddr = s.bufAddr := rfl
@[simp] theorem armAction_enableRx_jobs (s : State) :
    (armAction .enableRx s).jobs = s.jobs := rfl
@[simp] theorem armAction_enableRx_rxDma (s : State) :
    (armAction .enableRx s).rxDma = { s.rxDma with owed := s.rxDma.owed || !s.enRx } := rfl
@[simp] theorem armAction_enableRx_txDma (s : State) :
    (armAction .enableRx s).txDma = s.txDma := rfl
@[simp] theorem armAction_enableRx_txData (s : State) :
    (armAction .enableRx s).txData = s.txData := rfl
@[simp] theorem armAction_enableRx_cfgLog (s : State) :
    (armAction .enableRx s).cfgLog = s.cfgLog := rfl
@[simp] theorem armAction_enableRx_readData (s : State) :
    (armAction .enableRx s).readData = s.readData := rfl
@[simp] theorem armAction_enableRx_inputs (s : State) :
    (armAction .enableRx s).inputs = s.inputs := rfl

/-! ### `armAction .enableTx s` -/

@[simp] theorem armAction_enableTx_cfg (s : State) :
    (armAction .enableTx s).cfg = s.cfg := rfl
@[simp] theorem armAction_enableTx_probe (s : State) :
    (armAction .enableTx s).probe = s.probe := rfl
@[simp] theorem armAction_enableTx_capture (s : State) :
    (armAction .enableTx s).capture = s.capture := rfl
@[simp] theorem armAction_enableTx_mono (s : State) :
    (armAction .enableTx s).mono = s.mono := rfl
@[simp] theorem armAction_enableTx_ssp (s : State) :
    (armAction .enableTx s).ssp = s.ssp := rfl
@[simp] theorem armAction_enableTx_rsp (s : State) :
    (armAction .enableTx s).rsp = s.rsp := rfl
@[simp] theorem armAction_enableTx_xsp (s : State) :
    (armAction .enableTx s).xsp = s.xsp := rfl
@[simp] theorem armAction_enableTx_tw (s : State) :
    (armAction .enableTx s).tw = s.tw := rfl
@[simp] theorem armAction_enableTx_rxDone (s : State) :
    (armAction .enableTx s).rxDone = s.rxDone := rfl
@[simp] theorem armAction_enableTx_txDone (s : State) :
    (armAction .enableTx s).txDone = s.txDone := rfl
@[simp] theorem armAction_enableTx_enRx (s : State) :
    (armAction .enableTx s).enRx = s.enRx := rfl
@[simp] theorem armAction_enableTx_enTx (s : State) :
    (armAction .enableTx s).enTx = true := rfl
@[simp] theorem armAction_enableTx_jobPending (s : State) :
    (armAction .enableTx s).jobPending = s.jobPending := rfl
@[simp] theorem armAction_enableTx_jstep (s : State) :
    (armAction .enableTx s).jstep = s.jstep := rfl
@[simp] theorem armAction_enableTx_started (s : State) :
    (armAction .enableTx s).started = s.started := rfl
@[simp] theorem armAction_enableTx_resultValid (s : State) :
    (armAction .enableTx s).resultValid = s.resultValid := rfl
@[simp] theorem armAction_enableTx_twValid (s : State) :
    (armAction .enableTx s).twValid = s.twValid := rfl
@[simp] theorem armAction_enableTx_cmdErr (s : State) :
    (armAction .enableTx s).cmdErr = s.cmdErr := rfl
@[simp] theorem armAction_enableTx_result (s : State) :
    (armAction .enableTx s).result = s.result := rfl
@[simp] theorem armAction_enableTx_index (s : State) :
    (armAction .enableTx s).index = s.index := rfl
@[simp] theorem armAction_enableTx_bufAddr (s : State) :
    (armAction .enableTx s).bufAddr = s.bufAddr := rfl
@[simp] theorem armAction_enableTx_jobs (s : State) :
    (armAction .enableTx s).jobs = s.jobs := rfl
@[simp] theorem armAction_enableTx_rxDma (s : State) :
    (armAction .enableTx s).rxDma = s.rxDma := rfl
@[simp] theorem armAction_enableTx_txDma (s : State) :
    (armAction .enableTx s).txDma = { s.txDma with owed := s.txDma.owed || !s.enTx } := rfl
@[simp] theorem armAction_enableTx_txData (s : State) :
    (armAction .enableTx s).txData = s.txData := rfl
@[simp] theorem armAction_enableTx_cfgLog (s : State) :
    (armAction .enableTx s).cfgLog = s.cfgLog := rfl
@[simp] theorem armAction_enableTx_readData (s : State) :
    (armAction .enableTx s).readData = s.readData := rfl
@[simp] theorem armAction_enableTx_inputs (s : State) :
    (armAction .enableTx s).inputs = s.inputs := rfl

/-! ### `setSpectrum s .ssp l` -/

@[simp] theorem setSpectrum_ssp_cfg (s : State) (l : List Scalar) :
    (setSpectrum s .ssp l).cfg = s.cfg := rfl
@[simp] theorem setSpectrum_ssp_probe (s : State) (l : List Scalar) :
    (setSpectrum s .ssp l).probe = s.probe := rfl
@[simp] theorem setSpectrum_ssp_capture (s : State) (l : List Scalar) :
    (setSpectrum s .ssp l).capture = s.capture := rfl
@[simp] theorem setSpectrum_ssp_mono (s : State) (l : List Scalar) :
    (setSpectrum s .ssp l).mono = s.mono := rfl
@[simp] theorem setSpectrum_ssp_ssp (s : State) (l : List Scalar) :
    (setSpectrum s .ssp l).ssp = bufOfList l := rfl
@[simp] theorem setSpectrum_ssp_rsp (s : State) (l : List Scalar) :
    (setSpectrum s .ssp l).rsp = s.rsp := rfl
@[simp] theorem setSpectrum_ssp_xsp (s : State) (l : List Scalar) :
    (setSpectrum s .ssp l).xsp = s.xsp := rfl
@[simp] theorem setSpectrum_ssp_tw (s : State) (l : List Scalar) :
    (setSpectrum s .ssp l).tw = s.tw := rfl
@[simp] theorem setSpectrum_ssp_rxDone (s : State) (l : List Scalar) :
    (setSpectrum s .ssp l).rxDone = s.rxDone := rfl
@[simp] theorem setSpectrum_ssp_txDone (s : State) (l : List Scalar) :
    (setSpectrum s .ssp l).txDone = s.txDone := rfl
@[simp] theorem setSpectrum_ssp_enRx (s : State) (l : List Scalar) :
    (setSpectrum s .ssp l).enRx = s.enRx := rfl
@[simp] theorem setSpectrum_ssp_enTx (s : State) (l : List Scalar) :
    (setSpectrum s .ssp l).enTx = s.enTx := rfl
@[simp] theorem setSpectrum_ssp_jobPending (s : State) (l : List Scalar) :
    (setSpectrum s .ssp l).jobPending = s.jobPending := rfl
@[simp] theorem setSpectrum_ssp_jstep (s : State) (l : List Scalar) :
    (setSpectrum s .ssp l).jstep = s.jstep := rfl
@[simp] theorem setSpectrum_ssp_started (s : State) (l : List Scalar) :
    (setSpectrum s .ssp l).started = s.started := rfl
@[simp] theorem setSpectrum_ssp_resultValid (s : State) (l : List Scalar) :
    (setSpectrum s .ssp l).resultValid = s.resultValid := rfl
@[simp] theorem setSpectrum_ssp_twValid (s : State) (l : List Scalar) :
    (setSpectrum s .ssp l).twValid = s.twValid := rfl
@[simp] theorem setSpectrum_ssp_cmdErr (s : State) (l : List Scalar) :
    (setSpectrum s .ssp l).cmdErr = s.cmdErr := rfl
@[simp] theorem setSpectrum_ssp_result (s : State) (l : List Scalar) :
    (setSpectrum s .ssp l).result = s.result := rfl
@[simp] theorem setSpectrum_ssp_index (s : State) (l : List Scalar) :
    (setSpectrum s .ssp l).index = s.index := rfl
@[simp] theorem setSpectrum_ssp_bufAddr (s : State) (l : List Scalar) :
    (setSpectrum s .ssp l).bufAddr = s.bufAddr := rfl
@[simp] theorem setSpectrum_ssp_jobs (s : State) (l : List Scalar) :
    (setSpectrum s .ssp l).jobs = s.jobs := rfl
@[simp] theorem setSpectrum_ssp_rxDma (s : State) (l : List Scalar) :
    (setSpectrum s .ssp l).rxDma = s.rxDma := rfl
@[simp] theorem setSpectrum_ssp_txDma (s : State) (l : List Scalar) :
    (setSpectrum s .ssp l).txDma = s.txDma := rfl
@[simp] theorem setSpectrum_ssp_txData (s : State) (l : List Scalar) :
    (setSpectrum s .ssp l).txData = s.txData := rfl
@[simp] theorem setSpectrum_ssp_cfgLog (s : State) (l : List Scalar) :
    (setSpectrum s .ssp l).cfgLog = s.cfgLog := rfl
@[simp] theorem setSpectrum_ssp_readData (s : State) (l : List Scalar) :
    (setSpectrum s .ssp l).readData = s.readData := rfl
@[simp] theorem setSpectrum_ssp_inputs (s : State) (l : List Scalar) :
    (setSpectrum s .ssp l).inputs = s.inputs := rfl

/-! ### `setSpectrum s .rsp l` -/

@[simp] theorem setSpectrum_rsp_cfg (s : State) (l : List Scalar) :
    (setSpectrum s .rsp l).cfg = s.cfg := rfl
@[simp] theorem setSpectrum_rsp_probe (s : State) (l : List Scalar) :
    (setSpectrum s .rsp l).probe = s.probe := rfl
@[simp] theorem setSpectrum_rsp_capture (s : State) (l : List Scalar) :
    (setSpectrum s .rsp l).capture = s.capture := rfl
@[simp] theorem setSpectrum_rsp_mono (s : State) (l : List Scalar) :
    (setSpectrum s .rsp l).mono = s.mono := rfl
@[simp] theorem setSpectrum_rsp_ssp (s : State) (l : List Scalar) :
    (setSpectrum s .rsp l).ssp = s.ssp := rfl
@[simp] theorem setSpectrum_rsp_rsp (s : State) (l : List Scalar) :
    (setSpectrum s .rsp l).rsp = bufOfList l := rfl
@[simp] theorem setSpectrum_rsp_xsp (s : State) (l : List Scalar) :
    (setSpectrum s .rsp l).xsp = s.xsp := rfl
@[simp] theorem setSpectrum_rsp_tw (s : State) (l : List Scalar) :
    (setSpectrum s .rsp l).tw = s.tw := rfl
@[simp] theorem setSpectrum_rsp_rxDone (s : State) (l : List Scalar) :
    (setSpectrum s .rsp l).rxDone = s.rxDone := rfl
@[simp] theorem setSpectrum_rsp_txDone (s : State) (l : List Scalar) :
    (setSpectrum s .rsp l).txDone = s.txDone := rfl
@[simp] theorem setSpectrum_rsp_enRx (s : State) (l : List Scalar) :
    (setSpectrum s .rsp l).enRx = s.enRx := rfl
@[simp] theorem setSpectrum_rsp_enTx (s : State) (l : List Scalar) :
    (setSpectrum s .rsp l).enTx = s.enTx := rfl
@[simp] theorem setSpectrum_rsp_jobPending (s : State) (l : List Scalar) :
    (setSpectrum s .rsp l).jobPending = s.jobPending := rfl
@[simp] theorem setSpectrum_rsp_jstep (s : State) (l : List Scalar) :
    (setSpectrum s .rsp l).jstep = s.jstep := rfl
@[simp] theorem setSpectrum_rsp_started (s : State) (l : List Scalar) :
    (setSpectrum s .rsp l).started = s.started := rfl
@[simp] theorem setSpectrum_rsp_resultValid (s : State) (l : List Scalar) :
    (setSpectrum s .rsp l).resultValid = s.resultValid := rfl
@[simp] theorem setSpectrum_rsp_twValid (s : State) (l : List Scalar) :
    (setSpectrum s .rsp l).twValid = s.twValid := rfl
@[simp] theorem setSpectrum_rsp_cmdErr (s : State) (l : List Scalar) :
    (setSpectrum s .rsp l).cmdErr = s.cmdErr := rfl
@[simp] theorem setSpectrum_rsp_result (s : State) (l : List Scalar) :
    (setSpectrum s .rsp l).result = s.result := rfl
@[simp] theorem setSpectrum_rsp_index (s : State) (l : List Scalar) :
    (setSpectrum s .rsp l).index = s.index := rfl
@[simp] theorem setSpectrum_rsp_bufAddr (s : State) (l : List Scalar) :
    (setSpectrum s .rsp l).bufAddr = s.bufAddr := rfl
@[simp] theorem setSpectrum_rsp_jobs (s : State) (l : List Scalar) :
    (setSpectrum s .rsp l).jobs = s.jobs := rfl
@[simp] theorem setSpectrum_rsp_rxDma (s : State) (l : List Scalar) :
    (setSpectrum s .rsp l).rxDma = s.rxDma := rfl
@[simp] theorem setSpectrum_rsp_txDma (s : State) (l : List Scalar) :
    (setSpectrum s .rsp l).txDma = s.txDma := rfl
@[simp] theorem setSpectrum_rsp_txData (s : State) (l : List Scalar) :
    (setSpectrum s .rsp l).txData = s.txData := rfl
@[simp] theorem setSpectrum_rsp_cfgLog (s : State) (l : List Scalar) :
    (setSpectrum s .rsp l).cfgLog = s.cfgLog := rfl
@[simp] theorem setSpectrum_rsp_readData (s : State) (l : List Scalar) :
    (setSpectrum s .rsp l).readData = s.readData := rfl
@[simp] theorem setSpectrum_rsp_inputs (s : State) (l : List Scalar) :
    (setSpectrum s .rsp l).inputs = s.inputs := rfl

/-! ### `setSpectrum s .xsp l` -/

@[simp] theorem setSpectrum_xsp_cfg (s : State) (l : List Scalar) :
    (setSpectrum s .xsp l).cfg = s.cfg := rfl
@[simp] theorem setSpectrum_xsp_probe (s : State) (l : List Scalar) :
    (setSpectrum s .xsp l).probe = s.probe := rfl
@[simp] theorem setSpectrum_xsp_capture (s : State) (l : List Scalar) :
    (setSpectrum s .xsp l).capture = s.capture := rfl
@[simp] theorem setSpectrum_xsp_mono (s : State) (l : List Scalar) :
    (setSpectrum s .xsp l).mono = s.mono := rfl
@[simp] theorem setSpectrum_xsp_ssp (s : State) (l : List Scalar) :
    (setSpectrum s .xsp l).ssp = s.ssp := rfl
@[simp] theorem setSpectrum_xsp_rsp (s : State) (l : List Scalar) :
    (setSpectrum s .xsp l).rsp = s.rsp := rfl
@[simp] theorem setSpectrum_xsp_xsp (s : State) (l : List Scalar) :
    (setSpectrum s .xsp l).xsp = bufOfList l := rfl
@[simp] theorem setSpectrum_xsp_tw (s : State) (l : List Scalar) :
    (setSpectrum s .xsp l).tw = s.tw := rfl
@[simp] theorem setSpectrum_xsp_rxDone (s : State) (l : List Scalar) :
    (setSpectrum s .xsp l).rxDone = s.rxDone := rfl
@[simp] theorem setSpectrum_xsp_txDone (s : State) (l : List Scalar) :
    (setSpectrum s .xsp l).txDone = s.txDone := rfl
@[simp] theorem setSpectrum_xsp_enRx (s : State) (l : List Scalar) :
    (setSpectrum s .xsp l).enRx = s.enRx := rfl
@[simp] theorem setSpectrum_xsp_enTx (s : State) (l : List Scalar) :
    (setSpectrum s .xsp l).enTx = s.enTx := rfl
@[simp] theorem setSpectrum_xsp_jobPending (s : State) (l : List Scalar) :
    (setSpectrum s .xsp l).jobPending = s.jobPending := rfl
@[simp] theorem setSpectrum_xsp_jstep (s : State) (l : List Scalar) :
    (setSpectrum s .xsp l).jstep = s.jstep := rfl
@[simp] theorem setSpectrum_xsp_started (s : State) (l : List Scalar) :
    (setSpectrum s .xsp l).started = s.started := rfl
@[simp] theorem setSpectrum_xsp_resultValid (s : State) (l : List Scalar) :
    (setSpectrum s .xsp l).resultValid = s.resultValid := rfl
@[simp] theorem setSpectrum_xsp_twValid (s : State) (l : List Scalar) :
    (setSpectrum s .xsp l).twValid = s.twValid := rfl
@[simp] theorem setSpectrum_xsp_cmdErr (s : State) (l : List Scalar) :
    (setSpectrum s .xsp l).cmdErr = s.cmdErr := rfl
@[simp] theorem setSpectrum_xsp_result (s : State) (l : List Scalar) :
    (setSpectrum s .xsp l).result = s.result := rfl
@[simp] theorem setSpectrum_xsp_index (s : State) (l : List Scalar) :
    (setSpectrum s .xsp l).index = s.index := rfl
@[simp] theorem setSpectrum_xsp_bufAddr (s : State) (l : List Scalar) :
    (setSpectrum s .xsp l).bufAddr = s.bufAddr := rfl
@[simp] theorem setSpectrum_xsp_jobs (s : State) (l : List Scalar) :
    (setSpectrum s .xsp l).jobs = s.jobs := rfl
@[simp] theorem setSpectrum_xsp_rxDma (s : State) (l : List Scalar) :
    (setSpectrum s .xsp l).rxDma = s.rxDma := rfl
@[simp] theorem setSpectrum_xsp_txDma (s : State) (l : List Scalar) :
    (setSpectrum s .xsp l).txDma = s.txDma := rfl
@[simp] theorem setSpectrum_xsp_txData (s : State) (l : List Scalar) :
    (setSpectrum s .xsp l).txData = s.txData := rfl
@[simp] theorem setSpectrum_xsp_cfgLog (s : State) (l : List Scalar) :
    (setSpectrum s .xsp l).cfgLog = s.cfgLog := rfl
@[simp] theorem setSpectrum_xsp_readData (s : State) (l : List Scalar) :
    (setSpectrum s .xsp l).readData = s.readData := rfl
@[simp] theorem setSpectrum_xsp_inputs (s : State) (l : List Scalar) :
    (setSpectrum s .xsp l).inputs = s.inputs := rfl

/-! ### `opSynth nu s` -/

@[simp] theorem opSynth_cfg (nu : Num Scalar) (s : State) :
    (opSynth nu s).cfg = s.cfg := rfl
@[simp] theorem opSynth_probe (nu : Num Scalar) (s : State) :
    (opSynth nu s).probe = bufOfList (synthList nu s.cfg) := rfl
@[simp] theorem opSynth_capture (nu : Num Scalar) (s : State) :
    (opSynth nu s).capture = s.capture := rfl
@[simp] theorem opSynth_mono (nu : Num Scalar) (s : State) :
    (opSynth nu s).mono = s.mono := rfl
@[simp] theorem opSynth_ssp (nu : Num Scalar) (s : State) :
    (opSynth nu s).ssp = s.ssp := rfl
@[simp] theorem opSynth_rsp (nu : Num Scalar) (s : State) :
    (opSynth nu s).rsp = s.rsp := rfl
@[simp] theorem opSynth_xsp (nu : Num Scalar) (s : State) :
    (opSynth nu s).xsp = s.xsp := rfl
@[simp] theorem opSynth_tw (nu : Num Scalar) (s : State) :
    (opSynth nu s).tw = s.tw := rfl
@[simp] theorem opSynth_rxDone (nu : Num Scalar) (s : State) :
    (opSynth nu s).rxDone = s.rxDone := rfl
@[simp] theorem opSynth_txDone (nu : Num Scalar) (s : State) :
    (opSynth nu s).txDone = s.txDone := rfl
@[simp] theorem opSynth_enRx (nu : Num Scalar) (s : State) :
    (opSynth nu s).enRx = s.enRx := rfl
@[simp] theorem opSynth_enTx (nu : Num Scalar) (s : State) :
    (opSynth nu s).enTx = s.enTx := rfl
@[simp] theorem opSynth_jobPending (nu : Num Scalar) (s : State) :
    (opSynth nu s).jobPending = s.jobPending := rfl
@[simp] theorem opSynth_jstep (nu : Num Scalar) (s : State) :
    (opSynth nu s).jstep = s.jstep := rfl
@[simp] theorem opSynth_started (nu : Num Scalar) (s : State) :
    (opSynth nu s).started = s.started := rfl
@[simp] theorem opSynth_resultValid (nu : Num Scalar) (s : State) :
    (opSynth nu s).resultValid = s.resultValid := rfl
@[simp] theorem opSynth_twValid (nu : Num Scalar) (s : State) :
    (opSynth nu s).twValid = s.twValid := rfl
@[simp] theorem opSynth_cmdErr (nu : Num Scalar) (s : State) :
    (opSynth nu s).cmdErr = s.cmdErr := rfl
@[simp] theorem opSynth_result (nu : Num Scalar) (s : State) :
    (opSynth nu s).result = s.result := rfl
@[simp] theorem opSynth_index (nu : Num Scalar) (s : State) :
    (opSynth nu s).index = s.index := rfl
@[simp] theorem opSynth_bufAddr (nu : Num Scalar) (s : State) :
    (opSynth nu s).bufAddr = s.bufAddr := rfl
@[simp] theorem opSynth_jobs (nu : Num Scalar) (s : State) :
    (opSynth nu s).jobs = s.jobs := rfl
@[simp] theorem opSynth_rxDma (nu : Num Scalar) (s : State) :
    (opSynth nu s).rxDma = s.rxDma := rfl
@[simp] theorem opSynth_txDma (nu : Num Scalar) (s : State) :
    (opSynth nu s).txDma = s.txDma := rfl
@[simp] theorem opSynth_txData (nu : Num Scalar) (s : State) :
    (opSynth nu s).txData = s.txData := rfl
@[simp] theorem opSynth_cfgLog (nu : Num Scalar) (s : State) :
    (opSynth nu s).cfgLog = s.cfgLog := rfl
@[simp] theorem opSynth_readData (nu : Num Scalar) (s : State) :
    (opSynth nu s).readData = s.readData := rfl
@[simp] theorem opSynth_inputs (nu : Num Scalar) (s : State) :
    (opSynth nu s).inputs = s.inputs := rfl

/-! ### `opDownmix s` -/

@[simp] theorem opDownmix_cfg (s : State) :
    (opDownmix s).cfg = s.cfg := rfl
@[simp] theorem opDownmix_probe (s : State) :
    (opDownmix s).probe = s.probe := rfl
@[simp] theorem opDownmix_capture (s : State) :
    (opDownmix s).capture = s.capture := rfl
@[simp] theorem opDownmix_mono (s : State) :
    (opDownmix s).mono = bufOfList ((List.range s.cfg.responseMono).map fun i => bufRead s.capture (2 * i)) := rfl
@[simp] theorem opDownmix_ssp (s : State) :
    (opDownmix s).ssp = s.ssp := rfl
@[simp] theorem opDownmix_rsp (s : State) :
    (opDownmix s).rsp = s.rsp := rfl
@[simp] theorem opDownmix_xsp (s : State) :
    (opDownmix s).xsp = s.xsp := rfl
@[simp] theorem opDownmix_tw (s : State) :
    (opDownmix s).tw = s.tw := rfl
@[simp] theorem opDownmix_rxDone (s : State) :
    (opDownmix s).rxDone = s.rxDone := rfl
@[simp] theorem opDownmix_txDone (s : State) :
    (opDownmix s).txDone = s.txDone := rfl
@[simp] theorem opDownmix_enRx (s : State) :
    (opDownmix s).enRx = s.enRx := rfl
@[simp] theorem opDownmix_enTx (s : State) :
    (opDownmix s).enTx = s.enTx := rfl
@[simp] theorem opDownmix_jobPending (s : State) :
    (opDownmix s).jobPending = s.jobPending := rfl
@[simp] theorem opDownmix_jstep (s : State) :
    (opDownmix s).jstep = s.jstep := rfl
@[simp] theorem opDownmix_started (s : State) :
    (opDownmix s).started = s.started := rfl
@[simp] theorem opDownmix_resultValid (s : State) :
    (opDownmix s).resultValid = s.resultValid := rfl
@[simp] theorem opDownmix_twValid (s : State) :
    (opDownmix s).twValid = s.twValid := rfl
@[simp] theorem opDownmix_cmdErr (s : State) :
    (opDownmix s).cmdErr = s.cmdErr := rfl
@[simp] theorem opDownmix_result (s : State) :
    (opDownmix s).result = s.result := rfl
@[simp] theorem opDownmix_index (s : State) :
    (opDownmix s).index = s.index := rfl
@[simp] theorem opDownmix_bufAddr (s : State) :
    (opDownmix s).bufAddr = s.bufAddr := rfl
@[simp] theorem opDownmix_jobs (s : State) :
    (opDownmix s).jobs = s.jobs := rfl
@[simp] theorem opDownmix_rxDma (s : State) :
    (opDownmix s).rxDma = s.rxDma := rfl
@[simp] theorem opDownmix_txDma (s : State) :
    (opDownmix s).txDma = s.txDma := rfl
@[simp] theorem opDownmix_txData (s : State) :
    (opDownmix s).txData = s.txData := rfl
@[simp] theorem opDownmix_cfgLog (s : State) :
    (opDownmix s).cfgLog = s.cfgLog := rfl
@[simp] theorem opDownmix_readData (s : State) :
    (opDownmix s).readData = s.readData := rfl
@[simp] theorem opDownmix_inputs (s : State) :
    (opDownmix s).inputs = s.inputs := rfl

/-! ### `opCorrt s` -/

@[simp] theorem opCorrt_cfg (s : State) :
    (opCorrt s).cfg = s.cfg := rfl
@[simp] theorem opCorrt_probe (s : State) :
    (opCorrt s).probe = s.probe := rfl
@[simp] theorem opCorrt_capture (s : State) :
    (opCorrt s).capture = s.capture := rfl
@[simp] theorem opCorrt_mono (s : State) :
    (opCorrt s).mono = s.mono := rfl
@[simp] theorem opCorrt_ssp (s : State) :
    (opCorrt s).ssp = s.ssp := rfl
@[simp] theorem opCorrt_rsp (s : State) :
    (opCorrt s).rsp = s.rsp := rfl
@[simp] theorem opCorrt_xsp (s : State) :
    (opCorrt s).xsp = s.xsp := rfl
@[simp] theorem opCorrt_tw (s : State) :
    (opCorrt s).tw = s.tw := rfl
@[simp] theorem opCorrt_rxDone (s : State) :
    (opCorrt s).rxDone = s.rxDone := rfl
@[simp] theorem opCorrt_txDone (s : State) :
    (opCorrt s).txDone = s.txDone := rfl
@[simp] theorem opCorrt_enRx (s : State) :
    (opCorrt s).enRx = s.enRx := rfl
@[simp] theorem opCorrt_enTx (s : State) :
    (opCorrt s).enTx = s.enTx := rfl
@[simp] theorem opCorrt_jobPending (s : State) :
    (opCorrt s).jobPending = s.jobPending := rfl
@[simp] theorem opCorrt_jstep (s : State) :
    (opCorrt s).jstep = s.jstep := rfl
@[simp] theorem opCorrt_started (s : State) :
    (opCorrt s).started = s.started := rfl
@[simp] theorem opCorrt_resultValid (s : State) :
    (opCorrt s).resultValid = s.resultValid := rfl
@[simp] theorem opCorrt_twValid (s : State) :
    (opCorrt s).twValid = s.twValid := rfl
@[simp] theorem opCorrt_cmdErr (s : State) :
    (opCorrt s).cmdErr = s.cmdErr := rfl
@[simp] theorem opCorrt_result (s : State) :
    (opCorrt s).result = s.result := rfl
@[simp] theorem opCorrt_index (s : State) :
    (opCorrt s).index = BitVec.ofNat 32 (bestLag s.cfg s.probe s.mono) := rfl
@[simp] theorem opCorrt_bufAddr (s : State) :
    (opCorrt s).bufAddr = s.bufAddr := rfl
@[simp] theorem opCorrt_jobs (s : State) :
    (opCorrt s).jobs = s.jobs := rfl
@[simp] theorem opCorrt_rxDma (s : State) :
    (opCorrt s).rxDma = s.rxDma := rfl
@[simp] theorem opCorrt_txDma (s : State) :
    (opCorrt s).txDma = s.txDma := rfl
@[simp] theorem opCorrt_txData (s : State) :
    (opCorrt s).txData = s.txData := rfl
@[simp] theorem opCorrt_cfgLog (s : State) :
    (opCorrt s).cfgLog = s.cfgLog := rfl
@[simp] theorem opCorrt_readData (s : State) :
    (opCorrt s).readData = s.readData := rfl
@[simp] theorem opCorrt_inputs (s : State) :
    (opCorrt s).inputs = s.inputs := rfl

/-! ### `opTodist nu s` -/

@[simp] theorem opTodist_cfg (nu : Num Scalar) (s : State) :
    (opTodist nu s).cfg = s.cfg := rfl
@[simp] theorem opTodist_probe (nu : Num Scalar) (s : State) :
    (opTodist nu s).probe = s.probe := rfl
@[simp] theorem opTodist_capture (nu : Num Scalar) (s : State) :
    (opTodist nu s).capture = s.capture := rfl
@[simp] theorem opTodist_mono (nu : Num Scalar) (s : State) :
    (opTodist nu s).mono = s.mono := rfl
@[simp] theorem opTodist_ssp (nu : Num Scalar) (s : State) :
    (opTodist nu s).ssp = s.ssp := rfl
@[simp] theorem opTodist_rsp (nu : Num Scalar) (s : State) :
    (opTodist nu s).rsp = s.rsp := rfl
@[simp] theorem opTodist_xsp (nu : Num Scalar) (s : State) :
    (opTodist nu s).xsp = s.xsp := rfl
@[simp] theorem opTodist_tw (nu : Num Scalar) (s : State) :
    (opTodist nu s).tw = s.tw := rfl
@[simp] theorem opTodist_rxDone (nu : Num Scalar) (s : State) :
    (opTodist nu s).rxDone = s.rxDone := rfl
@[simp] theorem opTodist_txDone (nu : Num Scalar) (s : State) :
    (opTodist nu s).txDone = s.txDone := rfl
@[simp] theorem opTodist_enRx (nu : Num Scalar) (s : State) :
    (opTodist nu s).enRx = s.enRx := rfl
@[simp] theorem opTodist_enTx (nu : Num Scalar) (s : State) :
    (opTodist nu s).enTx = s.enTx := rfl
@[simp] theorem opTodist_jobPending (nu : Num Scalar) (s : State) :
    (opTodist nu s).jobPending = s.jobPending := rfl
@[simp] theorem opTodist_jstep (nu : Num Scalar) (s : State) :
    (opTodist nu s).jstep = s.jstep := rfl
@[simp] theorem opTodist_started (nu : Num Scalar) (s : State) :
    (opTodist nu s).started = s.started := rfl
@[simp] theorem opTodist_resultValid (nu : Num Scalar) (s : State) :
    (opTodist nu s).resultValid = true := rfl
@[simp] theorem opTodist_twValid (nu : Num Scalar) (s : State) :
    (opTodist nu s).twValid = s.twValid := rfl
@[simp] theorem opTodist_cmdErr (nu : Num Scalar) (s : State) :
    (opTodist nu s).cmdErr = s.cmdErr := rfl
@[simp] theorem opTodist_result (nu : Num Scalar) (s : State) :
    (opTodist nu s).result = nu.bits (distanceOf nu s.cfg s.index) := rfl
@[simp] theorem opTodist_index (nu : Num Scalar) (s : State) :
    (opTodist nu s).index = s.index := rfl
@[simp] theorem opTodist_bufAddr (nu : Num Scalar) (s : State) :
    (opTodist nu s).bufAddr = s.bufAddr := rfl
@[simp] theorem opTodist_jobs (nu : Num Scalar) (s : State) :
    (opTodist nu s).jobs = s.jobs := rfl
@[simp] theorem opTodist_rxDma (nu : Num Scalar) (s : State) :
    (opTodist nu s).rxDma = s.rxDma := rfl
@[simp] theorem opTodist_txDma (nu : Num Scalar) (s : State) :
    (opTodist nu s).txDma = s.txDma := rfl
@[simp] theorem opTodist_txData (nu : Num Scalar) (s : State) :
    (opTodist nu s).txData = s.txData := rfl
@[simp] theorem opTodist_cfgLog (nu : Num Scalar) (s : State) :
    (opTodist nu s).cfgLog = s.cfgLog := rfl
@[simp] theorem opTodist_readData (nu : Num Scalar) (s : State) :
    (opTodist nu s).readData = s.readData := rfl
@[simp] theorem opTodist_inputs (nu : Num Scalar) (s : State) :
    (opTodist nu s).inputs = s.inputs := rfl

/-! ### `opTwgen nu s` -/

@[simp] theorem opTwgen_cfg (nu : Num Scalar) (s : State) :
    (opTwgen nu s).cfg = s.cfg := rfl
@[simp] theorem opTwgen_probe (nu : Num Scalar) (s : State) :
    (opTwgen nu s).probe = s.probe := rfl
@[simp] theorem opTwgen_capture (nu : Num Scalar) (s : State) :
    (opTwgen nu s).capture = s.capture := rfl
@[simp] theorem opTwgen_mono (nu : Num Scalar) (s : State) :
    (opTwgen nu s).mono = s.mono := rfl
@[simp] theorem opTwgen_ssp (nu : Num Scalar) (s : State) :
    (opTwgen nu s).ssp = s.ssp := rfl
@[simp] theorem opTwgen_rsp (nu : Num Scalar) (s : State) :
    (opTwgen nu s).rsp = s.rsp := rfl
@[simp] theorem opTwgen_xsp (nu : Num Scalar) (s : State) :
    (opTwgen nu s).xsp = s.xsp := rfl
@[simp] theorem opTwgen_tw (nu : Num Scalar) (s : State) :
    (opTwgen nu s).tw = bufOfList (twiddleTable nu s.cfg.n) := rfl
@[simp] theorem opTwgen_rxDone (nu : Num Scalar) (s : State) :
    (opTwgen nu s).rxDone = s.rxDone := rfl
@[simp] theorem opTwgen_txDone (nu : Num Scalar) (s : State) :
    (opTwgen nu s).txDone = s.txDone := rfl
@[simp] theorem opTwgen_enRx (nu : Num Scalar) (s : State) :
    (opTwgen nu s).enRx = s.enRx := rfl
@[simp] theorem opTwgen_enTx (nu : Num Scalar) (s : State) :
    (opTwgen nu s).enTx = s.enTx := rfl
@[simp] theorem opTwgen_jobPending (nu : Num Scalar) (s : State) :
    (opTwgen nu s).jobPending = s.jobPending := rfl
@[simp] theorem opTwgen_jstep (nu : Num Scalar) (s : State) :
    (opTwgen nu s).jstep = s.jstep := rfl
@[simp] theorem opTwgen_started (nu : Num Scalar) (s : State) :
    (opTwgen nu s).started = s.started := rfl
@[simp] theorem opTwgen_resultValid (nu : Num Scalar) (s : State) :
    (opTwgen nu s).resultValid = s.resultValid := rfl
@[simp] theorem opTwgen_twValid (nu : Num Scalar) (s : State) :
    (opTwgen nu s).twValid = false := rfl
@[simp] theorem opTwgen_cmdErr (nu : Num Scalar) (s : State) :
    (opTwgen nu s).cmdErr = s.cmdErr := rfl
@[simp] theorem opTwgen_result (nu : Num Scalar) (s : State) :
    (opTwgen nu s).result = s.result := rfl
@[simp] theorem opTwgen_index (nu : Num Scalar) (s : State) :
    (opTwgen nu s).index = s.index := rfl
@[simp] theorem opTwgen_bufAddr (nu : Num Scalar) (s : State) :
    (opTwgen nu s).bufAddr = s.bufAddr := rfl
@[simp] theorem opTwgen_jobs (nu : Num Scalar) (s : State) :
    (opTwgen nu s).jobs = s.jobs := rfl
@[simp] theorem opTwgen_rxDma (nu : Num Scalar) (s : State) :
    (opTwgen nu s).rxDma = s.rxDma := rfl
@[simp] theorem opTwgen_txDma (nu : Num Scalar) (s : State) :
    (opTwgen nu s).txDma = s.txDma := rfl
@[simp] theorem opTwgen_txData (nu : Num Scalar) (s : State) :
    (opTwgen nu s).txData = s.txData := rfl
@[simp] theorem opTwgen_cfgLog (nu : Num Scalar) (s : State) :
    (opTwgen nu s).cfgLog = s.cfgLog := rfl
@[simp] theorem opTwgen_readData (nu : Num Scalar) (s : State) :
    (opTwgen nu s).readData = s.readData := rfl
@[simp] theorem opTwgen_inputs (nu : Num Scalar) (s : State) :
    (opTwgen nu s).inputs = s.inputs := rfl

/-! ### `opPeak nu x s` -/

@[simp] theorem opPeak_cfg (nu : Num Scalar) (x : Spectrum) (s : State) :
    (opPeak nu x s).cfg = s.cfg := rfl
@[simp] theorem opPeak_probe (nu : Num Scalar) (x : Spectrum) (s : State) :
    (opPeak nu x s).probe = s.probe := rfl
@[simp] theorem opPeak_capture (nu : Num Scalar) (x : Spectrum) (s : State) :
    (opPeak nu x s).capture = s.capture := rfl
@[simp] theorem opPeak_mono (nu : Num Scalar) (x : Spectrum) (s : State) :
    (opPeak nu x s).mono = s.mono := rfl
@[simp] theorem opPeak_ssp (nu : Num Scalar) (x : Spectrum) (s : State) :
    (opPeak nu x s).ssp = s.ssp := rfl
@[simp] theorem opPeak_rsp (nu : Num Scalar) (x : Spectrum) (s : State) :
    (opPeak nu x s).rsp = s.rsp := rfl
@[simp] theorem opPeak_xsp (nu : Num Scalar) (x : Spectrum) (s : State) :
    (opPeak nu x s).xsp = s.xsp := rfl
@[simp] theorem opPeak_tw (nu : Num Scalar) (x : Spectrum) (s : State) :
    (opPeak nu x s).tw = s.tw := rfl
@[simp] theorem opPeak_rxDone (nu : Num Scalar) (x : Spectrum) (s : State) :
    (opPeak nu x s).rxDone = s.rxDone := rfl
@[simp] theorem opPeak_txDone (nu : Num Scalar) (x : Spectrum) (s : State) :
    (opPeak nu x s).txDone = s.txDone := rfl
@[simp] theorem opPeak_enRx (nu : Num Scalar) (x : Spectrum) (s : State) :
    (opPeak nu x s).enRx = s.enRx := rfl
@[simp] theorem opPeak_enTx (nu : Num Scalar) (x : Spectrum) (s : State) :
    (opPeak nu x s).enTx = s.enTx := rfl
@[simp] theorem opPeak_jobPending (nu : Num Scalar) (x : Spectrum) (s : State) :
    (opPeak nu x s).jobPending = s.jobPending := rfl
@[simp] theorem opPeak_jstep (nu : Num Scalar) (x : Spectrum) (s : State) :
    (opPeak nu x s).jstep = s.jstep := rfl
@[simp] theorem opPeak_started (nu : Num Scalar) (x : Spectrum) (s : State) :
    (opPeak nu x s).started = s.started := rfl
@[simp] theorem opPeak_resultValid (nu : Num Scalar) (x : Spectrum) (s : State) :
    (opPeak nu x s).resultValid = s.resultValid := rfl
@[simp] theorem opPeak_twValid (nu : Num Scalar) (x : Spectrum) (s : State) :
    (opPeak nu x s).twValid = s.twValid := rfl
@[simp] theorem opPeak_cmdErr (nu : Num Scalar) (x : Spectrum) (s : State) :
    (opPeak nu x s).cmdErr = s.cmdErr := rfl
@[simp] theorem opPeak_result (nu : Num Scalar) (x : Spectrum) (s : State) :
    (opPeak nu x s).result = s.result := rfl
@[simp] theorem opPeak_index (nu : Num Scalar) (x : Spectrum) (s : State) :
    (opPeak nu x s).index = BitVec.ofNat 32 (peakIndex nu s.cfg.responseMono (spectrumList s x)) := rfl
@[simp] theorem opPeak_bufAddr (nu : Num Scalar) (x : Spectrum) (s : State) :
    (opPeak nu x s).bufAddr = s.bufAddr := rfl
@[simp] theorem opPeak_jobs (nu : Num Scalar) (x : Spectrum) (s : State) :
    (opPeak nu x s).jobs = s.jobs := rfl
@[simp] theorem opPeak_rxDma (nu : Num Scalar) (x : Spectrum) (s : State) :
    (opPeak nu x s).rxDma = s.rxDma := rfl
@[simp] theorem opPeak_txDma (nu : Num Scalar) (x : Spectrum) (s : State) :
    (opPeak nu x s).txDma = s.txDma := rfl
@[simp] theorem opPeak_txData (nu : Num Scalar) (x : Spectrum) (s : State) :
    (opPeak nu x s).txData = s.txData := rfl
@[simp] theorem opPeak_cfgLog (nu : Num Scalar) (x : Spectrum) (s : State) :
    (opPeak nu x s).cfgLog = s.cfgLog := rfl
@[simp] theorem opPeak_readData (nu : Num Scalar) (x : Spectrum) (s : State) :
    (opPeak nu x s).readData = s.readData := rfl
@[simp] theorem opPeak_inputs (nu : Num Scalar) (x : Spectrum) (s : State) :
    (opPeak nu x s).inputs = s.inputs := rfl

end Sys2Proof.Machine
end

