-- ==== Sys2Proof/Laws/Exec.lean ====
section
/-!
SUPPORT. What a command and a step can do, said once: `exec` is the acceptance test followed by the
command's effect, and a step takes one input or lets the job move.
-/

namespace Sys2Proof.Machine

open Sys2Proof

/-- The effect a command has when it is performed. -/
def effect (i : Instr) (s : State) : State :=
  match i with
  | .start => opStart s.cfg.ops s
  | .synth => opSynth s.cfg.ops s
  | .downmix => opDownmix s
  | .corrt => opCorrt s
  | .corrf => opCorrf s.cfg.ops s
  | .todist => opTodist s.cfg.ops s
  | .twgen => opTwgen s.cfg.ops s
  | .bitrev d => match scalarOperand d with
    | some x => opBitrev x s
    | none => s
  | .fft d => match spectrumOperand d with
    | some x => opFft s.cfg.ops x s
    | none => s
  | .ifft d => match spectrumOperand d with
    | some x => opIfft s.cfg.ops x s
    | none => s
  | .cmul d a b => match spectrumOperand d, spectrumOperand a, spectrumOperand b with
    | some x, some y, some z => opCmul s.cfg.ops x y z s
    | _, _, _ => s
  | .padp => opPadp s.cfg.ops s
  | .pade => opPade s.cfg.ops s
  | .peak d => match spectrumOperand d with
    | some x => opPeak s.cfg.ops x s
    | none => s

theorem isSpectrum_iff (d : BufId) : d.isSpectrum = (spectrumOperand d).isSome := by
  cases d <;> rfl

theorem isPermutable_iff (d : BufId) : d.isPermutable = (scalarOperand d).isSome := by
  cases d <;> rfl

/-- Every command is the acceptance test of R99 followed by its effect. -/
theorem exec_eq (i : Instr) (s : State) : exec i s = acceptCommand i.wellFormed (effect i) s := by
  cases i with
  | bitrev d => cases d <;> rfl
  | fft d => cases d <;> rfl
  | ifft d => cases d <;> rfl
  | peak d => cases d <;> rfl
  | cmul d a b => cases d <;> cases a <;> cases b <;> rfl
  | _ => rfl

/-- A command that is performed. -/
theorem exec_of_idle {i : Instr} {s : State} (hw : i.wellFormed = true) (h : cstate s = .idle) :
    exec i s = .next (effect i s) := by
  rw [exec_eq, acceptCommand, if_pos ⟨hw, h⟩]

/-- The two ends of a command: performed in `IDLE`, or refused. -/
theorem exec_cases {i : Instr} {s t : State} (h : exec i s = .next t) :
    (cstate s = .idle ∧ i.wellFormed = true ∧ t = effect i s) ∨ t = refuseAccess s := by
  rw [exec_eq, acceptCommand] at h
  split at h
  · next hc => cases h; exact .inl ⟨hc.2, hc.1, rfl⟩
  · cases h; exact .inr rfl

/-- `IDLE` is the state before `START`. -/
theorem cstate_idle_iff (s : State) : cstate s = .idle ↔ s.started = false := by
  unfold cstate
  constructor
  · intro h
    by_contra hs
    rw [if_neg hs] at h
    split at h
    · cases h
    · split at h
      · cases h
      · split at h <;> cases h
  · intro h; rw [if_pos h]

/-- A step with an input left takes it; without one the job moves. -/
theorem step_cons {s : State} {i : Input} {rest : List Input} (h : s.inputs = i :: rest) :
    step s = perform i.action (deliver i { s with inputs := rest }) := by
  simp [step, nextStep, h]

theorem step_nil {s : State} (h : s.inputs = []) : step s = .next (jobStep s.cfg.ops s) := by
  simp [step, nextStep, h]

/-- An input that carries no notification delivers nothing. -/
@[simp] theorem deliver_none (a : Action) (s : State) : deliver ⟨false, false, a⟩ s = s := rfl

/-- The handler as one update of the fields it writes (R143), once `START` has been accepted. -/
theorem notify_rx {s : State} (h : s.started = true) :
    notify .rx s = { s with
      rxDone := !s.txDone
      txDone := false
      enRx := false
      jobPending := s.jobPending || s.txDone
      rxDma := { s.rxDma with owed := false } } := by
  cases htx : s.txDone <;> simp [notify, h, postJob, completeChannel, htx]

theorem notify_tx {s : State} (h : s.started = true) :
    notify .tx s = { s with
      txDone := !s.rxDone
      rxDone := false
      enTx := false
      jobPending := s.jobPending || s.rxDone
      txDma := { s.txDma with owed := false } } := by
  cases hrx : s.rxDone <;> simp [notify, h, postJob, completeChannel, hrx]

/-- Before `START` a notification changes nothing (R157). -/
theorem notify_of_not_started {s : State} (h : s.started = false) (d : Channel) :
    notify d s = s := by
  simp [notify, h]

/-- What the handler never touches: everything but the flags, the enables, the posted job and the
notifications owed (R143). -/
theorem notify_frame (d : Channel) (s : State) :
    ∃ (a b c e f : Bool) (g h : DmaChannel), notify d s = { s with
      rxDone := a, txDone := b, enRx := c, enTx := e, jobPending := f, rxDma := g, txDma := h } := by
  rcases Bool.eq_false_or_eq_true s.started with hs | hs
  rotate_left
  · exact ⟨s.rxDone, s.txDone, s.enRx, s.enTx, s.jobPending, s.rxDma, s.txDma,
      notify_of_not_started hs d⟩
  · cases d
    · exact ⟨_, _, _, s.enTx, _, _, s.txDma, notify_rx hs⟩
    · exact ⟨_, _, s.enRx, _, _, s.rxDma, _, notify_tx hs⟩

/-- The same of an input's notifications. -/
theorem deliver_frame (i : Input) (s : State) :
    ∃ (a b c e f : Bool) (g h : DmaChannel), deliver i s = { s with
      rxDone := a, txDone := b, enRx := c, enTx := e, jobPending := f, rxDma := g, txDma := h } := by
  obtain ⟨rx, tx, act⟩ := i
  cases rx <;> cases tx
  · exact ⟨s.rxDone, s.txDone, s.enRx, s.enTx, s.jobPending, s.rxDma, s.txDma, rfl⟩
  · exact notify_frame .tx s
  · exact notify_frame .rx s
  · obtain ⟨a, b, c, e, f, g, h, h1⟩ := notify_frame .rx s
    obtain ⟨a', b', c', e', f', g', h', h2⟩ := notify_frame .tx (notify .rx s)
    exact ⟨a', b', c', e', f', g', h', by
      show notify .tx (notify .rx s) = _
      rw [h2, h1]⟩

/-- `t` is `s` after computing: nothing but `MONO`, the spectra, the table and its validity, `INDEX`,
`RESULT` and `RESULT_VALID` differ, and `RESULT_VALID` is not cleared. -/
def ComputesOnly (s t : State) : Prop :=
  ∃ (m : Buf Sample) (a b c d : Buf Scalar) (v rv : Bool) (r ix : Word), t = { s with
    mono := m, ssp := a, rsp := b, xsp := c, tw := d, twValid := v, resultValid := rv, result := r,
    index := ix } ∧ (s.resultValid = true → rv = true)

theorem ComputesOnly.refl (s : State) : ComputesOnly s s :=
  ⟨s.mono, s.ssp, s.rsp, s.xsp, s.tw, s.twValid, s.resultValid, s.result, s.index, rfl, id⟩

theorem ComputesOnly.trans {s t u : State} (h1 : ComputesOnly s t) (h2 : ComputesOnly t u) :
    ComputesOnly s u := by
  obtain ⟨m, a, b, c, d, v, rv, r, ix, rfl, h1⟩ := h1
  obtain ⟨m', a', b', c', d', v', rv', r', ix', rfl, h2⟩ := h2
  exact ⟨m', a', b', c', d', v', rv', r', ix', rfl, fun h => h2 (h1 h)⟩

/-- `t` is `s` after work on the spectra: nothing but the spectra, the table and its validity, and
`INDEX` differ. -/
def SpectraOnly (s t : State) : Prop :=
  ∃ (a b c d : Buf Scalar) (v : Bool) (ix : Word), t = { s with
    ssp := a, rsp := b, xsp := c, tw := d, twValid := v, index := ix }

theorem SpectraOnly.refl (s : State) : SpectraOnly s s :=
  ⟨s.ssp, s.rsp, s.xsp, s.tw, s.twValid, s.index, rfl⟩

theorem SpectraOnly.trans {s t u : State} (h1 : SpectraOnly s t) (h2 : SpectraOnly t u) :
    SpectraOnly s u := by
  obtain ⟨a, b, c, d, v, ix, rfl⟩ := h1
  obtain ⟨a', b', c', d', v', ix', rfl⟩ := h2
  exact ⟨a', b', c', d', v', ix', rfl⟩

theorem SpectraOnly.computes {s t : State} (h : SpectraOnly s t) : ComputesOnly s t := by
  obtain ⟨a, b, c, d, v, ix, rfl⟩ := h
  exact ⟨s.mono, a, b, c, d, v, s.resultValid, s.result, ix, rfl, id⟩

theorem spectraOnly_setSpectrum (s : State) (x : Spectrum) (l : List Scalar) :
    SpectraOnly s (setSpectrum s x l) := by
  cases x
  · exact ⟨_, s.rsp, s.xsp, s.tw, s.twValid, s.index, rfl⟩
  · exact ⟨s.ssp, _, s.xsp, s.tw, s.twValid, s.index, rfl⟩
  · exact ⟨s.ssp, s.rsp, _, s.tw, s.twValid, s.index, rfl⟩

theorem spectraOnly_setTable (s : State) (b : Buf Scalar) (v : Bool) :
    SpectraOnly s { s with tw := b, twValid := v } :=
  ⟨s.ssp, s.rsp, s.xsp, b, v, s.index, rfl⟩

theorem spectraOnly_setIndex (s : State) (i : Word) : SpectraOnly s { s with index := i } :=
  ⟨s.ssp, s.rsp, s.xsp, s.tw, s.twValid, i, rfl⟩

theorem spectraOnly_bitrev (b : ScalarBuf) (s : State) : SpectraOnly s (opBitrev b s) := by
  cases b with
  | spectrum x => exact spectraOnly_setSpectrum s x _
  | tw => exact spectraOnly_setTable s _ _

theorem spectraOnly_prepareTable (nu : Num Scalar) (s : State) : SpectraOnly s (prepareTable nu s) := by
  unfold prepareTable
  split
  · exact spectraOnly_setTable s _ _
  · exact .refl s

theorem spectraOnly_corrf (nu : Num Scalar) (s : State) : SpectraOnly s (opCorrf nu s) := by
  unfold opCorrf
  refine .trans ?_ (spectraOnly_setIndex _ _)
  refine .trans ?_ (spectraOnly_setSpectrum _ _ _)
  refine .trans ?_ (spectraOnly_setSpectrum _ _ _)
  refine .trans ?_ (spectraOnly_setSpectrum _ _ _)
  refine .trans ?_ (spectraOnly_setSpectrum _ _ _)
  refine .trans ?_ (spectraOnly_prepareTable _ _)
  refine .trans ?_ (spectraOnly_setSpectrum _ _ _)
  exact spectraOnly_setSpectrum _ _ _

theorem spectraOnly_correlate (nu : Num Scalar) (s : State) : SpectraOnly s (opCorrelate nu s) := by
  unfold opCorrelate
  split
  · exact spectraOnly_setIndex _ _
  · exact spectraOnly_corrf nu s

theorem computesOnly_downmix (s : State) : ComputesOnly s (opDownmix s) :=
  ⟨_, s.ssp, s.rsp, s.xsp, s.tw, s.twValid, s.resultValid, s.result, s.index, rfl, id⟩

theorem computesOnly_todist (nu : Num Scalar) (s : State) : ComputesOnly s (opTodist nu s) :=
  ⟨s.mono, s.ssp, s.rsp, s.xsp, s.tw, s.twValid, true, _, s.index, rfl, fun _ => rfl⟩

/-- Every command but `START` and `SYNTH` only computes. -/
theorem computesOnly_effect {i : Instr} (h1 : i ≠ .start) (h2 : i ≠ .synth) (s : State) :
    ComputesOnly s (effect i s) := by
  cases i with
  | start => exact absurd rfl h1
  | synth => exact absurd rfl h2
  | downmix => exact computesOnly_downmix s
  | corrt => exact (spectraOnly_setIndex s _).computes
  | corrf => exact (spectraOnly_corrf _ s).computes
  | todist => exact computesOnly_todist _ s
  | twgen => exact (spectraOnly_setTable s _ _).computes
  | padp => exact (spectraOnly_setSpectrum s .ssp _).computes
  | pade => exact (spectraOnly_setSpectrum s .rsp _).computes
  | bitrev d =>
    simp only [effect]
    split
    · exact (spectraOnly_bitrev _ s).computes
    · exact .refl s
  | fft d | ifft d | cmul d a b =>
    simp only [effect]
    split
    · exact (spectraOnly_setSpectrum s _ _).computes
    · exact .refl s
  | peak d =>
    simp only [effect]
    split
    · exact (spectraOnly_setIndex s _).computes
    · exact .refl s

/-- What the part of an input beside its notifications can do: `Took u a t` says that action `a` takes
state `u` to `t`. -/
inductive Took (u : State) : Action → State → Prop where
  | nothing : Took u .nothing u
  | job : Took u .job (jobStep u.cfg.ops u)
  | reset : Took u .reset (resetCore u)
  | rxWrite (k : Nat) (v : Sample) : u.enRx = true → u.jstep.computing = false →
      k < u.cfg.responseLen → Took u (.rxWrite k v) { u with capture := bufWrite u.capture k v }
  | txRead (k : Nat) : u.enTx = true → u.jstep.computing = false → k < u.cfg.sweepLen →
      Took u (.txRead k) { u with txData := bufRead u.probe k }
  | read (a : HostAccess) (v : Word) : Took u (.access a) { u with readData := v }
  | ignored (a : HostAccess) : Took u (.access a) u
  | refused (a : HostAccess) : Took u (.access a) (refuseAccess u)
  | refusedRead (a : HostAccess) : Took u (.access a) { refuseAccess u with readData := 0 }
  | command (a : HostAccess) (i : Instr) : cstate u = .idle → i.wellFormed = true →
      Took u (.access a) (effect i u)
  | index (a : HostAccess) (v : Word) : cstate u = .idle → Took u (.access a) { u with index := v }
  | bufAddr (a : HostAccess) (v : Word) : Took u (.access a) { u with bufAddr := v }
  | window (a : HostAccess) (b : BufId) (k : Nat) (v : Word) : cstate u = .idle →
      k < bufLen u.cfg b → Took u (.access a) (writeElement u b k v)

theorem windowTarget_eq_some {s : State} {b : BufId} {k : Nat} (h : windowTarget s = some (b, k)) :
    cstate s = .idle ∧ k < bufLen s.cfg b := by
  unfold windowTarget at h
  split at h
  · next hc =>
    split at h
    · split at h
      · next hk => cases h; exact ⟨hc, hk⟩
      · cases h
    · cases h
  · cases h

theorem hostRead_took (a : HostAccess) (r : HostReg) (u : State) :
    Took u (.access a) (hostRead r u) := by
  cases r with
  | bufData =>
    simp only [hostRead, readWindow]
    split
    · exact .read _ _
    · exact .refusedRead _
  | _ => exact .read _ _

theorem hostWrite_took {a : HostAccess} {r : HostReg} {v : Word} {u t : State}
    (h : hostWrite r v u = .next t) : Took u (.access a) t := by
  cases r with
  | cmd =>
    simp only [hostWrite, writeCommand] at h
    split at h
    · rcases exec_cases h with ⟨h1, h2, rfl⟩ | rfl
      · exact .command _ _ h1 h2
      · exact .refused _
    · cases h; exact .refused _
  | index =>
    cases h
    unfold writeIndex
    split
    · next hc => exact .index _ _ hc
    · exact .refused _
  | bufAddr => cases h; exact .bufAddr _ _
  | bufData =>
    cases h
    unfold writeWindow
    split
    · next hw => exact .window _ _ _ _ (windowTarget_eq_some hw).1 (windowTarget_eq_some hw).2
    · exact .refused _
  | _ => cases h; exact .ignored _

theorem perform_took {a : Action} {u t : State} (h : perform a u = .next t) : Took u a t := by
  cases a with
  | nothing => cases h; exact .nothing
  | job => cases h; exact .job
  | reset => cases h; exact .reset
  | rxWrite k v =>
    simp only [perform, rxWrite] at h
    split at h
    · cases h
    · next hc =>
      split at h
      · next hk => cases h; exact .rxWrite k v (by simp_all) (by simp_all) hk
      · cases h
  | txRead k =>
    simp only [perform, txRead] at h
    split at h
    · cases h
    · next hc =>
      split at h
      · next hk => cases h; exact .txRead k (by simp_all) (by simp_all) hk
      · cases h
  | access a =>
    cases a with
    | read o b =>
      simp only [perform, hostAccess] at h
      split at h
      · cases h; exact hostRead_took _ _ u
      · cases h
    | write o b v =>
      simp only [perform, hostAccess] at h
      split at h
      · exact hostWrite_took h
      · cases h

/-- Everything a step that ends in a next state can have done: the job moved because no input was
left, or an input was taken, its notifications first. -/
theorem step_cases {s t : State} (h : step s = .next t) :
    (s.inputs = [] ∧ t = jobStep s.cfg.ops s) ∨
    ∃ i rest, s.inputs = i :: rest ∧ Took (deliver i { s with inputs := rest }) i.action t := by
  rcases hi : s.inputs with _ | ⟨i, rest⟩
  · rw [step_nil hi] at h; cases h; exact .inl ⟨rfl, rfl⟩
  · rw [step_cons hi] at h; exact .inr ⟨i, rest, rfl, perform_took h⟩

/-- What a command's effect touches: `START` and `SYNTH` write the probe, and `START` then arms; every
other command only computes. -/
theorem effect_cases (i : Instr) (s : State) :
    ComputesOnly s (effect i s) ∨ (∃ p, effect i s = { s with probe := p }) ∨
    ∃ p, effect i s = { arm { s with probe := p } with started := true } := by
  by_cases h1 : i = .start
  · subst h1; exact .inr (.inr ⟨_, rfl⟩)
  by_cases h2 : i = .synth
  · subst h2; exact .inr (.inl ⟨_, rfl⟩)
  exact .inl (computesOnly_effect h1 h2 s)

/-- The job's next step: the dispatch, nothing, a computing micro-step, or an action of the
re-arm. -/
theorem jobStep_cases (s : State) :
    (s.jstep = .stopped ∧ s.jobPending = true ∧
      jobStep s.cfg.ops s = { s with jobPending := false, jstep := .downmix }) ∨
    (s.jstep = .stopped ∧ s.jobPending = false ∧ jobStep s.cfg.ops s = s) ∨
    (∃ u j, ComputesOnly s u ∧ jobStep s.cfg.ops s = { u with jstep := j } ∧
      s.jstep.computing = true ∧ j.code = s.jstep.code + 1 ∧
      (j.computing = true ∨ j = .rearm .clearFlags)) ∨
    (∃ a, s.jstep = .rearm a ∧ jobStep s.cfg.ops s = rearmStep a s) := by
  rcases hj : s.jstep with _ | _ | _ | _ | a
  · by_cases hp : s.jobPending = true <;> simp [jobStep, hj, hp]
  · exact .inr (.inr (.inl ⟨_, .correlate, computesOnly_downmix s, by simp [jobStep, hj], rfl,
      by decide, .inl rfl⟩))
  · exact .inr (.inr (.inl ⟨_, .convert, (spectraOnly_correlate s.cfg.ops s).computes, by simp [jobStep, hj],
      rfl, by decide, .inl rfl⟩))
  · exact .inr (.inr (.inl ⟨_, .rearm .clearFlags, computesOnly_todist s.cfg.ops s,
      by simp [jobStep, hj], rfl, by decide, .inr rfl⟩))
  · exact .inr (.inr (.inr ⟨a, rfl, by simp [jobStep, hj]⟩))

/-- What a window write touches: the contents of buffers and `TW_VALID`. -/
theorem writeElement_frame (s : State) (b : BufId) (k : Nat) (v : Word) :
    ∃ (p q m : Buf Sample) (x y z w : Buf Scalar) (tv : Bool), writeElement s b k v = { s with
      probe := p, capture := q, mono := m, ssp := x, rsp := y, xsp := z, tw := w,
      twValid := tv } := by
  cases b
  · exact ⟨_, s.capture, s.mono, s.ssp, s.rsp, s.xsp, s.tw, s.twValid, rfl⟩
  · exact ⟨s.probe, _, s.mono, s.ssp, s.rsp, s.xsp, s.tw, s.twValid, rfl⟩
  · exact ⟨s.probe, s.capture, _, s.ssp, s.rsp, s.xsp, s.tw, s.twValid, rfl⟩
  · exact ⟨s.probe, s.capture, s.mono, _, s.rsp, s.xsp, s.tw, s.twValid, rfl⟩
  · exact ⟨s.probe, s.capture, s.mono, s.ssp, _, s.xsp, s.tw, s.twValid, rfl⟩
  · exact ⟨s.probe, s.capture, s.mono, s.ssp, s.rsp, _, s.tw, s.twValid, rfl⟩
  · exact ⟨s.probe, s.capture, s.mono, s.ssp, s.rsp, s.xsp, _, _, rfl⟩

end Sys2Proof.Machine
end

