-- ==== Sys2Proof/Laws/Flags.lean ====
section
/-!
SUPPORT. The bits of the `STATUS` word, one by one (R25).
-/

namespace Sys2Proof.Machine

open Sys2Proof

/-- Bit `k` of the word `STATUS` is put together as. -/
theorem statusLayout_getLsbD (c : BitVec 3) (a0 a1 a2 a3 a4 a5 a6 a7 a8 a9 a10 : Bool) (k : Nat) :
    ((0 : BitVec 17) ++ c ++ (0 : BitVec 1) ++ BitVec.ofBool a10 ++ BitVec.ofBool a9 ++
      BitVec.ofBool a8 ++ BitVec.ofBool a7 ++ BitVec.ofBool a6 ++ BitVec.ofBool a5 ++
      BitVec.ofBool a4 ++ BitVec.ofBool a3 ++ BitVec.ofBool a2 ++ BitVec.ofBool a1 ++
      BitVec.ofBool a0).getLsbD k =
    match k with
    | 0 => a0
    | 1 => a1
    | 2 => a2
    | 3 => a3
    | 4 => a4
    | 5 => a5
    | 6 => a6
    | 7 => a7
    | 8 => a8
    | 9 => a9
    | 10 => a10
    | 11 => false
    | k + 12 => c.getLsbD k := by
  rcases k with _ | _ | _ | _ | _ | _ | _ | _ | _ | _ | _ | _ | k
  case succ.succ.succ.succ.succ.succ.succ.succ.succ.succ.succ.succ =>
    simp only [BitVec.getLsbD_append, BitVec.getLsbD_ofBool]
    norm_num
    intro h
    rw [BitVec.getLsbD_of_ge c k h]
    exact BitVec.getLsbD_zero
  case succ.succ.succ.succ.succ.succ.succ.succ.succ.succ.succ.zero =>
    simp only [BitVec.getLsbD_append, BitVec.getLsbD_ofBool]
    norm_num
    rfl
  all_goals
    simp only [BitVec.getLsbD_append, BitVec.getLsbD_ofBool]
    norm_num

/-- Bit `k` of `STATUS`. -/
theorem statusWord_getLsbD (s : State) (k : Nat) :
    (statusWord s).getLsbD k =
    match k with
    | 0 => s.rxDone
    | 1 => s.txDone
    | 2 => s.enRx
    | 3 => s.enTx
    | 4 => s.jobPending
    | 5 => jobRunning s
    | 6 => s.started
    | 7 => s.resultValid
    | 8 => s.twValid
    | 9 => s.cmdErr
    | 10 => s.cfg.strategy == .freq
    | 11 => false
    | k + 12 => (cstate s).code.getLsbD k :=
  statusLayout_getLsbD _ _ _ _ _ _ _ _ _ _ _ _ k

/-- `JOB_RUNNING` says that `JSTEP` is not 0 (R23). -/
theorem jobRunning_iff (s : State) : jobRunning s = true ↔ s.jstep ≠ .stopped := by
  cases h : s.jstep <;> simp [jobRunning, JobStep.code, h]

end Sys2Proof.Machine
end

