-- ==== Sys2Proof/Laws/Float32.lean ====
section
/-!
SUPPORT. Whatever the free values are, the NaN an operation produces is a NaN (R17), and the `Num` of
every legal configuration obeys the laws the spec states (R13, R16, R17, R39, R122, R200, R240, R272).
-/

namespace Sys2Proof.Machine

open Sys2Proof

theorem toNat_withSign (neg : Bool) (m : Nat) (h : m < 2 ^ 31) :
    (withSign neg m).toNat = (if neg then 2 ^ 31 else 0) + m := by
  rw [withSign, BitVec.toNat_ofNat]
  cases neg <;> simp <;> omega

/-- Every pattern made by `nanFrom` is a NaN. -/
theorem unpack_nanFrom (p : Word) : unpack (nanFrom p) = .nan := by
  have hf : fractionOf p < 2 ^ 23 := Nat.mod_lt _ (by norm_num)
  have key : ∀ (neg : Bool) (f : Nat), 0 < f → f < 2 ^ 23 →
      unpack (withSign neg (0x7F800000 + f)) = .nan := by
    intro neg f h0 h1
    have ht := toNat_withSign neg (0x7F800000 + f) (by omega)
    have he : exponentOf (withSign neg (0x7F800000 + f)) = 255 := by
      rw [exponentOf, ht]; cases neg <;> simp <;> omega
    have hr : fractionOf (withSign neg (0x7F800000 + f)) ≠ 0 := by
      rw [fractionOf, ht]; cases neg <;> simp <;> omega
    rw [unpack, if_pos he, if_neg hr]
  unfold nanFrom
  split
  · exact key _ _ (by norm_num) (by norm_num)
  · exact key _ _ (by omega) hf

@[simp] theorem unpack_producedNaN (op : NumOp) (a b : Word) : unpack (producedNaN op a b) = .nan :=
  unpack_nanFrom _

@[simp] theorem floatScaledPart_producedNaN (k : Nat) (op : NumOp) (a b : Word) :
    floatScaledPart k (producedNaN op a b) = .nan := by
  simp [floatScaledPart]

/-- The integer part of a finite pattern (R122). -/
theorem floatScaledPart_zero_of_fin {w : Word} {s : Bool} {m : Nat} {e : Int}
    (h : unpack w = .fin s m e) : floatScaledPart 0 w =
      let q : Int := if 0 ≤ e then (m * 2 ^ e.toNat : Nat) else (m / 2 ^ (-e).toNat : Nat)
      .int (if s then -q else q) := by
  simp [floatScaledPart, h]

theorem isNaN_iff (k : Nat) (w : Word) : isNaN w = true ↔ floatScaledPart k w = .nan := by
  by_cases h1 : exponentOf w = 255
  · by_cases h2 : fractionOf w = 0
    · cases hs : signOf w <;> simp [isNaN, floatScaledPart, unpack, h1, h2, hs]
    · simp [isNaN, floatScaledPart, unpack, h1, h2]
  · by_cases h2 : exponentOf w = 0 <;> simp [isNaN, floatScaledPart, unpack, h1, h2]

/-- A pattern's number read back is the pattern. -/
@[simp] theorem ofNat_toNat_word (w : Word) : BitVec.ofNat 32 w.toNat = w := by simp

/-! ### The default instance, operation by operation -/

@[simp] theorem binary32_fadd (a b : Scalar) : NumFormat.binary32.ops.fadd a b =
    (floatAdd (BitVec.ofNat 32 a) (BitVec.ofNat 32 b)).toNat := rfl
@[simp] theorem binary32_fsub (a b : Scalar) : NumFormat.binary32.ops.fsub a b =
    (floatSub (BitVec.ofNat 32 a) (BitVec.ofNat 32 b)).toNat := rfl
@[simp] theorem binary32_fmul (a b : Scalar) : NumFormat.binary32.ops.fmul a b =
    (floatMul (BitVec.ofNat 32 a) (BitVec.ofNat 32 b)).toNat := rfl
@[simp] theorem binary32_fdiv (a b : Scalar) : NumFormat.binary32.ops.fdiv a b =
    (floatDiv (BitVec.ofNat 32 a) (BitVec.ofNat 32 b)).toNat := rfl
@[simp] theorem binary32_fsqrt (a : Scalar) : NumFormat.binary32.ops.fsqrt a =
    (floatSqrt (BitVec.ofNat 32 a)).toNat := rfl
@[simp] theorem binary32_fcos (a : Scalar) : NumFormat.binary32.ops.fcos a =
    (floatCos (BitVec.ofNat 32 a)).toNat := rfl
@[simp] theorem binary32_fsin (a : Scalar) : NumFormat.binary32.ops.fsin a =
    (floatSin (BitVec.ofNat 32 a)).toNat := rfl
@[simp] theorem binary32_i2f (z : Int) : NumFormat.binary32.ops.i2f z = (floatOfInt z).toNat := rfl
@[simp] theorem binary32_fgt (a b : Scalar) : NumFormat.binary32.ops.fgt a b =
    floatGt (BitVec.ofNat 32 a) (BitVec.ofNat 32 b) := rfl
@[simp] theorem binary32_fconst (l : Literal) :
    NumFormat.binary32.ops.fconst l = (floatConst l).toNat := rfl
@[simp] theorem binary32_fzero : NumFormat.binary32.ops.fzero = 0 := rfl
@[simp] theorem binary32_isZero (a : Scalar) :
    NumFormat.binary32.ops.isZero a = floatIsZero (BitVec.ofNat 32 a) := rfl
@[simp] theorem binary32_integerPart (a : Scalar) : NumFormat.binary32.ops.integerPart a =
    floatScaledPart 0 (BitVec.ofNat 32 a) := rfl
@[simp] theorem binary32_bits (a : Scalar) :
    NumFormat.binary32.ops.bits a = BitVec.ofNat 32 a := rfl
@[simp] theorem binary32_unbits (w : Word) : NumFormat.binary32.ops.unbits w = w.toNat := rfl

/-- A configuration's operations when its `Num` is the default one. -/
theorem ops_of_binary32 {c : Config} (h : c.num = .binary32) : c.ops = NumFormat.binary32.ops := by
  rw [Config.ops, h]

/-! ### The number a pattern stands for -/

/-- The magnitude of a finite pattern whose low 31 bits are `n`, in units of `2^-149`. -/
def magnitudeUnits (n : Nat) : Nat :=
  if n / 2 ^ 23 = 0 then n % 2 ^ 23 else (n % 2 ^ 23 + 2 ^ 23) * 2 ^ (n / 2 ^ 23 - 1)

theorem magnitudeUnits_strictMono : StrictMono magnitudeUnits := by
  refine strictMono_nat_of_lt_succ fun n => ?_
  have hf : n % 2 ^ 23 < 2 ^ 23 := Nat.mod_lt _ (by norm_num)
  have hcase : ((n + 1) / 2 ^ 23 = n / 2 ^ 23 ∧ (n + 1) % 2 ^ 23 = n % 2 ^ 23 + 1) ∨
      ((n + 1) / 2 ^ 23 = n / 2 ^ 23 + 1 ∧ (n + 1) % 2 ^ 23 = 0 ∧ n % 2 ^ 23 = 2 ^ 23 - 1) := by
    omega
  unfold magnitudeUnits
  generalize n / 2 ^ 23 = e at *
  generalize n % 2 ^ 23 = f at *
  rcases hcase with ⟨h1, h2⟩ | ⟨h1, h2, h3⟩
  · rw [h1, h2]
    split
    · omega
    · exact Nat.mul_lt_mul_of_pos_right (by omega) (by positivity)
  · rw [h1, h2, h3]
    rcases e with _ | e
    · norm_num
    · rw [if_neg (by omega), if_neg (by omega), Nat.add_sub_cancel, Nat.add_sub_cancel, pow_succ]
      have : 0 < 2 ^ e := by positivity
      omega

/-- The number the pattern of a magnitude stands for: from `0x7F800000` on the infinity. -/
noncomputable def magnitudeValue (n : Nat) : EReal :=
  if n < 0x7F800000 then ((magnitudeUnits n * 2 ^ (-149 : Int) : ℝ) : EReal) else ⊤

/-- The number a pattern that is not a NaN stands for. -/
noncomputable def patternValue (w : Word) : EReal :=
  if signOf w then -magnitudeValue (w.toNat % 2 ^ 31) else magnitudeValue (w.toNat % 2 ^ 31)

theorem magnitudeValue_lt {m n : Nat} (h : m < n) (hn : n ≤ 0x7F800000) :
    magnitudeValue m < magnitudeValue n := by
  unfold magnitudeValue
  rw [if_pos (by omega)]
  split
  · have h1 : (magnitudeUnits m : ℝ) < magnitudeUnits n := by
      exact_mod_cast magnitudeUnits_strictMono h
    exact EReal.coe_lt_coe_iff.2 (mul_lt_mul_of_pos_right h1 (by positivity))
  · exact EReal.coe_lt_top _

@[simp] theorem magnitudeValue_zero : magnitudeValue 0 = 0 := by
  simp [magnitudeValue, magnitudeUnits]

theorem magnitudeValue_pos {n : Nat} (h : 0 < n) (hn : n ≤ 0x7F800000) : 0 < magnitudeValue n := by
  simpa using magnitudeValue_lt h hn

/-- Below a NaN's patterns, the magnitudes are ordered as the numbers they stand for. -/
theorem magnitudeValue_lt_iff {m n : Nat} (hm : m ≤ 0x7F800000) (hn : n ≤ 0x7F800000) :
    magnitudeValue m < magnitudeValue n ↔ m < n := by
  refine ⟨fun h => ?_, fun h => magnitudeValue_lt h hn⟩
  by_contra hc
  rcases Nat.lt_or_eq_of_le (Nat.le_of_not_lt hc) with h1 | h1
  · exact absurd h (not_lt_of_gt (magnitudeValue_lt h1 hm))
  · exact absurd h (by simp [h1])

/-- The fields of a pattern make up its magnitude. -/
theorem magnitude_eq (w : Word) : w.toNat % 2 ^ 31 = exponentOf w * 2 ^ 23 + fractionOf w := by
  unfold exponentOf fractionOf
  omega

/-- The NaNs are the patterns beyond the infinity's. -/
theorem isNaN_iff_magnitude (w : Word) : isNaN w = true ↔ 0x7F800000 < w.toNat % 2 ^ 31 := by
  have hf : fractionOf w < 2 ^ 23 := Nat.mod_lt _ (by norm_num)
  have he : exponentOf w < 256 := Nat.mod_lt _ (by norm_num)
  rw [magnitude_eq]
  simp only [isNaN, Bool.and_eq_true, beq_iff_eq, bne_iff_ne]
  omega

theorem not_nan_iff_magnitude (k : Nat) (w : Word) :
    floatScaledPart k w ≠ .nan ↔ w.toNat % 2 ^ 31 ≤ 0x7F800000 := by
  rw [ne_eq, ← isNaN_iff, isNaN_iff_magnitude, not_lt]

/-- The order key of a pattern orders the numbers. -/
theorem patternValue_lt_iff {a b : Word} (ha : floatScaledPart 0 a ≠ .nan)
    (hb : floatScaledPart 0 b ≠ .nan) : patternValue b < patternValue a ↔ orderKey b < orderKey a := by
  have h1 := (not_nan_iff_magnitude 0 a).1 ha
  have h2 := (not_nan_iff_magnitude 0 b).1 hb
  unfold patternValue orderKey
  generalize a.toNat % 2 ^ 31 = m at *
  generalize b.toNat % 2 ^ 31 = n at *
  have hm : (0 : EReal) ≤ magnitudeValue m := by
    rcases Nat.eq_zero_or_pos m with rfl | h
    · simp
    · exact (magnitudeValue_pos h h1).le
  have hn : (0 : EReal) ≤ magnitudeValue n := by
    rcases Nat.eq_zero_or_pos n with rfl | h
    · simp
    · exact (magnitudeValue_pos h h2).le
  cases signOf a <;> cases signOf b <;> simp only [if_true, Bool.false_eq_true, if_false]
  · rw [magnitudeValue_lt_iff h2 h1]; omega
  · constructor
    · intro h
      by_contra hc
      obtain ⟨rfl, rfl⟩ : m = 0 ∧ n = 0 := by omega
      simp at h
    · intro h
      rcases Nat.eq_zero_or_pos m with h0 | h0
      · have := magnitudeValue_pos (n := n) (by omega) h2
        exact lt_of_lt_of_le (by simpa using this) hm
      · exact lt_of_le_of_lt (by simpa using hn) (magnitudeValue_pos h0 h1)
  · constructor
    · intro h
      exact absurd (lt_of_le_of_lt hn h) (not_lt_of_ge (by simpa using hm))
    · intro h; omega
  · rw [EReal.neg_lt_neg_iff, magnitudeValue_lt_iff h1 h2]; omega

theorem patternValue_of_magnitude {w : Word} {n : Nat} (h : w.toNat % 2 ^ 31 = n) :
    patternValue w = if signOf w then -magnitudeValue n else magnitudeValue n := by
  rw [patternValue, h]

/-- A pattern taken apart as an infinity. -/
theorem unpack_eq_inf {w : Word} {s : Bool} (h : unpack w = .inf s) :
    signOf w = s ∧ w.toNat % 2 ^ 31 = 0x7F800000 := by
  unfold unpack at h
  split at h
  · next he =>
    split at h
    · next hf => cases h; exact ⟨rfl, by rw [magnitude_eq, he, hf]; rfl⟩
    · cases h
  · split at h <;> cases h

/-- A pattern taken apart as a finite value `± m · 2^e`. -/
theorem unpack_eq_fin {w : Word} {s : Bool} {m : Nat} {e : Int} (h : unpack w = .fin s m e) :
    signOf w = s ∧ w.toNat % 2 ^ 31 < 0x7F800000 ∧
    (magnitudeUnits (w.toNat % 2 ^ 31) * 2 ^ (-149 : Int) : ℝ) = m * 2 ^ e := by
  have hf : fractionOf w < 2 ^ 23 := Nat.mod_lt _ (by norm_num)
  have he : exponentOf w < 256 := Nat.mod_lt _ (by norm_num)
  have hdiv : (w.toNat % 2 ^ 31) / 2 ^ 23 = exponentOf w := by rw [magnitude_eq]; omega
  have hmod : (w.toNat % 2 ^ 31) % 2 ^ 23 = fractionOf w := by rw [magnitude_eq]; omega
  unfold unpack at h
  split at h
  · split at h <;> cases h
  · next h255 =>
    rw [magnitudeUnits, hdiv, hmod]
    split at h
    · next h0 =>
      cases h
      exact ⟨rfl, by rw [magnitude_eq]; omega, by rw [if_pos h0]⟩
    · next h0 =>
      cases h
      refine ⟨rfl, by rw [magnitude_eq]; omega, ?_⟩
      rw [if_neg h0]
      have hz : ((exponentOf w : Int) - 150) = ((exponentOf w - 1 : Nat) : Int) + (-149) := by omega
      rw [hz, zpow_add₀ (by norm_num), zpow_natCast]
      push_cast
      ring

/-- A finite pattern's number. -/
theorem patternValue_of_fin {w : Word} {s : Bool} {m : Nat} {e : Int} (h : unpack w = .fin s m e) :
    patternValue w = ((if s then -(m * 2 ^ e) else m * 2 ^ e : ℝ) : EReal) := by
  obtain ⟨hs, hm, hv⟩ := unpack_eq_fin h
  rw [patternValue_of_magnitude rfl, magnitudeValue, if_pos hm, hv, hs]
  cases s <;> simp

/-- The number of an infinity's pattern. -/
theorem patternValue_of_inf {w : Word} {s : Bool} (h : unpack w = .inf s) :
    patternValue w = if s then ⊥ else ⊤ := by
  obtain ⟨hs, hm⟩ := unpack_eq_inf h
  cases s <;> simp [patternValue_of_magnitude hm, magnitudeValue, hs]

/-- The integer part of a magnitude `m · 2^e`, as `floatScaledPart` computes it. -/
theorem truncate_bounds (m : Nat) (e : Int) {n : Nat}
    (h : (n : Int) = if 0 ≤ e then ((m * 2 ^ e.toNat : Nat) : Int) else (m / 2 ^ (-e).toNat : Nat)) :
    (n : ℝ) ≤ m * 2 ^ e ∧ (m * 2 ^ e : ℝ) < n + 1 := by
  split at h
  · next he =>
    obtain ⟨k, rfl⟩ := Int.eq_ofNat_of_zero_le he
    obtain rfl : n = m * 2 ^ k := by exact_mod_cast h
    simp
  · next he =>
    obtain ⟨k, hk⟩ := Int.eq_ofNat_of_zero_le (show 0 ≤ -e by omega)
    obtain rfl : e = -(k : Int) := by omega
    obtain rfl : n = m / 2 ^ k := by
      rw [neg_neg, Int.toNat_natCast] at h
      exact_mod_cast h
    have h2 : (0 : ℝ) < 2 ^ k := by positivity
    rw [zpow_neg, zpow_natCast, ← div_eq_mul_inv]
    have hd := Nat.floor_div_eq_div (K := ℝ) m (2 ^ k)
    push_cast at hd
    exact ⟨hd ▸ Nat.floor_le (by positivity), hd ▸ Nat.lt_floor_add_one _⟩

/-- `roundPack` of an integer that has a pattern gives that pattern. -/
theorem roundPack_exact (s : Bool) {m n : Nat} (hm : 0 < m) (hn : n < 0x7F800000)
    (h : magnitudeUnits n = m * 2 ^ 149) : roundPack s m 0 = withSign s n := by
  have hf : n % 2 ^ 23 < 2 ^ 23 := Nat.mod_lt _ (by norm_num)
  have hfe : n % 2 ^ 23 + n / 2 ^ 23 * 2 ^ 23 = n := by omega
  rw [magnitudeUnits] at h
  generalize n % 2 ^ 23 = f at *
  generalize n / 2 ^ 23 = e at *
  have hlo : 2 ^ Nat.log2 m ≤ m := Nat.log2_self_le hm.ne'
  have hhi : m < 2 ^ (Nat.log2 m + 1) := Nat.lt_log2_self
  split at h
  · omega
  generalize hl : Nat.log2 m = l at *
  have he : e = l + 127 := by
    have h1 : 2 ^ (l + 149) < 2 ^ (e - 1 + 24) := by
      calc 2 ^ (l + 149) = 2 ^ l * 2 ^ 149 := pow_add ..
        _ ≤ m * 2 ^ 149 := Nat.mul_le_mul_right _ hlo
        _ = (f + 2 ^ 23) * 2 ^ (e - 1) := h.symm
        _ < 2 ^ 24 * 2 ^ (e - 1) := Nat.mul_lt_mul_of_pos_right (by omega) (by positivity)
        _ = 2 ^ (e - 1 + 24) := by rw [pow_add, mul_comm]
    have h2 : 2 ^ (e - 1 + 23) < 2 ^ (l + 1 + 149) := by
      calc 2 ^ (e - 1 + 23) = 2 ^ 23 * 2 ^ (e - 1) := by rw [pow_add, mul_comm]
        _ ≤ (f + 2 ^ 23) * 2 ^ (e - 1) := Nat.mul_le_mul_right _ (by omega)
        _ = m * 2 ^ 149 := h
        _ < 2 ^ (l + 1) * 2 ^ 149 := Nat.mul_lt_mul_of_pos_right hhi (by positivity)
        _ = 2 ^ (l + 1 + 149) := (pow_add ..).symm
    have h3 := (Nat.pow_lt_pow_iff_right (by norm_num)).1 h1
    have h4 := (Nat.pow_lt_pow_iff_right (by norm_num)).1 h2
    omega
  subst he
  have hmax : max (0 + (l : Int) - 23) (-149) = (l : Int) - 23 := by omega
  have hq : (if (l : Int) - 23 ≤ 0 then m * 2 ^ (0 - ((l : Int) - 23)).toNat
      else roundShift m ((l : Int) - 23 - 0).toNat) = f + 2 ^ 23 := by
    split
    · next hle =>
      rw [show (0 - ((l : Int) - 23)).toNat = 23 - l by omega]
      refine Nat.eq_of_mul_eq_mul_right (show 0 < 2 ^ (l + 126) by positivity) ?_
      rw [mul_assoc, ← pow_add, show 23 - l + (l + 126) = 149 by omega]
      exact h.symm
    · next hgt =>
      rw [show ((l : Int) - 23 - 0).toNat = l - 23 by omega]
      have hm2 : m = (f + 2 ^ 23) * 2 ^ (l - 23) := by
        refine Nat.eq_of_mul_eq_mul_right (show 0 < 2 ^ 149 by positivity) ?_
        rw [mul_assoc, ← pow_add, show l - 23 + 149 = l + 126 by omega]
        exact h.symm
      have hp : 0 < 2 ^ (l - 23) := by positivity
      rw [hm2, roundShift, Nat.mul_div_cancel _ hp, Nat.mul_mod_left]
      simp only [if_neg (show ¬(2 * 0 > 2 ^ (l - 23) ∨
        2 * 0 = 2 ^ (l - 23) ∧ (f + 2 ^ 23) % 2 = 1) by omega)]
  rw [roundPack, if_neg hm.ne']
  simp only [hl, hmax, hq]
  rw [show ((l : Int) - 23 + 149).toNat = l + 126 by omega]
  have hsum : f + 2 ^ 23 + (l + 126) * 2 ^ 23 = n := by omega
  rw [hsum, if_neg (by omega)]

/-- A value that stands for `r` is a value nearest `r`. -/
theorem nearest_of_standsFor {nu : Num Scalar} {value : Scalar → EReal} {a : Scalar} {r : ℝ}
    (h : nu.StandsFor value a r) : nu.Nearest value a r :=
  ⟨r, h, fun b y _ => by simp⟩

/-- The pattern of `fconst(2π)` is nearest `2π`: `2π` lies between the middle of it and the pattern
below, and the pattern itself. -/
theorem twoPi_nearest {w : Word} {y : ℝ} (hn : floatScaledPart 0 w ≠ .nan)
    (h : patternValue w = y) :
    |(13176795 * 2 ^ (-21 : Int) : ℝ) - 2 * Real.pi| ≤ |y - 2 * Real.pi| := by
  have hlo := Real.pi_gt_d20
  have hhi := Real.pi_lt_d20
  have hb : patternValue 0x40C90FDB = ((13176795 * 2 ^ (-21 : Int) : ℝ) : EReal) := by
    rw [patternValue_of_fin (show unpack 0x40C90FDB = .fin false 13176795 (-21) by decide)]; simp
  have hbelow : patternValue 0x40C90FDA = ((13176794 * 2 ^ (-21 : Int) : ℝ) : EReal) := by
    rw [patternValue_of_fin (show unpack 0x40C90FDA = .fin false 13176794 (-21) by decide)]; simp
  have hp : (2 : ℝ) ^ (-21 : Int) = 1 / 2097152 := by norm_num
  rw [hp] at hb hbelow ⊢
  rw [abs_of_nonneg (by norm_num at hhi ⊢; linarith)]
  rcases le_or_gt (orderKey w) 0x40C90FDA with hk | hk
  · have hle : patternValue w ≤ patternValue 0x40C90FDA := by
      rw [← not_lt, patternValue_lt_iff hn (by decide), not_lt]
      exact hk
    rw [h, hbelow, EReal.coe_le_coe_iff] at hle
    rw [abs_of_nonpos (by norm_num at hlo ⊢; linarith)]
    norm_num at hlo hle ⊢
    linarith
  · have hle : patternValue 0x40C90FDB ≤ patternValue w := by
      rw [← not_lt, patternValue_lt_iff (by decide) hn, not_lt]
      exact hk
    rw [h, hb, EReal.coe_le_coe_iff] at hle
    exact (sub_le_sub_right hle _).trans (le_abs_self _)

/-- `i2f` of an integer that has a pattern gives a pattern of it. -/
theorem floatOfInt_exact {w : Word} {z : Int} (hn : floatScaledPart 0 w ≠ .nan)
    (h : patternValue w = ((z : ℝ) : EReal)) :
    floatScaledPart 0 (floatOfInt z) ≠ .nan ∧ patternValue (floatOfInt z) = ((z : ℝ) : EReal) := by
  rcases eq_or_ne z 0 with rfl | hz
  · exact ⟨by decide, by simp [patternValue_of_magnitude (show (floatOfInt 0).toNat % 2 ^ 31 = 0 from rfl)]⟩
  have hmag : ∃ n, n < 0x7F800000 ∧ (magnitudeUnits n : ℝ) * 2 ^ (-149 : Int) = |(z : ℝ)| := by
    rcases hu : unpack w with _ | s | ⟨s, m, e⟩
    · simp [floatScaledPart, hu] at hn
    · rw [patternValue_of_inf hu] at h
      cases s <;> simp at h
    · obtain ⟨-, hm, hv⟩ := unpack_eq_fin hu
      refine ⟨_, hm, hv.trans ?_⟩
      rw [patternValue_of_fin hu, EReal.coe_eq_coe_iff] at h
      have hx : (0 : ℝ) ≤ m * 2 ^ e := by positivity
      rw [← h]
      cases s <;> simp [abs_of_nonneg hx]
  obtain ⟨n, hlt, hv⟩ := hmag
  have hunits : magnitudeUnits n = z.natAbs * 2 ^ 149 := by
    have h1 : (magnitudeUnits n : ℝ) = (z.natAbs : ℝ) * 2 ^ 149 := by
      rw [Nat.cast_natAbs, Int.cast_abs, ← hv, mul_assoc, ← zpow_natCast, ← zpow_add₀ (by norm_num)]
      norm_num
    exact_mod_cast h1
  have hpack : floatOfInt z = withSign (decide (z < 0)) n :=
    roundPack_exact _ (Int.natAbs_pos.2 hz) hlt hunits
  have ht := toNat_withSign (decide (z < 0)) n (by omega)
  have hmod : (floatOfInt z).toNat % 2 ^ 31 = n := by
    rw [hpack, ht]; split <;> omega
  have hs : signOf (floatOfInt z) = decide (z < 0) := by
    rw [signOf, hpack, ht]
    by_cases hneg : z < 0 <;> simp [hneg] <;> omega
  refine ⟨(not_nan_iff_magnitude 0 _).2 (by omega), ?_⟩
  rw [patternValue_of_magnitude hmod, hs, magnitudeValue, if_pos hlt, hv]
  rcases lt_or_gt_of_ne hz with hneg | hpos
  · have : (z : ℝ) ≤ 0 := by exact_mod_cast hneg.le
    simp [hneg, abs_of_nonpos this]
  · have : (0 : ℝ) ≤ z := by exact_mod_cast hpos.le
    simp [hpos.le, abs_of_nonneg this]

/-- The numbers the patterns stand for are the values of binary32. -/
theorem binary32_valuation :
    NumFormat.binary32.ops.IsValuation fun a => patternValue (BitVec.ofNat 32 a) where
  nan a k := (isNaN_iff k _).symm.trans (isNaN_iff 0 _)
  posInf a k h := by
    change floatScaledPart k _ = _ at h
    rcases hu : unpack (BitVec.ofNat 32 a) with _ | s | ⟨s, m, e⟩ <;>
      simp only [floatScaledPart, hu, reduceCtorEq] at h
    cases s <;> simp_all [patternValue_of_inf hu]
  negInf a k h := by
    change floatScaledPart k _ = _ at h
    rcases hu : unpack (BitVec.ofNat 32 a) with _ | s | ⟨s, m, e⟩ <;>
      simp only [floatScaledPart, hu, reduceCtorEq] at h
    cases s <;> simp_all [patternValue_of_inf hu]
  int a k z h := by
    change floatScaledPart k _ = _ at h
    rcases hu : unpack (BitVec.ofNat 32 a) with _ | s | ⟨s, m, e⟩
    · simp [floatScaledPart, hu] at h
    · cases s <;> simp [floatScaledPart, hu] at h
    · simp only [floatScaledPart, hu, IntegerPart.int.injEq] at h
      have hq : ∃ n : Nat, (n : Int) = if 0 ≤ e + (k : Int) then
          ((m * 2 ^ (e + (k : Int)).toNat : Nat) : Int) else (m / 2 ^ (-(e + (k : Int))).toNat : Nat) := by
        split
        · exact ⟨_, rfl⟩
        · exact ⟨_, rfl⟩
      obtain ⟨n, hn⟩ := hq
      obtain ⟨hlo, hhi⟩ := truncate_bounds m _ hn
      rw [← hn] at h
      have hk : (2 : ℝ) ^ k * (m * 2 ^ e) = m * 2 ^ (e + (k : Int)) := by
        rw [zpow_add₀ (by norm_num), zpow_natCast]; ring
      have hn0 : (0 : ℝ) ≤ n := by positivity
      refine ⟨_, patternValue_of_fin hu, ?_⟩
      rw [← hk] at hlo hhi
      cases s
      · subst h
        simp only [Bool.false_eq_true, if_false, Int.cast_natCast]
        generalize (2 : ℝ) ^ k * (m * 2 ^ e) = x at *
        rw [abs_of_nonneg hn0, abs_of_nonneg (by linarith), abs_of_nonneg (by linarith)]
        exact ⟨hlo, by linarith⟩
      · subst h
        simp only [if_true, Int.cast_neg, Int.cast_natCast, mul_neg, abs_neg]
        generalize (2 : ℝ) ^ k * (m * 2 ^ e) = x at *
        rw [abs_of_nonneg hn0, abs_of_nonneg (by linarith), abs_of_nonpos (by linarith)]
        exact ⟨hlo, by linarith⟩
  zero a := by
    show floatIsZero _ = true ↔ floatScaledPart 0 _ ≠ _ ∧ _
    simp only [floatIsZero, beq_iff_eq, EReal.coe_zero]
    constructor
    · intro h
      exact ⟨(not_nan_iff_magnitude 0 _).2 (by omega), by simp [patternValue_of_magnitude h]⟩
    · rintro ⟨h1, h2⟩
      by_contra hc
      have hp := magnitudeValue_pos (Nat.pos_of_ne_zero hc) ((not_nan_iff_magnitude 0 _).1 h1)
      rw [patternValue] at h2
      split at h2
      · exact hp.ne' (EReal.neg_eq_zero_iff.1 h2)
      · exact hp.ne' h2
  gt a b := by
    show floatGt _ _ = true ↔ floatScaledPart 0 _ ≠ _ ∧ floatScaledPart 0 _ ≠ _ ∧ _
    constructor
    · intro h
      simp only [floatGt, Bool.and_eq_true, Bool.not_eq_true', decide_eq_true_eq] at h
      have ha : floatScaledPart 0 (BitVec.ofNat 32 a) ≠ .nan := by
        rw [ne_eq, ← isNaN_iff]; simp [h.1.1]
      have hb : floatScaledPart 0 (BitVec.ofNat 32 b) ≠ .nan := by
        rw [ne_eq, ← isNaN_iff]; simp [h.1.2]
      exact ⟨ha, hb, (patternValue_lt_iff ha hb).2 h.2⟩
    · rintro ⟨ha, hb, h⟩
      have h2 := (patternValue_lt_iff ha hb).1 h
      rw [ne_eq, ← isNaN_iff] at ha hb
      simp [floatGt, ha, hb, h2]
  const l r hr _ := by
    cases l <;> simp only [Literal.Denotes] at hr <;> subst hr
    · refine nearest_of_standsFor ⟨by decide, ?_⟩
      exact (patternValue_of_fin (show unpack 0x3F800000 = .fin false 8388608 (-23) by decide)).trans
        (by norm_num)
    · refine nearest_of_standsFor ⟨by decide, ?_⟩
      exact (patternValue_of_fin (show unpack 0x40000000 = .fin false 8388608 (-22) by decide)).trans
        (by norm_num)
    · refine ⟨13176795 * 2 ^ (-21 : Int), ⟨by decide, ?_⟩, fun b y hb => twoPi_nearest hb.1 hb.2⟩
      exact (patternValue_of_fin (show unpack 0x40C90FDB = .fin false 13176795 (-21) by decide)).trans
        (by simp)
  ofInt z := by
    rintro ⟨a, hn, h⟩
    obtain ⟨h1, h2⟩ := floatOfInt_exact hn h
    refine ⟨?_, ?_⟩
    · show floatScaledPart 0 (BitVec.ofNat 32 (floatOfInt z).toNat) ≠ _
      rwa [ofNat_toNat_word]
    · show patternValue (BitVec.ofNat 32 (floatOfInt z).toNat) = _
      rwa [ofNat_toNat_word]

/-- A positive finite pattern taken apart: its sign is `+`, its significand is not zero. -/
theorem unpack_of_positive {a : Scalar} (h : NumFormat.binary32.ops.Positive a) :
    ∃ m e, unpack (BitVec.ofNat 32 a) = .fin false m e ∧ m ≠ 0 := by
  obtain ⟨hgt, z, hz⟩ := h
  rw [binary32_integerPart] at hz
  rw [binary32_fgt, binary32_fzero] at hgt
  rcases hu : unpack (BitVec.ofNat 32 a) with _ | s | ⟨s, m, e⟩
  · simp [floatScaledPart, hu] at hz
  · cases s <;> simp [floatScaledPart, hu] at hz
  · obtain ⟨hs, hm, hv⟩ := unpack_eq_fin hu
    have hk : 0 < orderKey (BitVec.ofNat 32 a) := by
      simp only [floatGt, Bool.and_eq_true, decide_eq_true_eq] at hgt
      exact hgt.2
    rw [orderKey, hs] at hk
    cases s
    · refine ⟨m, e, rfl, ?_⟩
      rintro rfl
      have hpos : magnitudeUnits 0 < magnitudeUnits ((BitVec.ofNat 32 a).toNat % 2 ^ 31) :=
        magnitudeUnits_strictMono (by simp only [Bool.false_eq_true, if_false] at hk; omega)
      have : (0 : ℝ) < magnitudeUnits ((BitVec.ofNat 32 a).toNat % 2 ^ 31) := by
        exact_mod_cast lt_of_le_of_lt (Nat.zero_le _) hpos
      have h2 : (0 : ℝ) < 2 ^ (-149 : Int) := by positivity
      simp only [Nat.cast_zero, zero_mul] at hv
      exact absurd hv (mul_pos this h2).ne'
    · simp only [if_true] at hk; omega

/-- The default instance obeys the laws. -/
theorem binary32_lawful : NumFormat.binary32.ops.Lawful where
  numbered_zero := rfl
  zero_isZero := rfl
  cos_zero := rfl
  sin_zero := rfl
  i2f_zero := rfl
  zero_mul a h := by
    obtain ⟨m, e, hu, -⟩ := unpack_of_positive h
    simp only [binary32_fmul, binary32_fzero, floatMul, hu,
      show unpack (BitVec.ofNat 32 0) = .fin false 0 (-149) from rfl]
    simp [roundPack, signedZero, withSign]
  zero_div a h := by
    obtain ⟨m, e, hu, hm⟩ := unpack_of_positive h
    simp only [binary32_fdiv, binary32_fzero, floatDiv, hu,
      show unpack (BitVec.ofNat 32 0) = .fin false 0 (-149) from rfl]
    simp [roundPack, signedZero, withSign, hm]
  zero_angle := by decide +kernel
  bits_zero := rfl
  valued := ⟨_, binary32_valuation⟩

end Sys2Proof.Machine

namespace Sys2Proof

/-- R17: a comparison with a NaN is false. -/
theorem Num.Lawful.fgt_nan {nu : Num Scalar} (h : nu.Lawful) {a b : Scalar}
    (hn : nu.integerPart a = .nan ∨ nu.integerPart b = .nan) : nu.fgt a b = false := by
  obtain ⟨value, hv⟩ := h.valued
  rw [Bool.eq_false_iff, ne_eq, hv.gt]
  rintro ⟨h1, h2, -⟩
  exact hn.elim h1 h2

/-- R17: neither zero is greater than the other. -/
theorem Num.Lawful.fgt_zeros {nu : Num Scalar} (h : nu.Lawful) {a b : Scalar}
    (ha : nu.isZero a = true) (hb : nu.isZero b = true) : nu.fgt a b = false := by
  obtain ⟨value, hv⟩ := h.valued
  rw [Bool.eq_false_iff, ne_eq, hv.gt, ((hv.zero a).1 ha).2, ((hv.zero b).1 hb).2]
  simp

/-- The numbers the values of a `Num` stand for are determined by it. -/
theorem Num.IsValuation.unique {nu : Num Scalar} {v1 v2 : Scalar → EReal} (h1 : nu.IsValuation v1)
    (h2 : nu.IsValuation v2) {a : Scalar} (hn : nu.integerPart a ≠ .nan) : v1 a = v2 a := by
  have hnan : ∀ k, nu.scaledPart k a ≠ .nan := fun k h => hn ((h1.nan a k).1 h)
  by_cases hinf : (∃ k, nu.scaledPart k a = .posInf) ∨ ∃ k, nu.scaledPart k a = .negInf
  · rcases hinf with ⟨k, h⟩ | ⟨k, h⟩
    · rw [h1.posInf a k h, h2.posInf a k h]
    · rw [h1.negInf a k h, h2.negInf a k h]
  · have hint : ∀ k, ∃ z, nu.scaledPart k a = .int z := by
      intro k
      cases h : nu.scaledPart k a with
      | nan => exact absurd h (hnan k)
      | posInf => exact absurd (.inl ⟨k, h⟩) hinf
      | negInf => exact absurd (.inr ⟨k, h⟩) hinf
      | int z => exact ⟨z, rfl⟩
    obtain ⟨z, hz⟩ := hint 0
    obtain ⟨x, hx, -⟩ := h1.int a 0 z hz
    obtain ⟨y, hy, -⟩ := h2.int a 0 z hz
    have hclose : ∀ k : Nat, 2 ^ k * |x - y| < 2 := by
      intro k
      obtain ⟨z, hz⟩ := hint k
      obtain ⟨x', hx', -, h3⟩ := h1.int a k z hz
      obtain ⟨y', hy', -, h4⟩ := h2.int a k z hz
      obtain rfl : x = x' := EReal.coe_injective (hx.symm.trans hx')
      obtain rfl : y = y' := EReal.coe_injective (hy.symm.trans hy')
      have h5 := abs_sub_le (2 ^ k * x) z (2 ^ k * y)
      rw [← mul_sub, abs_mul, abs_of_pos (by positivity), abs_sub_comm (z : ℝ)] at h5
      linarith
    rw [hx, hy]
    by_contra hne
    have hpos : 0 < |x - y| := abs_pos.2 (sub_ne_zero.2 fun h => hne (h ▸ rfl))
    obtain ⟨k, hk⟩ := pow_unbounded_of_one_lt (2 / |x - y|) (show (1 : ℝ) < 2 by norm_num)
    rw [div_lt_iff₀ hpos] at hk
    exact absurd hk (not_lt_of_gt (hclose k))

/-- Whatever `Num` a legal configuration takes, it obeys the laws. -/
theorem Config.ops_lawful (c : Config) : c.ops.Lawful := by
  have h := c.legalNum
  unfold Params.LegalNum at h
  unfold Config.ops
  cases hn : c.num with
  | binary32 => exact Machine.binary32_lawful
  | other name => rw [hn] at h; exact h.1

/-- `GAIN` is positive and finite (R8, D4). -/
theorem Config.gain_positive (c : Config) : c.ops.Positive c.gain := by
  have h := c.legalNum
  unfold Params.LegalNum at h
  unfold Config.ops
  cases hn : c.num with
  | binary32 =>
    simp only [hn] at h
    have h0 : @LT.lt Nat _ 0 c.gain := h.1
    have h1 : @LT.lt Nat _ c.gain 0x7F800000 := h.2.1
    have hw : (BitVec.ofNat 32 c.gain).toNat = c.gain := by
      rw [BitVec.toNat_ofNat]; exact Nat.mod_eq_of_lt (by omega)
    have he : Machine.exponentOf (BitVec.ofNat 32 c.gain) ≠ 255 := by
      rw [Machine.exponentOf, hw]; omega
    have hs : Machine.signOf (BitVec.ofNat 32 c.gain) = false := by
      rw [Machine.signOf, hw]; simp; omega
    have hn : Machine.isNaN (BitVec.ofNat 32 c.gain) = false := by simp [Machine.isNaN, he]
    refine ⟨?_, ?_⟩
    · show Machine.floatGt _ _ = true
      have hk : Machine.orderKey (BitVec.ofNat 32 c.gain) = c.gain := by
        rw [Machine.orderKey, hs, hw]; simp; omega
      have hz : Machine.isNaN 0 = false := rfl
      have hkz : Machine.orderKey 0 = 0 := rfl
      simp only [Machine.floatGt, hn]
      change (!false && !Machine.isNaN 0 && decide (_ > Machine.orderKey 0)) = true
      rw [hz, hkz, hk]
      simp; omega
    · show ∃ z, Machine.floatScaledPart 0 _ = .int z
      by_cases hz : Machine.exponentOf (BitVec.ofNat 32 c.gain) = 0 <;>
        simp [Machine.floatScaledPart, Machine.unpack, he, hz]
  | other name => rw [hn] at h; exact h.2

@[simp] theorem Config.ops_fzero (c : Config) : c.ops.fzero = 0 := c.ops_lawful.numbered_zero

end Sys2Proof
end

