-- ==== Sys2Proof/Laws/Lists.lean ====
section
/-!
SUPPORT. The lengths of the lists the operations compute, and how their elements are read.
-/

namespace Sys2Proof.Machine

open Sys2Proof

variable {F : Type}

/-- A left fold keeps what each of its passes keeps. -/
theorem foldl_keeps {α β : Type} (P : β → Prop) (f : β → α → β) (l : List α) (b : β)
    (hb : P b) (hf : ∀ b a, P b → P (f b a)) : P (l.foldl f b) := by
  induction l generalizing b with
  | nil => exact hb
  | cons a l ih => exact ih _ (hf b a hb)

/-! ### Pairs -/

/-- The length of a sequence of pairs. -/
theorem length_flatMap_pair (f g : Nat → F) (n : Nat) :
    ((List.range n).flatMap fun i => [f i, g i]).length = 2 * n := by
  induction n with
  | zero => rfl
  | succ n ih => rw [List.range_succ, List.flatMap_append]; simp [ih]; omega

/-- The elements of a sequence of pairs. -/
theorem getD_flatMap_pair (f g : Nat → F) (z : F) (n i : Nat) (h : i < n) :
    ((List.range n).flatMap fun i => [f i, g i]).getD (2 * i) z = f i ∧
    ((List.range n).flatMap fun i => [f i, g i]).getD (2 * i + 1) z = g i := by
  induction n with
  | zero => omega
  | succ n ih =>
    rw [List.range_succ, List.flatMap_append]
    have hl := length_flatMap_pair f g n
    rcases Nat.lt_or_ge i n with hi | hi
    · have := ih hi
      rw [List.getD_append _ _ _ _ (by omega), List.getD_append _ _ _ _ (by omega)]
      exact this
    · have hin : i = n := by omega
      subst hin
      rw [List.getD_append_right _ _ _ _ (by omega), List.getD_append_right _ _ _ _ (by omega), hl]
      simp

/-! ### The synthesizer -/

theorem length_oscillate (nu : Num Scalar) (c : Config) (count k : Nat) (v0 v1 : Scalar) :
    (oscillate nu c count k v0 v1).length = count := by
  induction count generalizing k v0 v1 with
  | zero => rfl
  | succ count ih => simp [oscillate, ih]

theorem length_halfWave (nu : Num Scalar) (c : Config) : (halfWave nu c).length = c.sweepLen / 2 := by
  have := c.four_le_sweepLen
  simp only [halfWave, List.length_cons, length_oscillate]
  omega

theorem length_synthList (nu : Num Scalar) (c : Config) : (synthList nu c).length = c.sweepLen := by
  have := c.sweepLen_even
  simp only [synthList, List.length_append, List.length_map, List.length_reverse, length_halfWave]
  omega

/-! ### The FFT engine -/

theorem length_twiddleTable (nu : Num F) (n : Nat) : (twiddleTable nu n).length = 2 * (n / 2) :=
  length_flatMap_pair _ _ _

@[simp] theorem length_swapSamples (z : F) (x : List F) (i j : Nat) :
    (swapSamples z x i j).length = x.length := by
  simp [swapSamples]

@[simp] theorem length_bitrevList (z : F) (n : Nat) (x : List F) :
    (bitrevList z n x).length = x.length := by
  refine foldl_keeps (fun y : List F => y.length = x.length) _ _ _ rfl fun y i h => ?_
  split <;> simp [h]

@[simp] theorem length_butterflyDit (nu : Num F) (x : List F) (ia m : Nat) (c s : F) :
    (butterflyDit nu x ia m c s).length = x.length := by
  simp [butterflyDit]

@[simp] theorem length_butterflyDif (nu : Num F) (x : List F) (ia m : Nat) (c s : F) :
    (butterflyDif nu x ia m c s).length = x.length := by
  simp [butterflyDif]

@[simp] theorem length_stageDit (nu : Num F) (w : List F) (n2 ie : Nat) (x : List F) :
    (stageDit nu w n2 ie x).length = x.length := by
  refine foldl_keeps (fun y : List F => y.length = x.length) _ _ _ rfl fun y j h => ?_
  exact foldl_keeps (fun y : List F => y.length = x.length) _ _ _ h fun y i h => by simp [h]

@[simp] theorem length_stageDif (nu : Num F) (w : List F) (n2 ie : Nat) (x : List F) :
    (stageDif nu w n2 ie x).length = x.length := by
  refine foldl_keeps (fun y : List F => y.length = x.length) _ _ _ rfl fun y j h => ?_
  exact foldl_keeps (fun y : List F => y.length = x.length) _ _ _ h fun y i h => by simp [h]

@[simp] theorem length_stagesDit (nu : Num F) (w : List F) (k n2 ie : Nat) (x : List F) :
    (stagesDit nu w k n2 ie x).length = x.length := by
  induction k generalizing n2 ie x with
  | zero => rfl
  | succ k ih => unfold stagesDit; split <;> simp [ih]

@[simp] theorem length_stagesDif (nu : Num F) (w : List F) (k n2 ie : Nat) (x : List F) :
    (stagesDif nu w k n2 ie x).length = x.length := by
  induction k generalizing n2 ie x with
  | zero => rfl
  | succ k ih => unfold stagesDif; split <;> simp [ih]

@[simp] theorem length_fftList (nu : Num F) (n : Nat) (w x : List F) :
    (fftList nu n w x).length = x.length := by simp [fftList]

@[simp] theorem length_ifftList (nu : Num F) (n : Nat) (w x : List F) :
    (ifftList nu n w x).length = x.length := by simp [ifftList]

/-! ### The frequency-domain correlator -/

theorem length_cmulList (nu : Num F) (n : Nat) (a b : List F) : (cmulList nu n a b).length = 2 * n :=
  length_flatMap_pair _ _ _

end Sys2Proof.Machine
end

