-- ==== Sys2Proof/Laws/Memory.lean ====
section
/-!
SUPPORT. Every operation over the buffers keeps their canonical form, and the state after reset has
it.
-/

namespace Sys2Proof.Machine

open Sys2Proof

/-- The canonical form, buffer by buffer. -/
theorem Memory.wf_iff (s : State) :
    Memory.wf s = true ↔
      bufWf s.cfg.sweepLen s.probe = true ∧ bufWf s.cfg.responseLen s.capture = true ∧
      bufWf s.cfg.responseMono s.mono = true ∧ bufWf s.cfg.fftLen s.ssp = true ∧
      bufWf s.cfg.fftLen s.rsp = true ∧ bufWf s.cfg.fftLen s.xsp = true ∧
      bufWf s.cfg.n s.tw = true := by
  simp [Memory.wf, bufLen, and_assoc]

/-- A step that leaves the configuration and the buffers alone leaves their form alone. -/
theorem Memory.wf_congr {s t : State} (hc : t.cfg = s.cfg) (h0 : t.probe = s.probe)
    (h1 : t.capture = s.capture) (h2 : t.mono = s.mono) (h3 : t.ssp = s.ssp) (h4 : t.rsp = s.rsp)
    (h5 : t.xsp = s.xsp) (h6 : t.tw = s.tw) : Memory.wf t = Memory.wf s := by
  simp [Memory.wf, hc, h0, h1, h2, h3, h4, h5, h6]

/-- The reset memory lists nothing. -/
theorem wf_resetWith (c : Config) : Memory.wf (State.resetWith c) = true := rfl

/-- A host window write of an element the buffer has. -/
theorem wf_writeElement {s : State} (h : Memory.wf s = true) (b : BufId) (i : Nat) (v : Word)
    (hi : i < bufLen s.cfg b) : Memory.wf (writeElement s b i v) = true := by
  rw [Memory.wf_iff] at h ⊢
  obtain ⟨h0, h1, h2, h3, h4, h5, h6⟩ := h
  cases b
  · exact ⟨bufWf_bufWrite h0 hi _, h1, h2, h3, h4, h5, h6⟩
  · exact ⟨h0, bufWf_bufWrite h1 hi _, h2, h3, h4, h5, h6⟩
  · exact ⟨h0, h1, bufWf_bufWrite h2 hi _, h3, h4, h5, h6⟩
  · exact ⟨h0, h1, h2, bufWf_bufWrite h3 hi _, h4, h5, h6⟩
  · exact ⟨h0, h1, h2, h3, bufWf_bufWrite h4 hi _, h5, h6⟩
  · exact ⟨h0, h1, h2, h3, h4, bufWf_bufWrite h5 hi _, h6⟩
  · exact ⟨h0, h1, h2, h3, h4, h5, bufWf_bufWrite h6 hi _⟩

/-- A spectrum buffer written whole. -/
theorem wf_setSpectrum {s : State} (h : Memory.wf s = true) (x : Spectrum) {l : List Scalar}
    (hl : l.length ≤ s.cfg.fftLen) : Memory.wf (setSpectrum s x l) = true := by
  rw [Memory.wf_iff] at h ⊢
  obtain ⟨h0, h1, h2, h3, h4, h5, h6⟩ := h
  cases x
  · exact ⟨h0, h1, h2, bufWf_bufOfList hl, h4, h5, h6⟩
  · exact ⟨h0, h1, h2, h3, bufWf_bufOfList hl, h5, h6⟩
  · exact ⟨h0, h1, h2, h3, h4, bufWf_bufOfList hl, h6⟩

/-- The twiddle table written whole, `TW_VALID` changed. -/
theorem wf_setTable {s : State} (h : Memory.wf s = true) {l : List Scalar} (hl : l.length ≤ s.cfg.n)
    (v : Bool) : Memory.wf { s with tw := bufOfList l, twValid := v } = true := by
  rw [Memory.wf_iff] at h ⊢
  exact ⟨h.1, h.2.1, h.2.2.1, h.2.2.2.1, h.2.2.2.2.1, h.2.2.2.2.2.1, bufWf_bufOfList hl⟩

@[simp] theorem length_spectrumList (s : State) (x : Spectrum) :
    (spectrumList s x).length = s.cfg.fftLen := by cases x <;> simp [spectrumList]

@[simp] theorem length_twiddleList (s : State) : (twiddleList s).length = s.cfg.n := by
  simp [twiddleList]

theorem wf_opSynth {s : State} (h : Memory.wf s = true) (nu : Num Scalar) :
    Memory.wf (opSynth nu s) = true := by
  rw [Memory.wf_iff] at h ⊢
  exact ⟨bufWf_bufOfList (le_of_eq (length_synthList nu s.cfg)), h.2⟩

theorem wf_opDownmix {s : State} (h : Memory.wf s = true) : Memory.wf (opDownmix s) = true := by
  rw [Memory.wf_iff] at h ⊢
  exact ⟨h.1, h.2.1, bufWf_bufOfList (by simp), h.2.2.2⟩

theorem wf_opTwgen {s : State} (h : Memory.wf s = true) (nu : Num Scalar) :
    Memory.wf (opTwgen nu s) = true :=
  wf_setTable h (by rw [length_twiddleTable, s.cfg.two_mul_half_n]) false

theorem wf_opBitrev {s : State} (h : Memory.wf s = true) (b : ScalarBuf) :
    Memory.wf (opBitrev b s) = true := by
  cases b with
  | spectrum x => exact wf_setSpectrum h x (by simp)
  | tw => exact wf_setTable h (by simp) false

theorem wf_opFft {s : State} (h : Memory.wf s = true) (nu : Num Scalar) (x : Spectrum) :
    Memory.wf (opFft nu x s) = true := wf_setSpectrum h x (by simp)

theorem wf_opIfft {s : State} (h : Memory.wf s = true) (nu : Num Scalar) (x : Spectrum) :
    Memory.wf (opIfft nu x s) = true := wf_setSpectrum h x (by simp)

theorem wf_opCmul {s : State} (h : Memory.wf s = true) (nu : Num Scalar) (d a b : Spectrum) :
    Memory.wf (opCmul nu d a b s) = true :=
  wf_setSpectrum h d (by rw [length_cmulList, s.cfg.two_mul_n])

theorem wf_opPadp {s : State} (h : Memory.wf s = true) (nu : Num Scalar) :
    Memory.wf (opPadp nu s) = true :=
  wf_setSpectrum h .ssp (by rw [length_flatMap_pair, s.cfg.two_mul_n])

theorem wf_opPade {s : State} (h : Memory.wf s = true) (nu : Num Scalar) :
    Memory.wf (opPade nu s) = true :=
  wf_setSpectrum h .rsp (by rw [length_flatMap_pair, s.cfg.two_mul_n])

theorem wf_prepareTable {s : State} (h : Memory.wf s = true) (nu : Num Scalar) :
    Memory.wf (prepareTable nu s) = true := by
  unfold prepareTable
  split
  · exact (Memory.wf_congr rfl rfl rfl rfl rfl rfl rfl rfl).trans (wf_opBitrev (wf_opTwgen h nu) .tw)
  · exact h

theorem wf_opCorrf {s : State} (h : Memory.wf s = true) (nu : Num Scalar) :
    Memory.wf (opCorrf nu s) = true :=
  (Memory.wf_congr rfl rfl rfl rfl rfl rfl rfl rfl).trans
    (wf_opIfft (wf_opCmul (wf_opFft (wf_opFft (wf_prepareTable (wf_opPade (wf_opPadp h nu) nu) nu)
      nu .ssp) nu .rsp) nu .xsp .ssp .rsp) nu .xsp)

end Sys2Proof.Machine
end

