-- ==== Sys2Proof/Laws/PerInstr.lean ====
section
/-!
SUPPORT. A statement made for every command: the word it is encoded as has the opcode of R97 in bits
31:24, zero in `ZERO` and in the operand fields its format does not use (R91 to R94).
-/

namespace Sys2Proof.Laws.OpcodeField

open Sys2Proof

/-- The `OP` column of R97. -/
def opcode : Instr → Nat
  | .start => 0x01
  | .synth => 0x10
  | .downmix => 0x11
  | .corrt => 0x12
  | .corrf => 0x13
  | .todist => 0x14
  | .twgen => 0x20
  | .bitrev _ => 0x21
  | .fft _ => 0x22
  | .ifft _ => 0x23
  | .cmul _ _ _ => 0x24
  | .padp => 0x25
  | .pade => 0x26
  | .peak _ => 0x27

/-- How many of the operand fields `D`, `A`, `B` the command's format uses (R92 to R94). -/
def operandCount : Instr → Nat
  | .bitrev _ | .fft _ | .ifft _ | .peak _ => 1
  | .cmul _ _ _ => 3
  | .start | .synth | .downmix | .corrt | .corrf | .todist | .twgen | .padp | .pade => 0

/-- The fields of the command's word that do not depend on its operands. -/
def Statement (i : Instr) : Prop :=
  (opField (encode i)).toNat = opcode i ∧ zeroField (encode i) = 0 ∧
  (operandCount i = 0 → dField (encode i) = 0) ∧
  (operandCount i ≤ 1 → aField (encode i) = 0 ∧ bField (encode i) = 0)

theorem start : Statement .start := by unfold Statement; decide
theorem synth : Statement .synth := by unfold Statement; decide
theorem downmix : Statement .downmix := by unfold Statement; decide
theorem corrt : Statement .corrt := by unfold Statement; decide
theorem corrf : Statement .corrf := by unfold Statement; decide
theorem todist : Statement .todist := by unfold Statement; decide
theorem twgen : Statement .twgen := by unfold Statement; decide
theorem bitrev (d : BufId) : Statement (.bitrev d) := by unfold Statement; cases d <;> decide
theorem fft (d : BufId) : Statement (.fft d) := by unfold Statement; cases d <;> decide
theorem ifft (d : BufId) : Statement (.ifft d) := by unfold Statement; cases d <;> decide
theorem padp : Statement .padp := by unfold Statement; decide
theorem pade : Statement .pade := by unfold Statement; decide
theorem peak (d : BufId) : Statement (.peak d) := by unfold Statement; cases d <;> decide

/-- The word of a `CMUL`, by its fields. -/
theorem cmul (d a b : BufId) : Statement (.cmul d a b) := by
  refine ⟨?_, ?_, fun h => by simp [operandCount] at h, fun h => by simp [operandCount] at h⟩ <;>
    cases d <;> cases a <;> cases b <;> rfl

end Sys2Proof.Laws.OpcodeField
end

