-- ==== Sys2Proof/Laws/Run.lean ====
section
/-!
SUPPORT. Runs of several steps, put together from single steps and from shorter runs.
-/

namespace Sys2Proof.Machine

open Sys2Proof

theorem run_zero (M : Host.Core) (s : M.State) : M.run 0 s = .next s := rfl

/-- A run whose first step gives a next state goes on from there. -/
theorem run_succ (M : Host.Core) {s t : M.State} (h : M.step s = .next t) (k : Nat) :
    M.run (k + 1) s = M.run k t := by
  simp only [Host.Core.run, h]

/-- A run goes on from where a shorter one ended. -/
theorem run_add (M : Host.Core) {s t : M.State} {a : Nat} (h : M.run a s = .next t) (b : Nat) :
    M.run (a + b) s = M.run b t := by
  induction a generalizing s with
  | zero => cases h; rw [Nat.zero_add]
  | succ a ih =>
    rw [Nat.succ_add]
    rcases hs : M.step s with u | f | r
    · rw [run_succ M hs] at h; rw [← ih h]; exact run_succ M hs _
    · simp only [Host.Core.run, hs] at h; cases h
    · simp only [Host.Core.run, hs] at h; cases h

/-! The same three of this machine, its state type written out. -/

theorem core_run_zero (s : State) : Host.Core.run Sys2Proof.core 0 s = .next s := rfl

theorem core_run_succ {s t : State} (h : step s = .next t) (k : Nat) :
    Host.Core.run Sys2Proof.core (k + 1) s = Host.Core.run Sys2Proof.core k t :=
  run_succ Sys2Proof.core h k

theorem core_run_add {s t : State} {a : Nat} (h : Host.Core.run Sys2Proof.core a s = .next t)
    (b : Nat) : Host.Core.run Sys2Proof.core (a + b) s = Host.Core.run Sys2Proof.core b t :=
  run_add Sys2Proof.core h b

end Sys2Proof.Machine
end

