-- ==== Sys2Proof/Laws/Stage.lean ====
section
/-!
SUPPORT. What one stage of a transform does to each complex sample: the butterflies of a stage touch
disjoint pairs of samples, so each new sample is given by the old pair it belongs to (R211, R212,
R221, R222).
-/

namespace Sys2Proof.Machine

open Sys2Proof

variable {F : Type}

/-- Complex sample `p` as a pair of scalars. -/
def pairAt (z : F) (x : List F) (p : Nat) : F × F := (x.getD (2 * p) z, x.getD (2 * p + 1) z)

theorem getD_set_same (x : List F) (z v : F) {i : Nat} (h : i < x.length) :
    (x.set i v).getD i z = v := by
  simp [List.getD, h]

theorem getD_set_ne (x : List F) (z v : F) {i k : Nat} (h : i ≠ k) :
    (x.set i v).getD k z = x.getD k z := by
  simp [List.getD, List.getElem?_set_ne h]

/-- What a butterfly does: it replaces samples `ia` and `m` by `lo` and `hi` of the old ones and the
twiddle, and leaves every other sample alone. -/
structure IsButterfly (z : F) (bf : List F → Nat → Nat → F → F → List F)
    (lo hi : F × F → F × F → F → F → F × F) : Prop where
  length : ∀ x ia m c s, (bf x ia m c s).length = x.length
  at_lo : ∀ x ia m c s, ia ≠ m → 2 * ia + 1 < x.length → 2 * m + 1 < x.length →
    pairAt z (bf x ia m c s) ia = lo (pairAt z x ia) (pairAt z x m) c s
  at_hi : ∀ x ia m c s, ia ≠ m → 2 * ia + 1 < x.length → 2 * m + 1 < x.length →
    pairAt z (bf x ia m c s) m = hi (pairAt z x ia) (pairAt z x m) c s
  other : ∀ x ia m c s p, p ≠ ia → p ≠ m → pairAt z (bf x ia m c s) p = pairAt z x p

/-- The loop nest common to both transforms (R212, R222). -/
def stageWith (z : F) (bf : List F → Nat → Nat → F → F → List F) (w : List F) (n2 ie : Nat)
    (x : List F) : List F :=
  (List.range ie).foldl
    (fun x j =>
      (List.range n2).foldl
        (fun x i => bf x (2 * n2 * j + i) (2 * n2 * j + i + n2) (w.getD (2 * j) z)
          (w.getD (2 * j + 1) z)) x) x

/-- The first `k` butterflies of the block that starts at sample `base`. -/
theorem block_spec {z : F} {bf : List F → Nat → Nat → F → F → List F}
    {lo hi : F × F → F × F → F → F → F × F} (hb : IsButterfly z bf lo hi) (c s : F) (n2 base : Nat)
    (x : List F) (hx : 2 * (base + 2 * n2) ≤ x.length) (k : Nat) (hk : k ≤ n2) :
    ((List.range k).foldl (fun x i => bf x (base + i) (base + i + n2) c s) x).length = x.length ∧
    (∀ i < k,
      pairAt z ((List.range k).foldl (fun x i => bf x (base + i) (base + i + n2) c s) x) (base + i) =
        lo (pairAt z x (base + i)) (pairAt z x (base + i + n2)) c s ∧
      pairAt z ((List.range k).foldl (fun x i => bf x (base + i) (base + i + n2) c s) x)
        (base + i + n2) = hi (pairAt z x (base + i)) (pairAt z x (base + i + n2)) c s) ∧
    (∀ p, (∀ i < k, p ≠ base + i ∧ p ≠ base + i + n2) →
      pairAt z ((List.range k).foldl (fun x i => bf x (base + i) (base + i + n2) c s) x) p =
        pairAt z x p) := by
  induction k with
  | zero => simp
  | succ k ih =>
    obtain ⟨hlen, hin, hout⟩ := ih (by omega)
    rw [List.range_succ, List.foldl_append]
    simp only [List.foldl_cons, List.foldl_nil]
    generalize (List.range k).foldl (fun x i => bf x (base + i) (base + i + n2) c s) x = y at *
    have hlo := hout (base + k) fun i hi => ⟨by omega, by omega⟩
    have hhi := hout (base + k + n2) fun i hi => ⟨by omega, by omega⟩
    refine ⟨by rw [hb.length, hlen], fun i hi => ?_, fun p hp => ?_⟩
    · rcases Nat.lt_or_ge i k with hik | hik
      · rw [hb.other _ _ _ _ _ _ (by omega) (by omega), hb.other _ _ _ _ _ _ (by omega) (by omega)]
        exact hin i hik
      · have : i = k := by omega
        subst this
        rw [hb.at_lo _ _ _ _ _ (by omega) (by omega) (by omega),
          hb.at_hi _ _ _ _ _ (by omega) (by omega) (by omega), hlo, hhi]
        exact ⟨rfl, rfl⟩
    · rw [hb.other _ _ _ _ _ _ (hp k (by omega)).1 (hp k (by omega)).2]
      exact hout p fun i hi => hp i (by omega)

/-- The blocks of a stage: sample `i` of the first half of block `j` is paired with sample `i` of
its second half, with twiddle entry `j`. -/
theorem stageWith_spec {z : F} {bf : List F → Nat → Nat → F → F → List F}
    {lo hi : F × F → F × F → F → F → F × F} (hb : IsButterfly z bf lo hi) (w : List F)
    (n2 ie : Nat) (x : List F) (hx : 2 * (2 * n2 * ie) ≤ x.length) :
    (stageWith z bf w n2 ie x).length = x.length ∧
    (∀ j < ie, ∀ i < n2,
      pairAt z (stageWith z bf w n2 ie x) (2 * n2 * j + i) =
        lo (pairAt z x (2 * n2 * j + i)) (pairAt z x (2 * n2 * j + i + n2)) (w.getD (2 * j) z)
          (w.getD (2 * j + 1) z) ∧
      pairAt z (stageWith z bf w n2 ie x) (2 * n2 * j + i + n2) =
        hi (pairAt z x (2 * n2 * j + i)) (pairAt z x (2 * n2 * j + i + n2)) (w.getD (2 * j) z)
          (w.getD (2 * j + 1) z)) ∧
    (∀ p, 2 * n2 * ie ≤ p → pairAt z (stageWith z bf w n2 ie x) p = pairAt z x p) := by
  induction ie with
  | zero => simp [stageWith]
  | succ k ih =>
    have hmul : 2 * n2 * (k + 1) = 2 * n2 * k + 2 * n2 := by ring
    obtain ⟨hlen, hin, hout⟩ := ih (by omega)
    have hstep : stageWith z bf w n2 (k + 1) x =
        (List.range n2).foldl (fun x i => bf x (2 * n2 * k + i) (2 * n2 * k + i + n2)
          (w.getD (2 * k) z) (w.getD (2 * k + 1) z)) (stageWith z bf w n2 k x) := by
      simp [stageWith, List.range_succ]
    rw [hstep]
    generalize stageWith z bf w n2 k x = y at *
    obtain ⟨bl, bin, bout⟩ := block_spec hb (w.getD (2 * k) z) (w.getD (2 * k + 1) z) n2
      (2 * n2 * k) y (by omega) n2 le_rfl
    refine ⟨by rw [bl, hlen], fun j hj i hi => ?_, fun p hp => ?_⟩
    · rcases Nat.lt_or_ge j k with hjk | hjk
      · have hle : 2 * n2 * j + 2 * n2 ≤ 2 * n2 * k := by
          have := Nat.mul_le_mul_left (2 * n2) hjk
          rw [Nat.succ_eq_add_one, Nat.mul_add, Nat.mul_one] at this
          exact this
        rw [bout _ fun i' _ => ⟨by omega, by omega⟩, bout _ fun i' _ => ⟨by omega, by omega⟩]
        exact hin j hjk i hi
      · have : j = k := by omega
        subst this
        rw [(bin i hi).1, (bin i hi).2, hout _ (by omega), hout _ (by omega)]
        exact ⟨rfl, rfl⟩
    · rw [bout p fun i _ => ⟨by omega, by omega⟩]
      exact hout p (by omega)

/-- `BF_DIT` (R211) on pairs. -/
def ditLo (nu : Num F) (a b : F × F) (c s : F) : F × F :=
  (nu.fadd a.1 (nu.fadd (nu.fmul c b.1) (nu.fmul s b.2)),
    nu.fadd a.2 (nu.fsub (nu.fmul c b.2) (nu.fmul s b.1)))

def ditHi (nu : Num F) (a b : F × F) (c s : F) : F × F :=
  (nu.fsub a.1 (nu.fadd (nu.fmul c b.1) (nu.fmul s b.2)),
    nu.fsub a.2 (nu.fsub (nu.fmul c b.2) (nu.fmul s b.1)))

/-- `BF_DIF` (R221) on pairs. -/
def difLo (nu : Num F) (a b : F × F) (_c _s : F) : F × F := (nu.fadd a.1 b.1, nu.fadd a.2 b.2)

def difHi (nu : Num F) (a b : F × F) (c s : F) : F × F :=
  (nu.fsub (nu.fmul c (nu.fsub a.1 b.1)) (nu.fmul s (nu.fsub a.2 b.2)),
    nu.fadd (nu.fmul c (nu.fsub a.2 b.2)) (nu.fmul s (nu.fsub a.1 b.1)))

theorem isButterfly_dit (nu : Num F) :
    IsButterfly nu.fzero (butterflyDit nu) (ditLo nu) (ditHi nu) where
  length := length_butterflyDit nu
  at_lo x ia m c s hne h1 h2 := by
    simp only [pairAt, butterflyDit, ditLo]
    rw [getD_set_ne _ _ _ (by omega), getD_set_same _ _ _ (by simp; omega),
      getD_set_same _ _ _ (by simp; omega)]
  at_hi x ia m c s hne h1 h2 := by
    simp only [pairAt, butterflyDit, ditHi]
    rw [getD_set_ne _ _ _ (by omega), getD_set_ne _ _ _ (by omega), getD_set_ne _ _ _ (by omega),
      getD_set_same _ _ _ (by omega), getD_set_ne _ _ _ (by omega), getD_set_ne _ _ _ (by omega),
      getD_set_same _ _ _ (by simp; omega)]
  other x ia m c s p h1 h2 := by
    simp only [pairAt, butterflyDit]
    rw [getD_set_ne _ _ _ (by omega), getD_set_ne _ _ _ (by omega), getD_set_ne _ _ _ (by omega),
      getD_set_ne _ _ _ (by omega), getD_set_ne _ _ _ (by omega), getD_set_ne _ _ _ (by omega),
      getD_set_ne _ _ _ (by omega), getD_set_ne _ _ _ (by omega)]

theorem isButterfly_dif (nu : Num F) :
    IsButterfly nu.fzero (butterflyDif nu) (difLo nu) (difHi nu) where
  length := length_butterflyDif nu
  at_lo x ia m c s hne h1 h2 := by
    simp only [pairAt, butterflyDif, difLo]
    rw [getD_set_ne _ _ _ (by omega), getD_set_ne _ _ _ (by omega), getD_set_ne _ _ _ (by omega),
      getD_set_same _ _ _ (by omega), getD_set_ne _ _ _ (by omega), getD_set_ne _ _ _ (by omega),
      getD_set_same _ _ _ (by simp; omega)]
  at_hi x ia m c s hne h1 h2 := by
    simp only [pairAt, butterflyDif, difHi]
    rw [getD_set_ne _ _ _ (by omega), getD_set_same _ _ _ (by simp; omega),
      getD_set_same _ _ _ (by simp; omega)]
  other x ia m c s p h1 h2 := by
    simp only [pairAt, butterflyDif]
    rw [getD_set_ne _ _ _ (by omega), getD_set_ne _ _ _ (by omega), getD_set_ne _ _ _ (by omega),
      getD_set_ne _ _ _ (by omega), getD_set_ne _ _ _ (by omega), getD_set_ne _ _ _ (by omega),
      getD_set_ne _ _ _ (by omega), getD_set_ne _ _ _ (by omega)]

theorem stageDit_eq (nu : Num F) : stageDit nu = stageWith nu.fzero (butterflyDit nu) := rfl

theorem stageDif_eq (nu : Num F) : stageDif nu = stageWith nu.fzero (butterflyDif nu) := rfl

end Sys2Proof.Machine
end

