-- ==== Sys2Proof/Tests/Slice0.lean ====
section
/-!
SUPPORT. Tests. Expected results are those of 95_test_vectors.md, whose sections the comments name,
or words written out from the tables of 30_encoding.md. The theorems named `test_witness_…` show a
state and operands that meet all hypotheses of the statement they name.
-/

namespace Sys2Proof.Tests

open Sys2Proof Sys2Proof.Machine

/-! ### Helpers -/

/-- The state a step ended in; the reset state when it did not end in one. -/
def after (o : Result) : State :=
  match o with
  | .next t => t
  | .fault _ => State.reset
  | .refused _ => State.reset

def isNext (o : Result) : Bool :=
  match o with
  | .next _ => true
  | .fault _ => false
  | .refused _ => false

/-- `s` with one input to come. -/
def withInput (s : State) (i : Input) : State := { s with inputs := [i] }

/-- The inputs `irq rx`, `irq tx`, both, and a host access. -/
def irqRx : Input := ⟨true, false, .nothing⟩
def irqTx : Input := ⟨false, true, .nothing⟩
def irqBoth : Input := ⟨true, true, .nothing⟩
def host (a : HostAccess) : Input := ⟨false, false, .access a⟩

/-- `STATUS` after one step that takes input `i`. -/
def statusAfter (s : State) (i : Input) : Word := statusWord (after (step (withInput s i)))

/-- The configuration of P4: `SWEEP_LEN = 4`, `RESPONSE_MONO = 2`, `FFT_LEN = 8`. -/
def small : Config :=
  { Config.example8 with
    sweepLen := 4, responseMono := 2, fftLen := 8,
    legalLengths := by decide, legalNum := ⟨by decide, by decide, by decide⟩ }

/-- `SWEEP_LEN = 4`, `RESPONSE_MONO = 3`, `FFT_LEN = 8`: 2.9. -/
def peakConfig : Config :=
  { Config.example8 with
    sweepLen := 4, responseMono := 3, fftLen := 8,
    legalLengths := by decide, legalNum := ⟨by decide, by decide, by decide⟩ }

/-- `SWEEP_LEN = 4`, `RESPONSE_MONO = 4`, `FFT_LEN = 16`, `GAIN = 2`, `ACC_W = 32`: 2.2, 2.3, 2.9. -/
def narrow : Config :=
  { Config.example8 with
    sweepLen := 4, responseMono := 4, fftLen := 16, gain := 0x40000000, accW := 32,
    legalLengths := by decide, legalNum := ⟨by decide, by decide, by decide⟩ }

/-- The §8 sizes with `GAIN = 1`: 2.9, P3. -/
def unitGain : Config := { Config.example8 with
    gain := 0x3F800000, legalLengths := by decide, legalNum := ⟨by decide, by decide, by decide⟩ }

/-- The states of 2.11. Their probe is left zero; no `STATUS` bit depends on it. -/
def armed : State :=
  { State.reset with
    enRx := true, enTx := true, started := true
    rxDma := ⟨some (rxDescriptor Config.example8), true⟩
    txDma := ⟨some (txDescriptor Config.example8), true⟩ }
def partialRx : State := after (step (withInput armed irqRx))
def partialTx : State := after (step (withInput armed irqTx))
def ready : State := after (step (withInput partialRx irqTx))
def processing : State := after (step { ready with inputs := [] })

/-- The probe and the echo at offset 3 of the source's example (S9). -/
def probe8 : Buf Sample := bufOfList [1, 2, 3, 4, 4, 3, 2, 1]
def echo3 : Buf Sample := bufOfList [0, 0, 0, 1, 2, 3, 4, 4, 3, 2, 1]

def example9 : State := { State.reset with probe := probe8, mono := echo3 }

/-! ### WellFormed: one ill-formed term for each check -/

theorem test_wellFormed_bitrev : (Instr.bitrev .mono).wellFormed = false := by decide
theorem test_wellFormed_fft : (Instr.fft .tw).wellFormed = false := by decide
theorem test_wellFormed_ifft : (Instr.ifft .probe).wellFormed = false := by decide
theorem test_wellFormed_peak : (Instr.peak .tw).wellFormed = false := by decide
theorem test_wellFormed_cmul_d : (Instr.cmul .tw .ssp .rsp).wellFormed = false := by decide
theorem test_wellFormed_cmul_a : (Instr.cmul .xsp .capture .rsp).wellFormed = false := by decide
theorem test_wellFormed_cmul_b : (Instr.cmul .xsp .ssp .tw).wellFormed = false := by decide

/-! ### Decoding: the word of every command, from R91 to R97 -/

theorem test_decode_start : decode 0x01000000 = .ok .start := by decide
theorem test_decode_synth : decode 0x10000000 = .ok .synth := by decide
theorem test_decode_downmix : decode 0x11000000 = .ok .downmix := by decide
theorem test_decode_corrt : decode 0x12000000 = .ok .corrt := by decide
theorem test_decode_corrf : decode 0x13000000 = .ok .corrf := by decide
theorem test_decode_todist : decode 0x14000000 = .ok .todist := by decide
theorem test_decode_twgen : decode 0x20000000 = .ok .twgen := by decide
theorem test_decode_bitrev : decode 0x21600000 = .ok (.bitrev .tw) := by decide
theorem test_decode_fft : decode 0x22400000 = .ok (.fft .rsp) := by decide
theorem test_decode_ifft : decode 0x23500000 = .ok (.ifft .xsp) := by decide
theorem test_decode_cmul : decode 0x24534000 = .ok (.cmul .xsp .ssp .rsp) := by decide
theorem test_decode_padp : decode 0x25000000 = .ok .padp := by decide
theorem test_decode_pade : decode 0x26000000 = .ok .pade := by decide
theorem test_decode_peak : decode 0x27500000 = .ok (.peak .xsp) := by decide

-- 2.12: illegal words, by the reason the table gives.
theorem test_decode_reserved : decode 0x02000000 = .error (.reservedOpcode 0x02) := by decide
theorem test_decode_zero_field : decode 0x24534800 = .error .zeroField := by decide
theorem test_decode_unused_d : decode 0x10100000 = .error .unusedField := by decide
theorem test_decode_unused_a : decode 0x22340000 = .error .unusedField := by decide
theorem test_decode_sample_buffer : decode 0x21000000 = .error .operand := by decide
theorem test_decode_reserved_buffer : decode 0x21700000 = .error .operand := by decide

/-! ### Commands -/

-- P5 row 2.
theorem test_start_status : statusAfter State.reset (commandInput 0x01000000) = 0x0000104C := by decide

-- 2.1, the first sample of every row: `Q(GAIN · 1)`.
theorem test_synth_first : bufRead (after (exec .synth State.reset)).probe 0 = 10000 := by
  decide +kernel

-- 2.1: 32766.9 truncates; -32767.9 truncates toward zero.
theorem test_quantize_truncates :
    quantize binary32 0x3F800000 0x46FFFDCD = 32766 ∧
    (quantize binary32 0x3F800000 0xC6FFFFCD).toInt = -32767 := by decide +kernel

-- 2.2, first row.
theorem test_downmix :
    monoList (after (exec .downmix { State.resetWith narrow with
      capture := bufOfList [1, -1, 2, -2, 3, -3, -32768, 32767] })) = [1, 2, 3, -32768] := by
  decide +kernel

-- 2.3, row D = 3, and the wrapping row.
theorem test_corrt_delay : (after (exec .corrt example9)).index = 3 := by decide +kernel
theorem test_corrt_wraps :
    (after (exec .corrt { State.resetWith narrow with
      probe := bufOfList [-32768, -32768], mono := bufOfList [-32768, -32768] })).index = 1 := by
  decide +kernel

-- 2.10.
theorem test_todist :
    (after (exec .todist { State.reset with index := 3 })).result = 0x3BAE147B := by decide +kernel
theorem test_todist_unsigned :
    (after (exec .todist { State.reset with index := 0xFFFFFFFF })).result = 0x4AE81B4F := by
  decide +kernel

-- 2.4: entry 0 is exact under every `Num`; the table is not valid afterwards.
theorem test_twgen :
    bufRead (after (exec .twgen { State.reset with twValid := true })).tw 0 = 0x3F800000 ∧
    (after (exec .twgen { State.reset with twValid := true })).twValid = false := by decide +kernel

-- 2.5, FFT_LEN = 8; the table with n = 2 is unchanged.
theorem test_bitrev :
    spectrumList (after (exec (.bitrev .ssp) { State.resetWith small with
      ssp := bufOfList [0, 100, 1, 101, 2, 102, 3, 103] })) .ssp =
        [0, 100, 2, 102, 1, 101, 3, 103] := by decide +kernel
theorem test_bitrev_tw :
    twiddleList (after (exec (.bitrev .tw) { State.resetWith small with
      tw := bufOfList [0x3F800000, 0, 0xB33BBD2E, 0x3F800000] })) =
        [0x3F800000, 0, 0xB33BBD2E, 0x3F800000] := by decide +kernel

/-- The exact table of P4 and its input. -/
def p4 : State :=
  { State.resetWith small with
    tw := bufOfList [0x3F800000, 0, 0, 0x3F800000]
    ssp := bufOfList [0x3F800000, 0xBF800000, 0, 0x40000000, 0x40400000, 0, 0xC0000000, 0x40A00000] }

-- P4.
theorem test_fft :
    spectrumList (after (exec (.fft .ssp) p4)) .ssp =
      [0x40000000, 0x40C00000, 0x40C00000, 0xC1000000, 0xC0A00000, 0xC0400000, 0x3F800000,
        0x3F800000] := by decide +kernel
theorem test_ifft :
    spectrumList (after (exec (.ifft .ssp) (after (exec (.fft .ssp) p4)))) .ssp =
      [0x40800000, 0xC0800000, 0, 0x41000000, 0x41400000, 0, 0xC1000000, 0x41A00000] := by
  decide +kernel

-- 2.6: the table all zero.
theorem test_fft_zero_table :
    spectrumList (after (exec (.fft .ssp) { State.resetWith small with
      ssp := bufOfList [0x3F800000, 0, 0x40000000, 0, 0x40400000, 0, 0x40800000] })) .ssp =
      [0x3F800000, 0, 0x3F800000, 0, 0x3F800000, 0, 0x3F800000, 0] := by decide +kernel

-- 2.8: i·i = -1 and i·(-i) = 1 in the first two samples; full aliasing, (1+2i)^2 = -3+4i.
theorem test_cmul :
    (spectrumList (after (exec (.cmul .xsp .ssp .rsp) { State.resetWith small with
      ssp := bufOfList [0, 0x3F800000, 0, 0x3F800000]
      rsp := bufOfList [0, 0x3F800000, 0, 0xBF800000] })) .xsp).take 4 =
        [0xBF800000, 0, 0x3F800000, 0] := by decide +kernel
theorem test_cmul_aliased :
    (spectrumList (after (exec (.cmul .ssp .ssp .ssp) { State.resetWith small with
      ssp := bufOfList [0x3F800000, 0x40000000] })) .ssp).take 2 = [0xC0400000, 0x40800000] := by
  decide +kernel

-- 2.9.
theorem test_padp :
    spectrumList (after (exec .padp { State.resetWith narrow with
      probe := bufOfList [6, -4, -4, 6], ssp := [(15, 7)] })) .ssp =
        [0x40400000, 0, 0xC0000000, 0, 0xC0000000, 0, 0x40400000, 0, 0, 0, 0, 0, 0, 0, 0, 0] := by
  decide +kernel
theorem test_pade :
    spectrumList (after (exec .pade { State.resetWith peakConfig with
      mono := bufOfList [5, 6, -7] })) .rsp =
        [0x40A00000, 0, 0x40C00000, 0, 0xC0E00000, 0, 0, 0] := by decide +kernel
theorem test_peak :
    (after (exec (.peak .xsp) { State.resetWith peakConfig with
      xsp := bufOfList [0x3F800000, 9, 0x40A00000, 9, 0x40A00000, 9, 0x40E00000] })).index = 2 := by
  decide +kernel
theorem test_peak_nan :
    (after (exec (.peak .xsp) { State.resetWith peakConfig with
      xsp := bufOfList [0x7FC00001, 0, 0x40000000, 0, 0x7FC00001] })).index = 2 := by decide +kernel

/-- The bit-reversed table of 2.5 for FFT_LEN = 32. -/
def table32 : List Scalar :=
  [0x3F800000, 0x00000000, 0xB33BBD2E, 0x3F800000, 0x3F3504F3, 0x3F3504F3, 0xBF3504F3,
    0x3F3504F3] ++
  [0x3F6C835E, 0x3EC3EF16, 0xBEC3EF18, 0x3F6C835E, 0x3EC3EF15, 0x3F6C835E, 0xBF6C8360, 0x3EC3EF10]

-- 2.9, row D = 3 (the table preset, as after an earlier `CORRF`).
theorem test_corrf :
    (after (exec .corrf { State.resetWith unitGain with
      probe := probe8, mono := echo3, tw := bufOfList table32, twValid := true })).index = 20 := by
  decide +kernel

-- 2.9: `CORRF` from reset sets `TW_VALID`.
theorem test_corrf_status :
    statusAfter State.reset (commandInput 0x13000000) = 0x00000100 := by decide +kernel

/-! ### Controller, host window, reset -/

-- 2.11.
theorem test_irq_before_start : statusAfter State.reset irqRx = 0 := by decide
theorem test_irq_rx : statusWord partialRx = 0x00002049 := by decide
theorem test_irq_tx : statusWord partialTx = 0x00002046 := by decide
theorem test_irq_duplicate : statusAfter partialRx irqRx = 0x00002049 := by decide
theorem test_irq_second : statusWord ready = 0x00003050 := by decide
theorem test_irq_both : statusAfter armed irqBoth = 0x00003050 := by decide
theorem test_dispatch : statusWord processing = 0x00004060 := by decide
theorem test_stray_irq : statusAfter ready irqRx = 0x00003051 := by decide
theorem test_rearm :
    statusWord (after (step { processing with
      jstep := .rearm .enableTx, enRx := true, resultValid := true })) = 0x000010CC := by decide

-- P5 row 13.
theorem test_refused_in_armed :
    statusAfter { armed with resultValid := true } (commandInput 0x14000000) = 0x000012CC := by decide

-- 2.13.
theorem test_window_write :
    bufRead (after (step (withInput { State.reset with bufAddr := 0x20000003 }
      (host (.write 0x14 4 0xFFFF8001))))).mono 3 = 0x8001 := by decide
theorem test_window_read :
    (after (step (withInput { State.reset with bufAddr := 0x20000003, mono := [(3, 0x8001)] }
      (host (.read 0x14 4))))).readData = 0xFFFF8001 := by decide
theorem test_window_beyond :
    statusAfter { State.reset with bufAddr := 0x2000000C } (host (.read 0x14 4)) = 0x200 := by decide
theorem test_window_reserved_id :
    statusAfter { State.reset with bufAddr := 0x70000000 } (host (.read 0x14 4)) = 0x200 := by decide
theorem test_window_clears_tw_valid :
    statusAfter { State.reset with bufAddr := 0x60000000, twValid := true }
      (host (.write 0x14 4 0x3F800000)) = 0 := by decide

-- 2.14.
theorem test_reset :
    after (step (withInput { armed with cmdErr := true, jobs := 7, mono := [(1, 1)] }
      ⟨true, false, .reset⟩)) = State.reset := by decide

-- The word placed by `withFetchWord` is the command the next step runs.
theorem test_withFetchWord :
    (after (step ({ State.reset with index := 3 }.withFetchWord 32 0x14000000))).resultValid = true := by
  decide +kernel

/-! ### Witnesses: a state and operands that meet all hypotheses of each statement -/

/-- An idle state with signal in every buffer that a statement asks for. -/
def busy : State :=
  { example9 with
    capture := [(0, 5), (1, 6)], xsp := [(2, 0x3F800000)], twValid := true, index := 3 }

/-- The states of the job. -/
def converting : State := { processing with jstep := .convert }

theorem test_witness_ResetHoldsTheStatedValues : ∃ (c : Config) (s : State), s = State.resetWith c :=
  ⟨small, _, rfl⟩

theorem test_witness_ResetInputGivesTheResetState : ∃ (s : State) (i : Input) (rest : List Input),
    s.inputs = i :: rest ∧ i.action = .reset :=
  ⟨withInput armed ⟨true, true, .reset⟩, _, _, rfl, rfl⟩

theorem test_witness_StatusBitsAreLiveViews : ∃ k : Nat, 15 ≤ k := ⟨15, le_rfl⟩

/-- The five codes of R25, each in a state that has it. -/
theorem test_status_codes :
    (statusWord State.reset).extractLsb' 12 3 = 0 ∧ (statusWord armed).extractLsb' 12 3 = 1 ∧
    (statusWord partialTx).extractLsb' 12 3 = 2 ∧ (statusWord ready).extractLsb' 12 3 = 3 ∧
    (statusWord processing).extractLsb' 12 3 = 4 := by decide

/-- A step with an input, one without, and neither a reset: `ConfigurationNeverChanges`,
`JobStepsAdvanceAndAreCounted`, `StickyBitsStaySet`, `ProbeIsReadOnlyAfterStart`. -/
theorem test_witness_step_without_reset : ∃ s t : State, step s = .next t ∧ s.started = true ∧
    (∀ i rest, s.inputs = i :: rest → i.action ≠ .reset) :=
  ⟨withInput armed irqRx, partialRx, rfl, rfl, by intro i rest h; cases h; decide⟩

theorem test_witness_DecodeOfEncodeIsTheCommand : (Instr.cmul .xsp .ssp .rsp).wellFormed = true := by
  decide

theorem test_witness_OnlyWordsOfCommandsDecode : ∃ w i, decode w = .ok i := ⟨0x21600000, .bitrev .tw, rfl⟩

theorem test_witness_StepRunsTheDecodedCommand : ∃ (s : State) (rx tx : Bool) (w v : Word)
    (rest : List Input) (i : Instr) (e : DecodeError),
    s.inputs = ⟨rx, tx, .access (.write 0 4 w)⟩ :: rest ∧ decode w = .ok i ∧
    decode v = .error e :=
  ⟨withInput armed ⟨true, false, .access (.write 0 4 0x14000000)⟩, true, false, 0x14000000, 0, [],
    .todist, .reservedOpcode 0, rfl, rfl, rfl⟩

theorem test_witness_StepRunsTheDecodedCommand_illegal : ∃ (s : State) (rx tx : Bool) (w : Word)
    (rest : List Input) (e : DecodeError),
    s.inputs = ⟨rx, tx, .access (.write 0 4 w)⟩ :: rest ∧ decode w = .error e :=
  ⟨withInput State.reset (commandInput 0), false, false, 0, [], .reservedOpcode 0, rfl, rfl⟩

theorem test_witness_RefusedCommandOnlySetsCmdErr :
    cstate armed ≠ .idle ∧ (Instr.fft .tw).wellFormed = false ∧
    decode 0 = .error (.reservedOpcode 0) := by decide

/-- A misaligned read, a write of another width. -/
theorem test_witness_StopsComeOnlyFromOutsideTheContract_refused :
    step (withInput State.reset (host (.read 2 4))) = .refused .hostAccessShape ∧
    step (withInput armed ⟨true, false, .access (.write 0x10 2 1)⟩) = .refused .hostAccessShape :=
  ⟨rfl, rfl⟩

/-- A disabled channel, a channel the notification that comes with the access disables, a computing
job, and the first element beyond each count. -/
theorem test_witness_StopsComeOnlyFromOutsideTheContract_fault :
    step (withInput State.reset ⟨false, false, .rxWrite 0 1⟩) = .fault (.dmaNotOwner .rx) ∧
    step (withInput armed ⟨false, true, .txRead 0⟩) = .fault (.dmaNotOwner .tx) ∧
    step (withInput { armed with jstep := .correlate } ⟨false, false, .rxWrite 0 1⟩) =
      .fault (.dmaNotOwner .rx) ∧
    step (withInput armed ⟨false, false, .rxWrite 24 1⟩) = .fault (.dmaBeyondCount .rx) ∧
    step (withInput armed ⟨false, false, .txRead 8⟩) = .fault (.dmaBeyondCount .tx) :=
  ⟨rfl, rfl, rfl, rfl, rfl⟩

/-- `IDLE`, and not `IDLE`: `StartSynthesizesAndArms` and every statement whose only hypothesis is
`cstate s = .idle`. -/
theorem test_witness_idle : cstate State.reset = .idle ∧ cstate armed ≠ .idle := by decide

theorem test_witness_SynthMirrorsTheFirstHalf :
    State.reset.cfg.sweepLen / 2 ≤ 4 ∧ 4 ≤ 7 ∧ 7 < State.reset.cfg.sweepLen := by decide

theorem test_witness_SynthFollowsTheOscillator :
    2 ≤ 2 ∧ 2 < State.reset.cfg.sweepLen / 2 ∧ 3 < State.reset.cfg.sweepLen / 2 := by decide

theorem test_witness_QuantizerSaturatesAndTruncates_nan :
    unpack (floatMul 0x461C4000 0x7FC00001) = .nan ∧
    Config.example8.ops.integerPart (Config.example8.ops.fmul 0x461C4000 0x7FC00001) = .nan := by
  have h : floatMul 0x461C4000 0x7FC00001 = producedNaN .mul 0x461C4000 0x7FC00001 := rfl
  rw [ops_of_binary32 rfl, binary32_fmul, binary32_integerPart, ofNat_toNat_word]
  refine ⟨?_, (congrArg (floatScaledPart 0) h).trans ?_⟩
  · rw [h, unpack_producedNaN]
  · rw [floatScaledPart_producedNaN]

theorem test_witness_QuantizerSaturatesAndTruncates_infinite :
    unpack (floatMul 0x3F800000 0x7F800000) = .inf false ∧
    unpack (floatMul 0x3F800000 0xFF800000) = .inf true ∧
    Config.example8.ops.integerPart (Config.example8.ops.fmul 0x3F800000 0x7F800000) = .posInf ∧
    Config.example8.ops.integerPart (Config.example8.ops.fmul 0x3F800000 0xFF800000) = .negInf := by
  decide +kernel

/-- 32767, 32766.9…, -32768 and -32767.9…: the patterns, their values and their integer parts. -/
theorem test_witness_QuantizerSaturatesAndTruncates_bounds :
    Config.example8.num = .binary32 ∧
    unpack (floatMul 0x3F800000 0x46FFFE00) = .fin false 16776704 (-9) ∧
    unpack (floatMul 0x3F800000 0x46FFFDCD) = .fin false 16776653 (-9) ∧
    unpack (floatMul 0x3F800000 0xC7000000) = .fin true 8388608 (-8) ∧
    unpack (floatMul 0x3F800000 0xC6FFFFCD) = .fin true 16777165 (-9) ∧
    Config.example8.ops.integerPart (Config.example8.ops.fmul 0x3F800000 0x46FFFE00) = .int 32767 ∧
    Config.example8.ops.integerPart (Config.example8.ops.fmul 0x3F800000 0x46FFFDCD) = .int 32766 ∧
    Config.example8.ops.integerPart (Config.example8.ops.fmul 0x3F800000 0xC7000000) =
      .int (-32768) ∧
    Config.example8.ops.integerPart (Config.example8.ops.fmul 0x3F800000 0xC6FFFFCD) =
      .int (-32767) := by decide +kernel

theorem test_witness_QuantizerSaturatesAndTruncates_values :
    finiteValue false 16776704 (-9) = 32767 ∧ finiteValue true 8388608 (-8) = -32768 ∧
    finiteValue false 16776653 (-9) < 32767 ∧ -32768 < finiteValue true 16777165 (-9) := by
  norm_num [finiteValue]

theorem test_witness_DownmixTakesTheLeftChannel : 0 < State.reset.cfg.responseMono ∧
    11 < State.reset.cfg.responseMono := by decide

theorem test_witness_CorrtPicksTheEarliestStrictMaximum_none :
    cstate State.reset = .idle ∧ ∀ k < State.reset.cfg.sweepLen,
      (exactLagSum State.reset k).bmod (2 ^ State.reset.cfg.accW) ≤ 0 := by decide +kernel

theorem test_witness_CorrtPicksTheEarliestStrictMaximum_some :
    cstate example9 = .idle ∧ ∃ k < example9.cfg.sweepLen,
      0 < (exactLagSum example9 k).bmod (2 ^ example9.cfg.accW) := by decide +kernel

theorem test_witness_WideAccumulatorIsExact : 64 ≤ State.reset.cfg.accW := by decide

theorem test_witness_CorrtRecoversTheInjectedDelay :
    cstate example9 = .idle ∧ 64 ≤ example9.cfg.accW ∧ 3 < example9.cfg.sweepLen ∧
    3 + example9.cfg.sweepLen ≤ example9.cfg.responseMono ∧
    (∃ j < example9.cfg.sweepLen, bufRead example9.probe j ≠ 0) ∧
    (∀ m < example9.cfg.responseMono, bufRead example9.mono m =
      if 3 ≤ m ∧ m < 3 + example9.cfg.sweepLen then bufRead example9.probe (m - 3) else 0) := by
  decide

theorem test_witness_IndexZeroGivesDistanceZero : cstate State.reset = .idle ∧
    State.reset.cfg.num = .binary32 ∧
    State.reset.cfg.speed = 0x43AA0000 ∧ State.reset.cfg.rate = 0x47BB8000 ∧
    State.reset.index = 0 := by decide

/-- The same state meets the general clause: 340 and 192000 are positive and finite. -/
theorem test_witness_IndexZeroGivesDistanceZero_positive :
    State.reset.cfg.ops.Positive State.reset.cfg.speed ∧
    State.reset.cfg.ops.Positive
      (State.reset.cfg.ops.fmul (State.reset.cfg.ops.fconst .two) State.reset.cfg.rate) :=
  ⟨⟨by decide +kernel, 340, by decide +kernel⟩, by decide +kernel, 192000, by decide +kernel⟩

theorem test_witness_DistanceNeverDecreases : ∃ (c : Config) (i1 i2 : Word),
    c.num = .binary32 ∧ c.speed = 0x43AA0000 ∧ c.rate = 0x47BB8000 ∧ i1.toNat ≤ i2.toNat :=
  ⟨Config.example8, 16777216, 16777217, rfl, rfl, rfl, by decide⟩

theorem test_witness_DistanceStrictBelowTwoPow24 : ∃ (c : Config) (i1 i2 : Word),
    c.num = .binary32 ∧ c.speed = 0x43AA0000 ∧ c.rate = 0x47BB8000 ∧ i1.toNat < i2.toNat ∧ i2.toNat < 2 ^ 24 :=
  ⟨Config.example8, 16777214, 16777215, rfl, rfl, rfl, by decide, by decide⟩

theorem test_witness_TwgenWritesTheNaturalOrderTable :
    cstate State.reset = .idle ∧ 7 < State.reset.cfg.n / 2 := by decide

theorem test_witness_BitrevPermutesByReversal : cstate busy = .idle ∧
    BufId.tw.isPermutable = true ∧ BufId.ssp.isPermutable = true ∧
    8 = busy.cfg.n / 2 ∧ 16 = busy.cfg.n ∧ 15 < 16 := by decide

theorem test_witness_BitrevTwiceRestoresTheBuffer : cstate busy = .idle ∧ Memory.wf busy = true ∧
    BufId.tw.isPermutable = true ∧ BufId.xsp.isPermutable = true := by decide +kernel

/-- `FftRunsTheButterflyStages` and `IfftRunsTheButterflyStages`. -/
theorem test_witness_transform_stages : cstate p4 = .idle ∧ BufId.ssp.isSpectrum = true ∧
    1 < Nat.log2 p4.cfg.n := by decide

/-- Exact arithmetic on a ring; what the statements about exact arithmetic do not speak of is
zero. -/
def exactNum (R : Type) [CommRing R] : Num R where
  fadd a b := a + b
  fsub a b := a - b
  fmul a b := a * b
  fdiv _ _ := 0
  fsqrt _ := 0
  fcos _ := 0
  fsin _ := 0
  i2f z := z
  fgt _ _ := false
  fconst _ := 0
  fzero := 0
  isZero _ := false
  scaledPart _ _ := .nan
  bits _ := 0
  unbits _ := 0

theorem exactNum_exact (R : Type) [CommRing R] : ExactNum (exactNum R) where
  add _ _ := rfl
  sub _ _ := rfl
  mul _ _ := rfl
  zero := rfl

theorem test_witness_FftComputesTheFourierTransform : ExactNum (exactNum ℝ) ∧
    IsBitReversedTable 0 [1, 0] ∧ ([1, 2, 3, 4] : List ℝ).length = 2 * 2 ^ (0 + 1) := by
  refine ⟨exactNum_exact ℝ, ⟨by simp, fun j hj => ?_⟩, by simp⟩
  have : j = 0 := by omega
  subst this
  simp [reverseBits]

/-- `IfftComputesTheInverseTransform` has the same hypotheses. -/
theorem test_witness_IfftComputesTheInverseTransform : ExactNum (exactNum ℝ) ∧
    IsBitReversedTable 0 [1, 0] ∧ ([1, 2, 3, 4] : List ℝ).length = 2 * 2 ^ (0 + 1) ∧
    (1 : Nat) < 2 ^ (0 + 1) :=
  ⟨test_witness_FftComputesTheFourierTransform.1, test_witness_FftComputesTheFourierTransform.2.1,
    test_witness_FftComputesTheFourierTransform.2.2, by norm_num⟩

theorem test_witness_FftIsLinear : ExactNum (exactNum ℤ) ∧
    ([1, 2, 3, 4] : List ℤ).length = 2 * 2 ^ 1 ∧ ([5, 6, 7, 8] : List ℤ).length = 2 * 2 ^ 1 :=
  ⟨exactNum_exact ℤ, rfl, rfl⟩

theorem test_witness_IfftAfterFftIsNTimes : ExactNum (exactNum ℤ) ∧
    (∀ j < 2 ^ 2 / 2, ([1, 0, 0, 1] : List ℤ).getD (2 * j) 0 * ([1, 0, 0, 1] : List ℤ).getD (2 * j) 0 +
      ([1, 0, 0, 1] : List ℤ).getD (2 * j + 1) 0 * ([1, 0, 0, 1] : List ℤ).getD (2 * j + 1) 0 = 1) ∧
    ([1, 2, 3, 4, 5, 6, 7, 8] : List ℤ).length = 2 * 2 ^ 2 :=
  ⟨exactNum_exact ℤ, by decide, rfl⟩

/-- `PadpLoadsTheNormalisedProbe` and `PadeLoadsTheEcho`: indices inside and beyond the data. -/
theorem test_witness_padding : cstate busy = .idle ∧ 7 < busy.cfg.sweepLen ∧
    11 < busy.cfg.responseMono ∧ 15 < busy.cfg.n := by decide

/-- The last clause of `PadpLoadsTheNormalisedProbe`: a sample 0 within the probe. -/
theorem test_witness_PadpLoadsTheNormalisedProbe_zero : cstate State.reset = .idle ∧
    bufRead State.reset.probe 7 = 0 ∧ 7 < State.reset.cfg.sweepLen ∧ 7 < State.reset.cfg.n := by
  decide

theorem test_witness_CmulMultipliesPointwise : cstate busy = .idle ∧ BufId.xsp.isSpectrum = true ∧
    BufId.ssp.isSpectrum = true ∧ BufId.rsp.isSpectrum = true ∧ 15 < busy.cfg.n := by decide

theorem test_witness_PeakPicksTheFirstStrictMaximum_none : cstate State.reset = .idle ∧
    BufId.xsp.isSpectrum = true ∧ ∀ i < State.reset.cfg.responseLen, i % 2 = 0 →
      State.reset.cfg.ops.fgt (bufRead (scalarsOf State.reset .xsp) i) State.reset.cfg.ops.fzero = false := by decide +kernel

theorem test_witness_PeakPicksTheFirstStrictMaximum_some : cstate busy = .idle ∧
    BufId.xsp.isSpectrum = true ∧ ∃ i < busy.cfg.responseLen, i % 2 = 0 ∧
      busy.cfg.ops.fgt (bufRead (scalarsOf busy .xsp) i) busy.cfg.ops.fzero = true := by decide +kernel

theorem test_witness_CorrfIsThePrimitiveSequence : cstate busy = .idle ∧ busy.twValid = true ∧
    cstate State.reset = .idle ∧ State.reset.twValid = false := by decide

/-- `NotificationRunsTheHandler`, `NotificationOrderIsUnobservable`: started, both flags clear, each
input; not started. -/
theorem test_witness_notification : armed.started = true ∧ armed.rxDone = false ∧
    armed.txDone = false ∧ (withInput armed irqRx).inputs = ⟨true, false, .nothing⟩ :: [] ∧
    (withInput armed irqTx).inputs = ⟨false, true, .nothing⟩ :: [] ∧
    (withInput State.reset irqRx).started = false ∧
    (withInput State.reset irqRx).inputs = ⟨true, false, .nothing⟩ :: [] := by decide

theorem test_witness_DuplicateNotificationIsHarmless :
    (partialRx.started = true ∧ partialRx.rxDone = true ∧ partialRx.txDone = false ∧
      partialRx.enRx = false ∧ partialRx.rxDma.owed = false ∧
      (withInput partialRx irqRx).inputs = ⟨true, false, .nothing⟩ :: []) ∧
    (partialTx.started = true ∧ partialTx.txDone = true ∧ partialTx.rxDone = false ∧
      partialTx.enTx = false ∧ partialTx.txDma.owed = false ∧
      (withInput partialTx irqTx).inputs = ⟨false, true, .nothing⟩ :: []) := by decide

theorem test_witness_NotificationBeforeStartIsIgnored : State.reset.started = false ∧
    (withInput State.reset irqBoth).inputs = ⟨true, true, .nothing⟩ :: [] := by decide

theorem test_witness_DispatchStartsThePostedJob : ready.jobPending = true ∧
    ready.jstep = .stopped ∧ ready.inputs = [] ∧
    (withInput ready ⟨false, false, .job⟩).inputs = ⟨false, false, .job⟩ :: [] := by decide

/-- Each place of the job, in a state with no input left and in one whose input is the scheduler's with
a notification; both strategies. -/
theorem test_witness_JobRunsItsMicroStepsInOrder : processing.jstep = .downmix ∧
    processing.inputs = [] ∧ cstate State.reset = .idle ∧ processing.cfg.strategy = .time ∧
    ∀ j ∈ [JobStep.downmix, .correlate, .convert, .rearm .clearFlags, .rearm .cfgRx, .rearm .cfgTx,
        .rearm .enableRx, .rearm .enableTx],
      ({ processing with jstep := j } : State).inputs = [] ∧
      (deliver ⟨true, false, .job⟩ { processing with jstep := j, inputs := [] }).jstep = j := by
  decide

theorem test_witness_JobRunsItsMicroStepsInOrder_freq :
    (State.resetWith { Config.example8 with
      strategy := .freq, legalLengths := by decide
      legalNum := ⟨by decide, by decide, by decide⟩ }).cfg.strategy = .freq := rfl

theorem test_witness_JobRunsItsMicroStepsInOrder_commute : ∃ s : State, s.started = true ∧
    s.jstep = .rearm .enableTx :=
  ⟨{ processing with jstep := .rearm .enableTx, enRx := true }, rfl, rfl⟩

/-- The invariant in the four shapes of the controller. -/
theorem inv_armed (l : List Input) : ControllerInv { armed with inputs := l } :=
  ⟨fun h => Bool.noConfusion (h : true = false), fun _ => .inl ⟨rfl, rfl, rfl, rfl, rfl⟩, rfl, rfl⟩

theorem inv_partialRx : ControllerInv partialRx :=
  ⟨fun h => absurd h (by decide), fun _ => .inr (.inl ⟨rfl, rfl, rfl, rfl, rfl⟩), rfl, rfl⟩

theorem inv_ready : ControllerInv ready :=
  ⟨fun h => absurd h (by decide), fun _ => .inr (.inr (.inr ⟨rfl, rfl, rfl, rfl, rfl⟩)), rfl, rfl⟩

theorem inv_converting (l : List Input) : ControllerInv { converting with inputs := l } :=
  ⟨fun h => Bool.noConfusion (h : true = false), fun _ => ⟨rfl, rfl, rfl, rfl, rfl⟩, rfl, rfl⟩

theorem test_witness_OneCyclePerPairOfNotifications :
    ControllerInv { armed with inputs := [irqRx, irqTx] } ∧
    cstate { armed with inputs := [irqRx, irqTx] } = .armed ∧
    ControllerInv { armed with inputs := [irqTx, irqRx] } ∧
    irqRx = ⟨true, false, .nothing⟩ ∧ irqTx = ⟨false, true, .nothing⟩ :=
  ⟨inv_armed _, by decide, inv_armed _, rfl, rfl⟩

theorem test_witness_ControllerInvIsKept : ControllerInv (withInput armed irqRx) ∧
    EnvContract (withInput armed irqRx) ∧ step (withInput armed irqRx) = .next partialRx :=
  ⟨inv_armed _, by intro i rest h; cases h; decide, rfl⟩

theorem test_witness_ControllerInvGivesTheStateTable :
    (ControllerInv armed ∧ cstate armed = .armed) ∧
    (ControllerInv partialRx ∧ cstate partialRx = .partialDone) ∧
    (ControllerInv ready ∧ cstate ready = .ready) ∧
    (ControllerInv converting ∧ converting.jstep.computing = true) :=
  ⟨⟨inv_armed [], by decide⟩, ⟨inv_partialRx, by decide⟩, ⟨inv_ready, by decide⟩,
    ⟨inv_converting [], by decide⟩⟩

theorem test_witness_NoDmaAccessWhileTheJobComputes :
    ControllerInv (withInput converting ⟨false, false, .rxWrite 0 1⟩) ∧
    EnvContract (withInput converting ⟨false, false, .rxWrite 0 1⟩) ∧
    ControllerInv (withInput converting ⟨false, false, .txRead 0⟩) ∧
    EnvContract (withInput converting ⟨false, false, .txRead 0⟩) ∧
    converting.jstep.computing = true :=
  ⟨inv_converting _, by intro i rest h; cases h; decide, inv_converting _,
    by intro i rest h; cases h; decide, rfl⟩

theorem test_witness_WaitingIsLeftOnlyByNotification : ∃ s t : State, cstate s = .armed ∧
    step s = .next t ∧ ∀ i rest, s.inputs = i :: rest →
      i.notifyRx = false ∧ i.notifyTx = false ∧ i.action ≠ .reset :=
  ⟨withInput armed (commandInput 0x14000000), _, by decide, rfl, by intro i rest h; cases h; decide⟩

theorem test_witness_WaitingIsLeftOnlyByNotification_partial : ∃ s t : State,
    cstate s = .partialDone ∧ step s = .next t ∧ ∀ i rest, s.inputs = i :: rest →
      i.notifyRx = false ∧ i.notifyTx = false ∧ i.action ≠ .reset :=
  ⟨withInput partialTx ⟨false, false, .rxWrite 23 7⟩, _, by decide, rfl,
    by intro i rest h; cases h; decide⟩

theorem test_witness_MemoryFormIsKept : ∃ s t : State, Memory.wf s = true ∧ step s = .next t :=
  ⟨withInput armed ⟨false, false, .rxWrite 23 7⟩, _, by decide, rfl⟩

theorem test_witness_OddCaptureElementsAreNeverRead : ∃ (s t : State) (c : Buf Sample),
    (∀ k, bufRead c (2 * k) = bufRead s.capture (2 * k)) ∧ exec .downmix s = .next t := by
  refine ⟨busy, _, [(0, 5), (1, 9)], fun k => ?_, rfl⟩
  rcases k with _ | k
  · rfl
  · have h0 : ¬ 0 = 2 * (k + 1) := by omega
    have h1 : ¬ 1 = 2 * (k + 1) := by omega
    simp [busy, bufRead, h0, h1]

theorem test_witness_HostReadsReturnTheRegisters : ∀ offset ∈ [0, 0x04, 0x08, 0x0C, 0x10, 0x18, 0x1C],
    offset % 4 = 0 ∧ offset ≠ 0x14 ∧
    (withInput armed ⟨true, true, .access (.read offset 4)⟩).inputs =
      ⟨true, true, .access (.read offset 4)⟩ :: [] := by decide

theorem test_witness_HostWritesOfRegisters :
    cstate (deliver irqBoth State.reset) = .idle ∧ cstate (deliver irqBoth armed) ≠ .idle ∧
    ∀ offset ∈ [0x04, 0x08, 0x0C, 0x10, 0x18, 0x1C], offset % 4 = 0 ∧
      (withInput armed ⟨true, true, .access (.write offset 4 7)⟩).inputs =
        ⟨true, true, .access (.write offset 4 7)⟩ :: [] := by decide

/-- The last element of `MONO` and of `TW`, for a read and a write, with a notification that `IDLE`
ignores. -/
theorem test_witness_WindowReadsAndWritesOneElement_inside :
    ∀ s ∈ [{ busy with bufAddr := 0x2000000B }, { busy with bufAddr := 0x6000000F }],
      ∀ a ∈ [HostAccess.read 0x14 4, .write 0x14 4 7],
        Memory.wf (withInput s ⟨true, false, .access a⟩) = true ∧
        (withInput s ⟨true, false, .access a⟩).inputs = ⟨true, false, .access a⟩ :: [] ∧
        cstate (deliver ⟨true, false, .access a⟩ s) = .idle := by decide +kernel

theorem test_witness_WindowReadsAndWritesOneElement_address :
    BufId.ofNibble ((0x2000000B : Word).extractLsb' 28 4) = some .mono ∧
    11 = ((0x2000000B : Word).extractLsb' 0 28).toNat ∧ 11 < bufLen busy.cfg .mono ∧
    BufId.ofNibble ((0x6000000F : Word).extractLsb' 28 4) = some .tw ∧
    15 = ((0x6000000F : Word).extractLsb' 0 28).toNat ∧ 15 < bufLen busy.cfg .tw := by
  decide +kernel

/-- Not `IDLE`; a reserved id; the index one beyond `MONO`. -/
theorem test_witness_WindowReadsAndWritesOneElement_refused :
    ∀ a ∈ [HostAccess.read 0x14 4, .write 0x14 4 7],
      Memory.wf (withInput armed (host a)) = true ∧
      (withInput armed (host a)).inputs = ⟨false, false, .access a⟩ :: [] ∧
      cstate armed ≠ .idle ∧ BufId.ofNibble ((0x70000000 : Word).extractLsb' 28 4) = none ∧
      BufId.ofNibble ((0x2000000C : Word).extractLsb' 28 4) = some .mono ∧
      bufLen armed.cfg .mono ≤ ((0x2000000C : Word).extractLsb' 0 28).toNat := by
  decide +kernel

theorem test_witness_DmaTouchesOnlyItsBuffer :
    Memory.wf (withInput armed ⟨false, false, .rxWrite 23 7⟩) = true ∧
    Memory.wf (withInput armed ⟨false, false, .txRead 7⟩) = true ∧
    armed.jstep.computing = false ∧ armed.enRx = true ∧ 23 < armed.cfg.responseLen ∧
    armed.enTx = true ∧ 7 < armed.cfg.sweepLen := by decide

/-- A state in which the invariant promises something (the table of `TWGEN` for `N = 4` is its own
reversal), and a step from it. -/
theorem test_witness_TwValidMeansTheGeneratedTable : ∃ s t : State, s.twValid = true ∧
    TableInv s ∧ step s = .next t := by
  refine ⟨{ opTwgen small.ops (State.resetWith small) with twValid := true }, _, rfl, ?_, rfl⟩
  intro _ j hj i hi a ha
  have hj2 : j < 2 := hj
  have hij : i = j := by
    have hdec : ∀ j < 2, reverseBits (Nat.log2 (small.n / 2)) j = j := by decide
    exact hi.trans (hdec j hj2)
  subst hij ha
  simp only [opTwgen, bufRead_bufOfList]
  exact getD_flatMap_pair _ _ 0 2 i hj2

/-- The steps of its last clause: `CORRF` from the host, and micro-step 2 of a FREQ build. -/
theorem test_witness_TwValidMeansTheGeneratedTable_set :
    ∀ s ∈ [withInput (State.resetWith small) (commandInput 0x13000000),
        { State.resetWith { small with strategy := .freq } with
          started := true, jstep := .correlate }],
      s.twValid = false ∧ isNext (step s) = true ∧ (after (step s)).twValid = true := by
  decide +kernel

end Sys2Proof.Tests
end

section
/-!
PROOFS. The configuration is fixed for the machine (R8): every operation keeps `cfg`.
-/

namespace Sys2Proof.Machine

open Sys2Proof

/-! ### The configuration after each operation -/

@[simp] theorem deliver_cfg (i : Input) (s : State) : (deliver i s).cfg = s.cfg := by
  obtain ⟨a, b, c, e, f, g, h, hd⟩ := deliver_frame i s
  rw [hd]

theorem ComputesOnly.cfg_eq {s t : State} (h : ComputesOnly s t) : t.cfg = s.cfg := by
  obtain ⟨m, a, b, c, d, v, rv, r, ix, rfl, -⟩ := h
  rfl

@[simp] theorem effect_cfg (i : Instr) (s : State) : (effect i s).cfg = s.cfg := by
  rcases effect_cases i s with hc | ⟨p, hp⟩ | ⟨p, hp⟩
  · exact hc.cfg_eq
  · rw [hp]
  · rw [hp]
    rfl

@[simp] theorem writeElement_cfg (s : State) (b : BufId) (k : Nat) (v : Word) :
    (writeElement s b k v).cfg = s.cfg := by
  obtain ⟨p, q, m, x, y, z, w, tv, hw⟩ := writeElement_frame s b k v
  rw [hw]

@[simp] theorem rearmStep_cfg (a : ArmAction) (s : State) : (rearmStep a s).cfg = s.cfg := by
  cases a <;> rfl

/-- The four cases of the job's next step: the dispatch, no job, a computing micro-step, an action
of the re-arm. -/
@[simp] theorem jobStep_cfg (s : State) : (jobStep s.cfg.ops s).cfg = s.cfg := by
  rcases jobStep_cases s with ⟨-, -, hj⟩ | ⟨-, -, hj⟩ | ⟨u, j, hu, hj, -⟩ | ⟨a, -, hj⟩
  · rw [hj]
  · rw [hj]
  · rw [hj]
    exact hu.cfg_eq
  · rw [hj, rearmStep_cfg]

/-- RESET starts again on the same configuration (R320). -/
@[simp] theorem resetCore_cfg (s : State) : (resetCore s).cfg = s.cfg := rfl

/-- Whatever an input asks for beside its notifications keeps the configuration. -/
theorem Took.cfg_eq {u t : State} {a : Action} (h : Took u a t) : t.cfg = u.cfg := by
  cases h with
  | job => exact jobStep_cfg u
  | reset => exact resetCore_cfg u
  | command _ i _ _ => exact effect_cfg i u
  | window _ b k v _ _ => exact writeElement_cfg u b k v
  | nothing | rxWrite | txRead | read | ignored | refused | refusedRead | index | bufAddr => rfl

/-! ### No step changes the configuration -/

/-- Settles O4: a step lets the job move or takes an input, and both keep the configuration. -/
theorem configurationNeverChanges : Obligations.ConfigurationNeverChanges := by
  intro s t h
  rcases step_cases h with ⟨-, rfl⟩ | ⟨i, rest, -, ht⟩
  · exact jobStep_cfg s
  · exact ht.cfg_eq.trans (deliver_cfg i _)

end Sys2Proof.Machine
end

section
/-!
PROOFS. Every step keeps the canonical form of the buffers (R26, R60; the form: log 18).
-/

namespace Sys2Proof.Machine

open Sys2Proof

/-! ### The form after a command -/

theorem wf_opStart {s : State} (h : Memory.wf s = true) (nu : Num Scalar) :
    Memory.wf (opStart nu s) = true :=
  (Memory.wf_congr rfl rfl rfl rfl rfl rfl rfl rfl).trans (wf_opSynth h nu)

/-- Whatever a command does to the buffers, it writes each whole with at most as many elements as
the buffer has. -/
theorem wf_effect {s : State} (h : Memory.wf s = true) (i : Instr) :
    Memory.wf (effect i s) = true := by
  cases i with
  | start => exact wf_opStart h _
  | synth => exact wf_opSynth h _
  | downmix => exact wf_opDownmix h
  | corrf => exact wf_opCorrf h _
  | twgen => exact wf_opTwgen h _
  | padp => exact wf_opPadp h _
  | pade => exact wf_opPade h _
  | corrt | todist => exact h
  | bitrev d =>
    simp only [effect]
    split
    · exact wf_opBitrev h _
    · exact h
  | fft d =>
    simp only [effect]
    split
    · exact wf_opFft h _ _
    · exact h
  | ifft d =>
    simp only [effect]
    split
    · exact wf_opIfft h _ _
    · exact h
  | cmul d a b =>
    simp only [effect]
    split
    · exact wf_opCmul h _ _ _ _
    · exact h
  | peak d =>
    simp only [effect]
    split <;> exact h

/-! ### The form after whatever else a step does -/

/-- The notification handler touches no buffer (R143). -/
theorem wf_deliver {s : State} (h : Memory.wf s = true) (i : Input) :
    Memory.wf (deliver i s) = true := by
  obtain ⟨a, b, c, e, f, g, k, hd⟩ := deliver_frame i s
  rw [hd]
  exact h

theorem wf_opCorrelate {s : State} (h : Memory.wf s = true) (nu : Num Scalar) :
    Memory.wf (opCorrelate nu s) = true := by
  unfold opCorrelate
  split
  · exact h
  · exact wf_opCorrf h nu

theorem wf_jobStep {s : State} (h : Memory.wf s = true) (nu : Num Scalar) :
    Memory.wf (jobStep nu s) = true := by
  unfold jobStep
  split
  · split <;> exact h
  · exact wf_opDownmix (s := s) h
  · exact wf_opCorrelate (s := s) h nu
  · exact h
  · next a _ => cases a <;> exact h

theorem wf_rxWrite {s : State} (h : Memory.wf s = true) {k : Nat} (hk : k < s.cfg.responseLen)
    (v : Sample) : Memory.wf { s with capture := bufWrite s.capture k v } = true := by
  rw [Memory.wf_iff] at h ⊢
  obtain ⟨h0, h1, h2⟩ := h
  exact ⟨h0, bufWf_bufWrite h1 hk v, h2⟩

/-- Whatever an input asks for beside its notifications keeps the form. -/
theorem Took.wf {u t : State} {a : Action} (ht : Took u a t) (h : Memory.wf u = true) :
    Memory.wf t = true := by
  cases ht with
  | job => exact wf_jobStep h _
  | reset => exact wf_resetWith u.cfg
  | rxWrite k v _ _ hk => exact wf_rxWrite h hk v
  | command _ i _ _ => exact wf_effect h i
  | window _ b k v _ hk => exact wf_writeElement h b k v hk
  | nothing | txRead | read | ignored | refused | refusedRead | index | bufAddr => exact h

/-! ### The obligations -/

/-- Settles O53: the reset memory lists no element. -/
theorem memoryFormAtReset : Obligations.MemoryFormAtReset := wf_resetWith

/-- Settles O54: the job's step, and each thing an input can ask for, keeps the form. -/
theorem memoryFormIsKept : Obligations.MemoryFormIsKept := by
  intro s t h hst
  rcases step_cases hst with ⟨-, rfl⟩ | ⟨i, rest, -, ht⟩
  · exact wf_jobStep h _
  · exact ht.wf (wf_deliver (s := { s with inputs := rest }) h i)

end Sys2Proof.Machine
end

section
/-!
PROOFS. What `BITREV` does to each complex sample (R203): the swaps of its loop touch every pair of
positions once, so together they move to each position the sample of the reversed one.
-/

namespace Sys2Proof.Machine

open Sys2Proof

variable {F : Type}

/-! ### One swap -/

theorem pairAt_swapSamples_left (z : F) (x : List F) {i j : Nat} (hne : i ≠ j)
    (hi : 2 * i + 1 < x.length) :
    pairAt z (swapSamples z x i j) i = pairAt z x j := by
  simp only [pairAt, swapSamples]
  rw [getD_set_ne _ _ _ (by omega), getD_set_ne _ _ _ (by omega), getD_set_ne _ _ _ (by omega),
    getD_set_same _ _ _ (by omega), getD_set_ne _ _ _ (by omega),
    getD_set_same _ _ _ (by simp; omega)]

theorem pairAt_swapSamples_right (z : F) (x : List F) {i j : Nat}
    (hj : 2 * j + 1 < x.length) :
    pairAt z (swapSamples z x i j) j = pairAt z x i := by
  simp only [pairAt, swapSamples]
  rw [getD_set_ne _ _ _ (by omega), getD_set_ne _ _ _ (by omega),
    getD_set_same _ _ _ (by simp; omega), getD_set_same _ _ _ (by simp; omega)]

theorem pairAt_swapSamples_of_ne (z : F) (x : List F) {i j p : Nat} (hi : p ≠ i) (hj : p ≠ j) :
    pairAt z (swapSamples z x i j) p = pairAt z x p := by
  simp only [pairAt, swapSamples]
  rw [getD_set_ne _ _ _ (by omega), getD_set_ne _ _ _ (by omega), getD_set_ne _ _ _ (by omega),
    getD_set_ne _ _ _ (by omega), getD_set_ne _ _ _ (by omega), getD_set_ne _ _ _ (by omega),
    getD_set_ne _ _ _ (by omega), getD_set_ne _ _ _ (by omega)]

/-! ### All swaps -/

/-- The first `m` passes of the loop of R203 over `n` complex samples, `r` in place of the bit
reversal. -/
def swapPasses (z : F) (r : Nat → Nat) (m : Nat) (x : List F) : List F :=
  (List.range' 1 m).foldl (fun x i => if i < r i then swapSamples z x i (r i) else x) x

theorem bitrevList_eq (z : F) (n : Nat) (x : List F) :
    bitrevList z n x = swapPasses z (reverseBits (Nat.log2 n)) (n - 2) x := rfl

theorem swapPasses_succ (z : F) (r : Nat → Nat) (m : Nat) (x : List F) :
    swapPasses z r (m + 1) x =
      if m + 1 < r (m + 1) then swapSamples z (swapPasses z r m x) (m + 1) (r (m + 1))
      else swapPasses z r m x := by
  simp only [swapPasses, List.range'_concat, List.foldl_append, List.foldl_cons, List.foldl_nil]
  rw [show 1 + 1 * m = m + 1 by omega]

theorem length_swapPasses (z : F) (r : Nat → Nat) (m : Nat) (x : List F) :
    (swapPasses z r m x).length = x.length := by
  refine foldl_keeps (fun y : List F => y.length = x.length) _ _ _ rfl fun y i h => ?_
  split <;> simp [h]

/-- After `m` passes the samples are exchanged whose position, or its image, is at most `m`. The
exchange of `i` and `r i` is done once, in the pass of the smaller of the two. -/
theorem pairAt_swapPasses (z : F) {r : Nat → Nat} {n m : Nat} {x : List F} (h0 : r 0 = 0)
    (hlt : ∀ i < n, r i < n) (hinv : ∀ i < n, r (r i) = i) (hx : 2 * n ≤ x.length) (hm : m < n)
    {p : Nat} (hp : p < n) :
    pairAt z (swapPasses z r m x) p = pairAt z x (if p ≤ m ∨ r p ≤ m then r p else p) := by
  induction m generalizing p with
  | zero =>
    have hfix : p ≤ 0 ∨ r p ≤ 0 → r p = p := by
      intro h
      have hp0 : r p = 0 → p = 0 := fun h1 => by rw [← hinv p hp, h1, h0]
      have hr0 : p = 0 → r p = 0 := fun h1 => by rw [h1, h0]
      omega
    split
    · next h => rw [hfix h]; rfl
    · rfl
  | succ m ih =>
    have hj := hlt (m + 1) hm
    have hjj := hinv (m + 1) hm
    have hlen := length_swapPasses z r m x
    have hrp : r p = m + 1 → p = r (m + 1) := fun h => by rw [← h, hinv p hp]
    rw [swapPasses_succ]
    split
    · next hsw =>
      rcases eq_or_ne p (m + 1) with rfl | h1
      · rw [pairAt_swapSamples_left z _ (by omega) (by omega), ih (by omega) hj, hjj,
          if_neg (by omega), if_pos (by omega)]
      rcases eq_or_ne p (r (m + 1)) with rfl | h2
      · rw [pairAt_swapSamples_right z _ (by omega), ih (by omega) hm, hjj,
          if_neg (by omega), if_pos (by omega)]
      · rw [pairAt_swapSamples_of_ne z _ h1 h2, ih (by omega) hp]
        congr 1
        exact if_congr (by omega) rfl rfl
    · next hsw =>
      rw [ih (by omega) hp]
      congr 1
      rcases eq_or_ne p (m + 1) with rfl | h1
      · split <;> split <;> omega
      · split <;> split <;> omega

theorem reverseBits_zero (k : Nat) : reverseBits k 0 = 0 := by
  induction k with
  | zero => rfl
  | succ k ih => simp [reverseBits, ih]

/-- R203: `BITREV` leaves at position `p` the sample of position `rev_n(p)`. -/
theorem pairAt_bitrevList (z : F) {n : Nat} (hn : n = 2 ^ Nat.log2 n) {x : List F}
    (hx : 2 * n ≤ x.length) {p : Nat} (hp : p < n) :
    pairAt z (bitrevList z n x) p = pairAt z x (reverseBits (Nat.log2 n) p) := by
  have hlt : ∀ i < n, reverseBits (Nat.log2 n) i < n := fun i _ =>
    lt_of_lt_of_eq (reverseBits_lt _ i) hn.symm
  have hinv : ∀ i < n, reverseBits (Nat.log2 n) (reverseBits (Nat.log2 n) i) = i := fun i hi =>
    reverseBits_reverseBits _ i (lt_of_lt_of_eq hi hn)
  have hq := hlt p hp
  rw [bitrevList_eq,
    pairAt_swapPasses z (n := n) (reverseBits_zero _) hlt hinv hx (by omega) hp]
  split
  · rfl
  · congr 1
    omega

end Sys2Proof.Machine
end

section
/-!
PROOFS. What `TW_VALID` promises (R25 bit 8, R37, R202): every operation but `CORRF` keeps the table or
ends its validity, and `CORRF` generates and bit-reverses it.
-/

namespace Sys2Proof.Machine

open Sys2Proof

/-! ### The table the bit promises -/

theorem tableInv_congr {s t : State} (hc : t.cfg = s.cfg) (ht : t.tw = s.tw)
    (hv : t.twValid = s.twValid) (h : TableInv s) : TableInv t := by
  unfold TableInv at *
  rw [hc, ht, hv]
  exact h

/-- The table has `2^k` complex entries. -/
theorem half_n_pow (c : Config) : c.n / 2 = 2 ^ Nat.log2 (c.n / 2) := by
  obtain ⟨k, -, hn⟩ := c.exists_pow
  have hk : c.n / 2 = 2 ^ k := by rw [hn, pow_succ]; omega
  rw [hk, Nat.log2_two_pow]

/-- After `TWGEN` the table's contents are the list it computes. -/
theorem twiddleList_opTwgen (nu : Num Scalar) (s : State) :
    twiddleList (opTwgen nu s) = twiddleTable nu s.cfg.n := by
  have h := bufToList_bufOfList (l := twiddleTable nu s.cfg.n)
  rw [length_twiddleTable, s.cfg.two_mul_half_n] at h
  exact h

/-- `TWGEN` then `BITREV TW`: complex entry `j` is the pair `TWGEN` computes for entry `rev(j)`. -/
theorem pairAt_bitrev_twiddleTable (nu : Num Scalar) (c : Config) {j : Nat} (hj : j < c.n / 2) :
    pairAt 0 (bitrevList 0 (c.n / 2) (twiddleTable nu c.n)) j =
      (nu.fcos (twiddleAngle nu c.n (reverseBits (Nat.log2 (c.n / 2)) j)),
        nu.fsin (twiddleAngle nu c.n (reverseBits (Nat.log2 (c.n / 2)) j))) := by
  have hr : reverseBits (Nat.log2 (c.n / 2)) j < c.n / 2 :=
    lt_of_lt_of_eq (reverseBits_lt _ j) (half_n_pow c).symm
  obtain ⟨hcos, hsin⟩ := getD_flatMap_pair (fun i => nu.fcos (twiddleAngle nu c.n i))
    (fun i => nu.fsin (twiddleAngle nu c.n i)) 0 _ _ hr
  rw [pairAt_bitrevList 0 (half_n_pow c) (by rw [length_twiddleTable]) hj]
  exact Prod.ext hcos hsin

theorem prepareTable_of_valid {s : State} (nu : Num Scalar) (h : s.twValid = true) :
    prepareTable nu s = s := by
  simp [prepareTable, h]

theorem prepareTable_of_not_valid {s : State} (nu : Num Scalar) (h : s.twValid = false) :
    prepareTable nu s = { opBitrev .tw (opTwgen nu s) with twValid := true } :=
  if_pos h

/-- Step 2 of R250 leaves the promised table, whichever of its two cases applies. -/
theorem tableInv_prepareTable {s : State} {nu : Num Scalar} (hnu : nu = s.cfg.ops)
    (h : TableInv s) : TableInv (prepareTable nu s) := by
  cases hv : s.twValid with
  | true =>
    rw [prepareTable_of_valid nu hv]
    exact h
  | false =>
    rw [prepareTable_of_not_valid nu hv]
    intro _ j hj i hi a ha
    subst hnu hi ha
    have hp := pairAt_bitrev_twiddleTable s.cfg.ops s.cfg hj
    rw [← twiddleList_opTwgen] at hp
    obtain ⟨hcos, hsin⟩ := Prod.ext_iff.1 hp
    exact ⟨(bufRead_bufOfList _ _).trans hcos, (bufRead_bufOfList _ _).trans hsin⟩

/-! ### What keeps the table -/

/-- From `s` to `t` the table is kept or its validity ends; nothing makes it valid. -/
def TableKept (s t : State) : Prop :=
  t.cfg = s.cfg ∧ (t.twValid = true → s.twValid = true ∧ t.tw = s.tw)

theorem TableKept.of_eq {s t : State} (hc : t.cfg = s.cfg) (hv : t.twValid = s.twValid)
    (ht : t.tw = s.tw) : TableKept s t :=
  ⟨hc, fun h => ⟨hv ▸ h, ht⟩⟩

theorem TableKept.of_invalid {s t : State} (hc : t.cfg = s.cfg) (hv : t.twValid = false) :
    TableKept s t :=
  ⟨hc, fun h => absurd (hv.symm.trans h) (by decide)⟩

theorem TableKept.refl (s : State) : TableKept s s := .of_eq rfl rfl rfl

theorem TableKept.trans {s t u : State} (h1 : TableKept s t) (h2 : TableKept t u) :
    TableKept s u := by
  obtain ⟨hc1, hv1⟩ := h1
  obtain ⟨hc2, hv2⟩ := h2
  refine ⟨hc2.trans hc1, fun hu => ?_⟩
  obtain ⟨ht, htw⟩ := hv2 hu
  obtain ⟨hs, hsw⟩ := hv1 ht
  exact ⟨hs, htw.trans hsw⟩

theorem TableKept.tableInv {s t : State} (h : TableKept s t) (hs : TableInv s) : TableInv t := by
  obtain ⟨hc, hv⟩ := h
  intro ht
  obtain ⟨hsv, htw⟩ := hv ht
  exact tableInv_congr hc htw (ht.trans hsv.symm) hs ht

theorem tableKept_deliver (i : Input) (s : State) : TableKept s (deliver i s) := by
  obtain ⟨a, b, c, e, f, g, h, hd⟩ := deliver_frame i s
  rw [hd]
  exact .of_eq rfl rfl rfl

theorem tableKept_setSpectrum (s : State) (x : Spectrum) (l : List Scalar) :
    TableKept s (setSpectrum s x l) := by
  cases x <;> exact .of_eq rfl rfl rfl

theorem tableKept_opBitrev (b : ScalarBuf) (s : State) : TableKept s (opBitrev b s) := by
  cases b with
  | spectrum x => exact tableKept_setSpectrum s x _
  | tw => exact .of_invalid rfl rfl

theorem tableKept_opStart (nu : Num Scalar) (s : State) : TableKept s (opStart nu s) :=
  .of_eq (by simp [opStart, arm]) (by simp [opStart, arm]) (by simp [opStart, arm])

/-- Every command but `CORRF`: `TWGEN` and `BITREV TW` clear `TW_VALID`, the others leave the table. -/
theorem tableKept_effect {i : Instr} (hi : i ≠ .corrf) (s : State) : TableKept s (effect i s) := by
  cases i with
  | corrf => exact absurd rfl hi
  | twgen => exact .of_invalid rfl rfl
  | start => exact tableKept_opStart _ s
  | synth | downmix | corrt | todist => exact .of_eq rfl rfl rfl
  | padp | pade => exact tableKept_setSpectrum s _ _
  | bitrev d =>
    simp only [effect]
    split
    · exact tableKept_opBitrev _ s
    · exact .refl s
  | fft d | ifft d | cmul d a b =>
    simp only [effect]
    split
    · exact tableKept_setSpectrum s _ _
    · exact .refl s
  | peak d =>
    simp only [effect]
    split <;> exact .of_eq rfl rfl rfl

theorem tableKept_writeElement (s : State) (b : BufId) (k : Nat) (v : Word) :
    TableKept s (writeElement s b k v) := by
  cases b with
  | tw => exact .of_invalid rfl rfl
  | probe | capture | mono | ssp | rsp | xsp => exact .of_eq rfl rfl rfl

/-! ### What can make the table valid -/

/-- After the table is prepared, `CORRF` only reads it. -/
theorem tableInv_opCorrf {s : State} (h : TableInv s) : TableInv (opCorrf s.cfg.ops s) := by
  have hpad : TableKept s (opPade s.cfg.ops (opPadp s.cfg.ops s)) :=
    (tableKept_setSpectrum _ _ _).trans (tableKept_setSpectrum _ _ _)
  refine TableKept.tableInv ?_ (tableInv_prepareTable (congrArg Config.ops hpad.1.symm)
    (hpad.tableInv h))
  unfold opCorrf
  refine .trans ?_ (.of_eq rfl rfl rfl)
  refine .trans ?_ (tableKept_setSpectrum _ _ _)
  refine .trans ?_ (tableKept_setSpectrum _ _ _)
  exact (tableKept_setSpectrum _ _ _).trans (tableKept_setSpectrum _ _ _)

/-- `t` has the configuration and the table that `CORRF` leaves of `s`, as a command or as
micro-step 2. -/
def RanCorrf (s t : State) : Prop :=
  t.cfg = (opCorrf s.cfg.ops s).cfg ∧ t.tw = (opCorrf s.cfg.ops s).tw ∧
  t.twValid = (opCorrf s.cfg.ops s).twValid

theorem RanCorrf.tableInv {s t : State} (h : RanCorrf s t) (hs : TableInv s) : TableInv t := by
  obtain ⟨hc, ht, hv⟩ := h
  exact tableInv_congr hc ht hv (tableInv_opCorrf hs)

/-- The job's step keeps the table but for micro-step 2 of a FREQ build. -/
theorem jobStep_table (s : State) :
    TableKept s (jobStep s.cfg.ops s) ∨
    s.jstep = .correlate ∧ s.cfg.strategy = .freq ∧ RanCorrf s (jobStep s.cfg.ops s) := by
  unfold jobStep
  split
  · exact .inl (by split <;> exact .of_eq rfl rfl rfl)
  · exact .inl (.of_eq rfl rfl rfl)
  · next hj =>
    unfold opCorrelate
    split
    · exact .inl (.of_eq rfl rfl rfl)
    · next hf => exact .inr ⟨hj, hf, rfl, rfl, rfl⟩
  · exact .inl (.of_eq rfl rfl rfl)
  · next a _ => exact .inl (by cases a <;> exact .of_eq rfl rfl rfl)

theorem validShape_iff (o b : Nat) : validShape o b = true ↔ b = 4 ∧ o % 4 = 0 := by
  simp [validShape]

/-- Of the offsets, 0 alone is that of `CMD`. -/
theorem hostReg_eq_cmd {o : Nat} (h : hostReg o = .cmd) : o = 0 := by
  unfold hostReg at h
  split at h
  · rfl
  all_goals cases h

/-- A host write keeps the table, but a write of `CORRF`'s word to `CMD`. -/
theorem hostWrite_table {r : HostReg} {v : Word} {u t : State} (h : hostWrite r v u = .next t) :
    TableKept u t ∨ r = .cmd ∧ decode v = .ok .corrf ∧ RanCorrf u t := by
  cases r with
  | cmd =>
    simp only [hostWrite, writeCommand] at h
    split at h
    · next i hd =>
      rcases exec_cases h with ⟨-, -, rfl⟩ | rfl
      · by_cases hi : i = .corrf
        · subst hi
          exact .inr ⟨rfl, hd, rfl, rfl, rfl⟩
        · exact .inl (tableKept_effect hi u)
      · exact .inl (.of_eq rfl rfl rfl)
    · cases h
      exact .inl (.of_eq rfl rfl rfl)
  | index =>
    cases h
    unfold writeIndex
    exact .inl (by split <;> exact .of_eq rfl rfl rfl)
  | bufData =>
    cases h
    unfold writeWindow
    split
    · exact .inl (tableKept_writeElement u _ _ _)
    · exact .inl (.of_eq rfl rfl rfl)
  | bufAddr | status | result | jobs | reserved =>
    cases h
    exact .inl (.of_eq rfl rfl rfl)

theorem tableKept_hostRead (r : HostReg) (u : State) : TableKept u (hostRead r u) := by
  cases r with
  | bufData =>
    simp only [hostRead, readWindow]
    split <;> exact .of_eq rfl rfl rfl
  | cmd | status | result | index | bufAddr | jobs | reserved => exact .of_eq rfl rfl rfl

/-- Whatever an input asks for beside its notifications keeps the table, but `CORRF` from the host or
in the job. -/
theorem perform_table {a : Action} {u t : State} (h : perform a u = .next t) :
    TableKept u t ∨
    RanCorrf u t ∧ ((∃ w, a = .access (.write 0x00 4 w) ∧ decode w = .ok .corrf) ∨
      a = .job ∧ u.jstep = .correlate ∧ u.cfg.strategy = .freq) := by
  cases a with
  | nothing => cases h; exact .inl (.refl u)
  | reset => cases h; exact .inl (.of_invalid rfl rfl)
  | job =>
    cases h
    rcases jobStep_table u with hk | ⟨hj, hf, hr⟩
    · exact .inl hk
    · exact .inr ⟨hr, .inr ⟨rfl, hj, hf⟩⟩
  | rxWrite k v =>
    cases perform_took h
    exact .inl (.of_eq rfl rfl rfl)
  | txRead k =>
    cases perform_took h
    exact .inl (.of_eq rfl rfl rfl)
  | access a =>
    cases a with
    | read o b =>
      simp only [perform, hostAccess] at h
      split at h
      · cases h; exact .inl (tableKept_hostRead _ u)
      · cases h
    | write o b v =>
      simp only [perform, hostAccess] at h
      split at h
      · next hs =>
        rcases hostWrite_table h with hk | ⟨hcmd, hd, hr⟩
        · exact .inl hk
        · have ho := hostReg_eq_cmd hcmd
          obtain ⟨hb, -⟩ := (validShape_iff o b).1 hs
          subst ho hb
          exact .inr ⟨hr, .inl ⟨v, rfl, hd⟩⟩
      · cases h

/-! ### The obligation -/

theorem tableInv_resetWith (c : Config) : TableInv (State.resetWith c) :=
  fun h => absurd h (by simp [State.resetWith])

/-- Every step keeps what the bit promises. -/
theorem step_tableInv {s t : State} (hs : TableInv s) (h : step s = .next t) : TableInv t := by
  rcases hi : s.inputs with _ | ⟨i, rest⟩
  · rw [step_nil hi] at h
    cases h
    rcases jobStep_table s with hk | ⟨-, -, hr⟩
    · exact hk.tableInv hs
    · exact hr.tableInv hs
  · rw [step_cons hi] at h
    have hu : TableInv (deliver i { s with inputs := rest }) :=
      (tableKept_deliver i _).tableInv (tableInv_congr rfl rfl rfl hs)
    rcases perform_table h with hk | ⟨hr, -⟩
    · exact hk.tableInv hu
    · exact hr.tableInv hu

/-- A step that makes the table valid runs `CORRF`. -/
theorem step_sets_twValid {s t : State} (h : step s = .next t) (hs : s.twValid = false)
    (ht : t.twValid = true) :
    (∃ i rest w, s.inputs = i :: rest ∧ i.action = .access (.write 0x00 4 w) ∧
      decode w = .ok .corrf) ∨
    (s.cfg.strategy = .freq ∧ s.jstep = .correlate ∧
      (s.inputs = [] ∨ ∃ i rest, s.inputs = i :: rest ∧ i.action = .job)) := by
  have hnot : ∀ {u : State}, u.twValid = false → ¬ TableKept u t := fun hu hk =>
    absurd (hu.symm.trans (hk.2 ht).1) (by decide)
  rcases hi : s.inputs with _ | ⟨i, rest⟩
  · rw [step_nil hi] at h
    cases h
    rcases jobStep_table s with hk | ⟨hj, hf, -⟩
    · exact absurd hk (hnot hs)
    · exact .inr ⟨hf, hj, .inl rfl⟩
  · rw [step_cons hi] at h
    obtain ⟨a, b, c, e, f, g, k, hd⟩ := deliver_frame i { s with inputs := rest }
    rw [hd] at h
    rcases perform_table h with hk | ⟨-, ⟨w, ha, hw⟩ | ⟨ha, hj, hf⟩⟩
    · exact absurd hk (hnot hs)
    · exact .inl ⟨i, rest, w, rfl, ha, hw⟩
    · exact .inr ⟨hf, hj, .inr ⟨i, rest, rfl, ha⟩⟩

/-- Settles O60: `TW_VALID` is 0 after reset, `CORRF` generates and reverses the table before it sets
the bit, and everything else keeps the table or clears the bit. -/
theorem twValidMeansTheGeneratedTable : Obligations.TwValidMeansTheGeneratedTable :=
  ⟨tableInv_resetWith, fun _ _ => step_tableInv, fun _ _ => step_sets_twValid⟩

end Sys2Proof.Machine
end

section
/-!
PROOFS. What every step but RESET keeps of the controller: `JSTEP` advances in its order and `JOBS`
counts its return to 0 (R23, R34); `STARTED`, `RESULT_VALID` and `CMD_ERR` stay set (R25, R285).
-/

namespace Sys2Proof.Machine

open Sys2Proof

/-! ### `JSTEP` and `JOBS` -/

/-- From `s` to `t` the job stays where it is, advances by one, or ends and is counted. -/
def JobAdvanced (s t : State) : Prop :=
  (t.jstep.code = s.jstep.code ∧ t.jobs = s.jobs) ∨
  (s.jstep.code ≠ 4 ∧ t.jstep.code = s.jstep.code + 1 ∧ t.jobs = s.jobs) ∨
  (s.jstep.code = 4 ∧ t.jstep.code = 0 ∧ t.jobs = s.jobs + 1)

theorem JobAdvanced.of_eq {s t : State} (hj : t.jstep = s.jstep) (hn : t.jobs = s.jobs) :
    JobAdvanced s t :=
  .inl ⟨congrArg JobStep.code hj, hn⟩

/-- The micro-steps that compute are 1 to 3. -/
theorem code_ne_four_of_computing {j : JobStep} (h : j.computing = true) : j.code ≠ 4 := by
  cases j with
  | downmix | correlate | convert => decide
  | stopped | rearm a => cases h

theorem ComputesOnly.jobs_eq {s t : State} (h : ComputesOnly s t) : t.jobs = s.jobs := by
  obtain ⟨m, a, b, c, d, v, rv, r, ix, rfl, -⟩ := h
  rfl

theorem ComputesOnly.jstep_eq {s t : State} (h : ComputesOnly s t) : t.jstep = s.jstep := by
  obtain ⟨m, a, b, c, d, v, rv, r, ix, rfl, -⟩ := h
  rfl

/-- The last action of the re-arm ends the job; the others stay in micro-step 4. -/
theorem jobAdvanced_rearmStep {s : State} {a : ArmAction} (h : s.jstep = .rearm a) :
    JobAdvanced s (rearmStep a s) := by
  have h4 : s.jstep.code = 4 := by rw [h]; rfl
  cases a with
  | enableTx => exact .inr (.inr ⟨h4, rfl, rfl⟩)
  | clearFlags | cfgRx | cfgTx | enableRx => exact .inl ⟨h4.symm, rfl⟩

theorem jobAdvanced_jobStep (s : State) : JobAdvanced s (jobStep s.cfg.ops s) := by
  rcases jobStep_cases s with ⟨hj, -, h⟩ | ⟨-, -, h⟩ | ⟨u, j, hu, h, hc, hcode, -⟩ | ⟨a, hj, h⟩
  · rw [h]
    exact .inr (.inl ⟨by rw [hj]; decide, by rw [hj]; rfl, rfl⟩)
  · rw [h]
    exact .of_eq rfl rfl
  · rw [h]
    exact .inr (.inl ⟨code_ne_four_of_computing hc, hcode, hu.jobs_eq⟩)
  · rw [h]
    exact jobAdvanced_rearmStep hj

theorem jobAdvanced_effect (i : Instr) (s : State) : JobAdvanced s (effect i s) := by
  rcases effect_cases i s with hc | ⟨p, hp⟩ | ⟨p, hp⟩
  · exact .of_eq hc.jstep_eq hc.jobs_eq
  · rw [hp]
    exact .of_eq rfl rfl
  · rw [hp]
    exact .of_eq rfl rfl

theorem jobAdvanced_writeElement (s : State) (b : BufId) (k : Nat) (v : Word) :
    JobAdvanced s (writeElement s b k v) := by
  obtain ⟨p, q, m, x, y, z, w, tv, hw⟩ := writeElement_frame s b k v
  rw [hw]
  exact .of_eq rfl rfl

theorem Took.jobAdvanced {u t : State} {a : Action} (h : Took u a t) (ha : a ≠ .reset) :
    JobAdvanced u t := by
  cases h with
  | job => exact jobAdvanced_jobStep u
  | reset => exact absurd rfl ha
  | command _ i _ _ => exact jobAdvanced_effect i u
  | window _ b k v _ _ => exact jobAdvanced_writeElement u b k v
  | nothing | rxWrite | txRead | read | ignored | refused | refusedRead | index | bufAddr =>
    exact .of_eq rfl rfl

/-- Settles O50: only the job's own step moves `JSTEP`, and only its last re-arm action counts. -/
theorem jobStepsAdvanceAndAreCounted : Obligations.JobStepsAdvanceAndAreCounted := by
  intro s t h hr
  rcases step_cases h with ⟨-, rfl⟩ | ⟨i, rest, hi, ht⟩
  · exact jobAdvanced_jobStep s
  · obtain ⟨a, b, c, e, f, g, k, hd⟩ := deliver_frame i { s with inputs := rest }
    rw [hd] at ht
    exact ht.jobAdvanced (hr i rest hi)

/-! ### The bits only RESET clears -/

/-- From `s` to `t` none of `STARTED`, `RESULT_VALID` and `CMD_ERR` is cleared. -/
def StickyKept (s t : State) : Prop :=
  (s.started = true → t.started = true) ∧ (s.resultValid = true → t.resultValid = true) ∧
  (s.cmdErr = true → t.cmdErr = true)

theorem StickyKept.refl (s : State) : StickyKept s s := ⟨id, id, id⟩

theorem ComputesOnly.stickyKept {s t : State} (h : ComputesOnly s t) : StickyKept s t := by
  obtain ⟨m, a, b, c, d, v, rv, r, ix, rfl, hrv⟩ := h
  exact ⟨id, hrv, id⟩

theorem stickyKept_rearmStep (a : ArmAction) (s : State) : StickyKept s (rearmStep a s) := by
  cases a <;> exact ⟨id, id, id⟩

theorem stickyKept_jobStep (s : State) : StickyKept s (jobStep s.cfg.ops s) := by
  rcases jobStep_cases s with ⟨-, -, h⟩ | ⟨-, -, h⟩ | ⟨u, j, hu, h, -⟩ | ⟨a, -, h⟩
  · rw [h]
    exact ⟨id, id, id⟩
  · rw [h]
    exact .refl s
  · rw [h]
    exact hu.stickyKept
  · rw [h]
    exact stickyKept_rearmStep a s

theorem stickyKept_effect (i : Instr) (s : State) : StickyKept s (effect i s) := by
  rcases effect_cases i s with hc | ⟨p, hp⟩ | ⟨p, hp⟩
  · exact hc.stickyKept
  · rw [hp]
    exact ⟨id, id, id⟩
  · rw [hp]
    exact ⟨fun _ => rfl, id, id⟩

theorem stickyKept_writeElement (s : State) (b : BufId) (k : Nat) (v : Word) :
    StickyKept s (writeElement s b k v) := by
  obtain ⟨p, q, m, x, y, z, w, tv, hw⟩ := writeElement_frame s b k v
  rw [hw]
  exact ⟨id, id, id⟩

theorem Took.stickyKept {u t : State} {a : Action} (h : Took u a t) (ha : a ≠ .reset) :
    StickyKept u t := by
  cases h with
  | job => exact stickyKept_jobStep u
  | reset => exact absurd rfl ha
  | command _ i _ _ => exact stickyKept_effect i u
  | window _ b k v _ _ => exact stickyKept_writeElement u b k v
  | refused | refusedRead => exact ⟨id, id, fun _ => rfl⟩
  | nothing | rxWrite | txRead | read | ignored | index | bufAddr => exact ⟨id, id, id⟩

/-- Settles O51: RESET alone starts again from a state in which the three bits are 0. -/
theorem stickyBitsStaySet : Obligations.StickyBitsStaySet := by
  intro s t h hr
  rcases step_cases h with ⟨-, rfl⟩ | ⟨i, rest, hi, ht⟩
  · exact stickyKept_jobStep s
  · obtain ⟨a, b, c, e, f, g, k, hd⟩ := deliver_frame i { s with inputs := rest }
    rw [hd] at ht
    exact ht.stickyKept (hr i rest hi)

end Sys2Proof.Machine
end

section
/-!
PROOFS. No command reads an odd-indexed element of `CAPTURE` (R28, R180): `DOWNMIX` alone reads `CAPTURE`,
at even indices.
-/

namespace Sys2Proof.Machine

open Sys2Proof

/-- `s` with `c` as the contents of `CAPTURE`. -/
def withCapture (c : Buf Sample) (s : State) : State := { s with capture := c }

/-! ### Operations that do not touch `CAPTURE` -/

theorem setSpectrum_withCapture (c : Buf Sample) (s : State) (x : Spectrum) (l : List Scalar) :
    setSpectrum (withCapture c s) x l = withCapture c (setSpectrum s x l) := by
  cases x <;> rfl

theorem spectrumList_withCapture (c : Buf Sample) (s : State) (x : Spectrum) :
    spectrumList (withCapture c s) x = spectrumList s x := by
  cases x <;> rfl

theorem opPadp_withCapture (nu : Num Scalar) (c : Buf Sample) (s : State) :
    opPadp nu (withCapture c s) = withCapture c (opPadp nu s) := rfl

theorem opPade_withCapture (nu : Num Scalar) (c : Buf Sample) (s : State) :
    opPade nu (withCapture c s) = withCapture c (opPade nu s) := rfl

theorem opFft_withCapture (nu : Num Scalar) (x : Spectrum) (c : Buf Sample) (s : State) :
    opFft nu x (withCapture c s) = withCapture c (opFft nu x s) := by
  rw [opFft, setSpectrum_withCapture, spectrumList_withCapture]
  rfl

theorem opIfft_withCapture (nu : Num Scalar) (x : Spectrum) (c : Buf Sample) (s : State) :
    opIfft nu x (withCapture c s) = withCapture c (opIfft nu x s) := by
  rw [opIfft, setSpectrum_withCapture, spectrumList_withCapture]
  rfl

theorem opCmul_withCapture (nu : Num Scalar) (x y z : Spectrum) (c : Buf Sample) (s : State) :
    opCmul nu x y z (withCapture c s) = withCapture c (opCmul nu x y z s) := by
  rw [opCmul, setSpectrum_withCapture, spectrumList_withCapture, spectrumList_withCapture]
  rfl

theorem opPeak_withCapture (nu : Num Scalar) (x : Spectrum) (c : Buf Sample) (s : State) :
    opPeak nu x (withCapture c s) = withCapture c (opPeak nu x s) := by
  rw [opPeak, spectrumList_withCapture]
  rfl

theorem opBitrev_withCapture (b : ScalarBuf) (c : Buf Sample) (s : State) :
    opBitrev b (withCapture c s) = withCapture c (opBitrev b s) := by
  cases b with
  | spectrum x =>
    simp only [opBitrev]
    rw [setSpectrum_withCapture, spectrumList_withCapture]
    rfl
  | tw => rfl

theorem prepareTable_withCapture (nu : Num Scalar) (c : Buf Sample) (s : State) :
    prepareTable nu (withCapture c s) = withCapture c (prepareTable nu s) := by
  cases h : s.twValid with
  | false =>
    rw [prepareTable_of_not_valid nu h, prepareTable_of_not_valid (s := withCapture c s) nu h]
    rfl
  | true => rw [prepareTable_of_valid nu h, prepareTable_of_valid (s := withCapture c s) nu h]

theorem opCorrf_withCapture (nu : Num Scalar) (c : Buf Sample) (s : State) :
    opCorrf nu (withCapture c s) = withCapture c (opCorrf nu s) := by
  simp only [opCorrf, opPadp_withCapture, opPade_withCapture, prepareTable_withCapture,
    opFft_withCapture, opCmul_withCapture, opIfft_withCapture, opPeak_withCapture]

/-! ### The one that reads it -/

/-- `DOWNMIX` reads the elements `2i` (R180). -/
theorem opDownmix_withCapture {c : Buf Sample} {s : State}
    (h : ∀ k, bufRead c (2 * k) = bufRead s.capture (2 * k)) :
    opDownmix (withCapture c s) = withCapture c (opDownmix s) := by
  simp only [opDownmix, withCapture, h]

theorem effect_withCapture (i : Instr) {c : Buf Sample} {s : State}
    (h : ∀ k, bufRead c (2 * k) = bufRead s.capture (2 * k)) :
    effect i (withCapture c s) = withCapture c (effect i s) := by
  cases i with
  | downmix => exact opDownmix_withCapture h
  | corrf => exact opCorrf_withCapture _ c s
  | start | synth | corrt | todist | twgen | padp | pade => rfl
  | bitrev d =>
    simp only [effect]
    split
    · exact opBitrev_withCapture _ c s
    · rfl
  | fft d =>
    simp only [effect]
    split
    · exact opFft_withCapture _ _ c s
    · rfl
  | ifft d =>
    simp only [effect]
    split
    · exact opIfft_withCapture _ _ c s
    · rfl
  | cmul d a b =>
    simp only [effect]
    split
    · exact opCmul_withCapture _ _ _ _ c s
    · rfl
  | peak d =>
    simp only [effect]
    split
    · exact opPeak_withCapture _ _ c s
    · rfl

/-- Settles O55: a command that is accepted has the same effect but for the replaced contents, and
acceptance does not depend on them. -/
theorem oddCaptureElementsAreNeverRead : Obligations.OddCaptureElementsAreNeverRead := by
  intro i s t c hc h
  change exec i (withCapture c s) = .next (withCapture c t)
  have hidle : cstate (withCapture c s) = cstate s := rfl
  rw [exec_eq, acceptCommand] at h ⊢
  rw [hidle, effect_withCapture i hc]
  split at h
  · next hok =>
    cases h
    rw [if_pos hok]
  · next hbad =>
    cases h
    rw [if_neg hbad]
    rfl

end Sys2Proof.Machine
end

section
/-!
PROOFS. The host's view of the state: its values after reset (R39), the bits of `STATUS` (R25), what a read
and a write of each register do (R31 to R35), and the window on the buffers (R36).
-/

namespace Sys2Proof.Machine

open Sys2Proof

/-! ### Reset -/

theorem elementWord_resetWith (c : Config) (b : BufId) (i : Nat) :
    elementWord (State.resetWith c) b i = 0 := by
  have hzero : c.ops.bits 0 = 0 := c.ops_fzero ▸ c.ops_lawful.bits_zero
  cases b with
  | probe | capture | mono => rfl
  | ssp | rsp | xsp | tw => exact hzero

/-- After reset `STATUS` shows the strategy alone. -/
theorem statusWord_resetWith (c : Config) :
    statusWord (State.resetWith c) = if c.strategy = .freq then 0x400 else 0 := by
  have hidle : (cstate (State.resetWith c)).code = 0 := rfl
  have hrun : jobRunning (State.resetWith c) = false := rfl
  rw [statusWord, hidle, hrun]
  simp only [State.resetWith]
  cases c.strategy <;> decide

/-- Settles O1: every field is the literal of R39, and `fzero` is the value a buffer that lists nothing
reads as. -/
theorem resetHoldsTheStatedValues : Obligations.ResetHoldsTheStatedValues := by
  intro c s hs
  subst hs
  have hz : ∀ i, bufRead ([] : Buf Scalar) i = c.ops.fzero := fun _ => c.ops_fzero.symm
  exact ⟨fun _ => ⟨rfl, rfl, rfl⟩, fun i => ⟨hz i, hz i, hz i, hz i⟩, elementWord_resetWith c,
    rfl, rfl, rfl, rfl, rfl, rfl, rfl, rfl, rfl, rfl, rfl, rfl, rfl, rfl, rfl, rfl, rfl,
    statusWord_resetWith c⟩

/-! ### `STATUS` -/

/-- The field `STATUS[14:12]` is the controller state's code. -/
theorem statusWord_cstate (s : State) : (statusWord s).extractLsb' 12 3 = (cstate s).code := by
  refine BitVec.eq_of_getLsbD_eq fun k hk => ?_
  rw [BitVec.getLsbD_extractLsb', statusWord_getLsbD, Nat.add_comm 12 k]
  simp [hk]

/-- The controller state's code, by the lines of R141. -/
theorem cstate_code (s : State) : (cstate s).code =
    (if s.started = false then 0
    else if s.jstep ≠ .stopped then 4
    else if s.jobPending = true ∨ (s.rxDone = true ∧ s.txDone = true) then 3
    else if s.rxDone ≠ s.txDone then 2
    else 1) := by
  rw [cstate]
  simp only [apply_ite CState.code]
  rfl

/-- Different controller states have different codes. -/
theorem CState.code_injective : Function.Injective CState.code := by
  intro a b
  cases a <;> cases b <;> decide

/-- Settles O3: the bits by the layout of the word, the field by the lines of R141. -/
theorem statusBitsAreLiveViews : Obligations.StatusBitsAreLiveViews := by
  intro s
  have hstate : ∀ a : CState, cstate s = a ↔ (statusWord s).extractLsb' 12 3 = a.code := fun a => by
    rw [statusWord_cstate, CState.code_injective.eq_iff]
  have hhigh : ∀ k, 15 ≤ k → (statusWord s).getLsbD k = false := fun k hk => by
    obtain ⟨j, rfl⟩ := Nat.exists_eq_add_of_le hk
    rw [statusWord_getLsbD, show 15 + j = j + 3 + 12 by omega]
    exact BitVec.getLsbD_of_ge _ _ (by omega)
  refine ⟨statusWord_getLsbD s 0, statusWord_getLsbD s 1, statusWord_getLsbD s 2,
    statusWord_getLsbD s 3, statusWord_getLsbD s 4, ?_, statusWord_getLsbD s 6,
    statusWord_getLsbD s 7, statusWord_getLsbD s 8, statusWord_getLsbD s 9, ?_,
    statusWord_getLsbD s 11, (statusWord_cstate s).trans (cstate_code s), hstate .idle,
    hstate .armed, hstate .partialDone, hstate .ready, hstate .processing, hhigh⟩
  · rw [statusWord_getLsbD]
    exact jobRunning_iff s
  · rw [statusWord_getLsbD]
    exact beq_iff_eq

/-! ### Host accesses -/

/-- A step that takes an aligned 32-bit read. -/
theorem step_read {s : State} {rx tx : Bool} {o : Nat} {rest : List Input}
    (h : s.inputs = ⟨rx, tx, .access (.read o 4)⟩ :: rest) (ho : o % 4 = 0) :
    step s = .next (hostRead (hostReg o)
      (deliver ⟨rx, tx, .access (.read o 4)⟩ { s with inputs := rest })) := by
  rw [step_cons h]
  exact if_pos ((validShape_iff o 4).2 ⟨rfl, ho⟩)

/-- A step that takes an aligned 32-bit write. -/
theorem step_write {s : State} {rx tx : Bool} {o : Nat} {v : Word} {rest : List Input}
    (h : s.inputs = ⟨rx, tx, .access (.write o 4 v)⟩ :: rest) (ho : o % 4 = 0) :
    step s = hostWrite (hostReg o) v
      (deliver ⟨rx, tx, .access (.write o 4 v)⟩ { s with inputs := rest }) := by
  rw [step_cons h]
  exact if_pos ((validShape_iff o 4).2 ⟨rfl, ho⟩)

/-- The offsets from `0x1C` up are reserved (log 19). -/
theorem hostReg_reserved {o : Nat} (h : 0x1C ≤ o) : hostReg o = .reserved := by
  obtain ⟨j, rfl⟩ := Nat.exists_eq_add_of_le' h
  rfl

/-- Settles O8: the register at offset 0 is `CMD`, and a write of it decodes the word. -/
theorem stepRunsTheDecodedCommand : Obligations.StepRunsTheDecodedCommand := by
  intro s rx tx w rest h
  rw [step_write h rfl]
  refine ⟨fun i hd => ?_, fun e hd => ?_⟩
  · simp [hostReg, hostWrite, writeCommand, hd]
  · simp [hostReg, hostWrite, writeCommand, hd, refuseAccess]

/-- Settles O56: one case for each offset of R25, and one for the reserved ones. -/
theorem hostReadsReturnTheRegisters : Obligations.HostReadsReturnTheRegisters := by
  intro s u rx tx o rest h hu ho hne
  rw [step_read h ho, ← hu]
  rcases Nat.lt_or_ge o 0x1C with hlt | hge
  · have hcases : o = 0 ∨ o = 0x04 ∨ o = 0x08 ∨ o = 0x0C ∨ o = 0x10 ∨ o = 0x18 := by omega
    rcases hcases with rfl | rfl | rfl | rfl | rfl | rfl <;> rfl
  · rw [hostReg_reserved hge, if_neg (by omega), if_neg (by omega), if_neg (by omega),
      if_neg (by omega), if_neg (by omega)]
    rfl

/-- A write of a read-only register or of a reserved offset is ignored (R25, R285). -/
theorem hostWrite_ignored {o : Nat} (ho : o % 4 = 0) (h : o = 0x04 ∨ o = 0x08 ∨ 0x18 ≤ o) (v : Word)
    (u : State) : hostWrite (hostReg o) v u = .next u := by
  rcases h with rfl | rfl | h
  · rfl
  · rfl
  · rcases Nat.lt_or_ge o 0x1C with hlt | hge
    · have h18 : o = 0x18 := by omega
      subst h18
      rfl
    · rw [hostReg_reserved hge]
      rfl

/-- Settles O57: `INDEX` by the test of `writeIndex`, `BUF_ADDR` without one. -/
theorem hostWritesOfRegisters : Obligations.HostWritesOfRegisters := by
  intro s u rx tx o v rest h hu ho
  rw [step_write h ho, ← hu]
  refine ⟨fun h0 hc => ?_, fun h0 hc => ?_, fun h0 => ?_, fun h0 => hostWrite_ignored ho h0 v u⟩
  · subst h0
    exact congrArg _ (if_pos hc)
  · subst h0
    exact congrArg _ (if_neg hc)
  · subst h0
    rfl

/-! ### The window on the buffers -/

/-- The element `BUF_DATA` reaches (R35, R36). -/
theorem windowTarget_eq {u : State} {b : BufId} (hc : cstate u = .idle)
    (hb : BufId.ofNibble (windowId u) = some b) (hi : windowIndex u < bufLen u.cfg b) :
    windowTarget u = some (b, windowIndex u) := by
  simp [windowTarget, hc, hb, hi]

theorem windowTarget_eq_none {u : State}
    (h : cstate u ≠ .idle ∨ BufId.ofNibble (windowId u) = none ∨
      ∃ b, BufId.ofNibble (windowId u) = some b ∧ bufLen u.cfg b ≤ windowIndex u) :
    windowTarget u = none := by
  rcases h with h | h | ⟨b, hb, hi⟩
  · simp [windowTarget, h]
  · simp [windowTarget, h]
  · simp [windowTarget, hb, Nat.not_lt.2 hi]

/-- What the window shows of an element (R36). -/
theorem elementWord_eq (u : State) (b : BufId) (i : Nat) :
    elementWord u b i = if b = .probe ∨ b = .capture ∨ b = .mono
      then (bufRead (samplesOf u b) i).signExtend 32
      else u.cfg.ops.bits (bufRead (scalarsOf u b) i) := by
  cases b <;> rfl

/-- A window write changes the contents of buffers, and `TW_VALID` when the buffer is `TW`. -/
theorem writeElement_eq (u : State) (b : BufId) (i : Nat) (v : Word) :
    writeElement u b i v = { u with
      probe := (writeElement u b i v).probe
      capture := (writeElement u b i v).capture
      mono := (writeElement u b i v).mono
      ssp := (writeElement u b i v).ssp
      rsp := (writeElement u b i v).rsp
      xsp := (writeElement u b i v).xsp
      tw := (writeElement u b i v).tw
      twValid := if b = .tw then false else u.twValid } := by
  cases b <;> rfl

/-- The element written: a sample takes bits 15:0 of the word, a scalar its `unbits` (R36). -/
theorem writeElement_same {u : State} (h : Memory.wf u = true) (b : BufId) (i : Nat) (v : Word) :
    if b = .probe ∨ b = .capture ∨ b = .mono
      then bufRead (samplesOf (writeElement u b i v) b) i = v.extractLsb' 0 16
      else bufRead (scalarsOf (writeElement u b i v) b) i = u.cfg.ops.unbits v := by
  rw [Memory.wf_iff] at h
  obtain ⟨h0, h1, h2, h3, h4, h5, h6⟩ := h
  cases b
  · exact bufRead_bufWrite_same h0 i _
  · exact bufRead_bufWrite_same h1 i _
  · exact bufRead_bufWrite_same h2 i _
  · exact bufRead_bufWrite_same h3 i _
  · exact bufRead_bufWrite_same h4 i _
  · exact bufRead_bufWrite_same h5 i _
  · exact bufRead_bufWrite_same h6 i _

/-- Every other element, of this buffer and of the others, stays as it is. -/
theorem writeElement_other (u : State) {b b' : BufId} {i i' : Nat} (v : Word)
    (h : (b', i') ≠ (b, i)) :
    bufRead (samplesOf (writeElement u b i v) b') i' = bufRead (samplesOf u b') i' ∧
    bufRead (scalarsOf (writeElement u b i v) b') i' = bufRead (scalarsOf u b') i' := by
  rcases eq_or_ne b' b with rfl | hb
  · have hi : i' ≠ i := fun hi => h (by rw [hi])
    cases b' with
    | probe | capture | mono => exact ⟨bufRead_bufWrite_of_ne _ _ hi, rfl⟩
    | ssp | rsp | xsp | tw => exact ⟨rfl, bufRead_bufWrite_of_ne _ _ hi⟩
  · cases b <;> cases b' <;> trivial

/-- Settles O58: the access reaches the element `windowTarget` names, or is refused. -/
theorem windowReadsAndWritesOneElement : Obligations.WindowReadsAndWritesOneElement := by
  intro s u rx tx a rest hwf h hu
  have hwfu : Memory.wf u = true := by
    rw [hu]
    exact wf_deliver (s := { s with inputs := rest }) hwf _
  have hread : a = .read 0x14 4 → step s = .next (readWindow u) := fun ha => by
    subst ha hu
    exact step_read h rfl
  have hwrite : ∀ v, a = .write 0x14 4 v → step s = .next (writeWindow u v) := fun v ha => by
    subst ha hu
    exact step_write h rfl
  refine ⟨fun b i hc hb hi hlt => ?_, fun hno => ?_⟩
  · subst hi
    have ht := windowTarget_eq hc hb hlt
    refine ⟨fun ha => ?_, fun v ha => ⟨writeElement u b (windowIndex u) v, ?_,
      writeElement_eq u b _ v, writeElement_same hwfu b _ v,
      fun b' i' hne => writeElement_other u v hne⟩⟩
    · rw [hread ha, readWindow, ht, ← elementWord_eq]
      rfl
    · rw [hwrite v ha, writeWindow, ht]
  · have ht := windowTarget_eq_none hno
    refine ⟨fun ha => ?_, fun v ha => ?_⟩
    · rw [hread ha, readWindow, ht]
      rfl
    · rw [hwrite v ha, writeWindow, ht]
      rfl

end Sys2Proof.Machine
end

section
/-!
PROOFS. The element accesses of the DMA channels (R154 E2 and E3, R330): what stops one that comes from a
channel that does not own its buffer.
-/

namespace Sys2Proof.Machine

open Sys2Proof

/-- The handler never moves the job (R143). -/
@[simp] theorem deliver_jstep (i : Input) (s : State) : (deliver i s).jstep = s.jstep := by
  obtain ⟨a, b, c, e, f, g, h, hd⟩ := deliver_frame i s
  rw [hd]

/-- An element write of the RX channel stops while, after the notifications that come with it, the
channel is disabled or shut out by the computing job (log 14). -/
theorem step_rxWrite_of_not_owner {s : State} {i : Input} {rest : List Input} {k : Nat} {v : Sample}
    (hin : s.inputs = i :: rest) (ha : i.action = .rxWrite k v)
    (h : (deliver i { s with inputs := rest }).enRx = false ∨ s.jstep.computing = true) :
    step s = .fault (.dmaNotOwner .rx) := by
  rw [step_cons hin, ha]
  exact if_pos (by rwa [deliver_jstep])

/-- An element read of the TX channel stops under the same condition on that channel (log 14). -/
theorem step_txRead_of_not_owner {s : State} {i : Input} {rest : List Input} {k : Nat}
    (hin : s.inputs = i :: rest) (ha : i.action = .txRead k)
    (h : (deliver i { s with inputs := rest }).enTx = false ∨ s.jstep.computing = true) :
    step s = .fault (.dmaNotOwner .tx) := by
  rw [step_cons hin, ha]
  exact if_pos (by rwa [deliver_jstep])

/-- Settles O48: the notifications leave `JSTEP` as it is, so the access still meets a computing job,
which is enough for the stop; the invariant and E1 are not needed. -/
theorem noDmaAccessWhileTheJobComputes : Obligations.NoDmaAccessWhileTheJobComputes := by
  intro s i rest _ _ hcomp hin
  exact ⟨fun _ _ ha => step_rxWrite_of_not_owner hin ha (.inr hcomp),
    fun _ ha => step_txRead_of_not_owner hin ha (.inr hcomp)⟩

end Sys2Proof.Machine
end

section
/-!
PROOFS. The command word (R90 to R101): the decoder accepts exactly the words of the well-formed
commands, and a word or a command that is refused only sets `CMD_ERR`.
-/

namespace Sys2Proof

/-! ### Operand fields (R95, R96) -/

/-- An id names a buffer exactly when it is that buffer's id. -/
theorem BufId.ofNibble_eq_some_iff {n : Nibble} {b : BufId} :
    BufId.ofNibble n = some b ↔ n = b.nibble := by
  revert n
  cases b <;> decide

/-- An operand field reads as `b` exactly when `b` is allowed and the field holds its id. -/
theorem operandField_eq_ok_iff {ok : BufId → Bool} {n : Nibble} {b : BufId} :
    operandField ok n = .ok b ↔ ok b = true ∧ n = b.nibble := by
  rw [← BufId.ofNibble_eq_some_iff, operandField]
  split
  · next c hc =>
    rw [hc, Option.some.injEq]
    constructor
    · intro h
      split at h
      · next hok => cases h; exact ⟨hok, rfl⟩
      · cases h
    · rintro ⟨hok, rfl⟩
      exact if_pos hok
  · next hc => simp [hc]

/-! ### The fields of a word (R91) -/

/-- A word is packed from four fields exactly when it holds them and its `ZERO` is 0: each field is
a quotient of the word's number, reduced to the field's width. -/
theorem eq_pack_iff {w : Word} {op : BitVec 8} {d a b : Nibble} :
    w = pack op d a b ↔
      zeroField w = 0 ∧ opField w = op ∧ dField w = d ∧ aField w = a ∧ bField w = b := by
  simp only [← BitVec.toNat_inj, pack, zeroField, opField, dField, aField, bField,
    BitVec.extractLsb'_toNat, BitVec.toNat_append, ← Nat.shiftLeft_add_eq_or_of_lt, BitVec.isLt]
  simp only [Nat.shiftLeft_eq, Nat.shiftRight_eq_div_pow]
  omega

/-! ### The three formats -/

section Formats

variable {w : Word} {op : BitVec 8} {j : Instr}

/-- R92: format `N` accepts the one word with that opcode and no operand. -/
theorem decodeN_eq_ok_iff (hz : zeroField w = 0) (hop : opField w = op) {i : Instr} :
    decodeN w i = .ok j ↔ w = pack op 0 0 0 ∧ i = j := by
  rw [eq_pack_iff, decodeN]
  split
  · next hused => simp [hz, hop, hused]
  · next hused =>
    simp only [reduceCtorEq, false_iff]
    exact fun h => hused h.1.2.2

/-- R93: format `X` accepts the words with an allowed buffer in `D`. -/
theorem decodeX_eq_ok_iff (hz : zeroField w = 0) (hop : opField w = op) {ok : BufId → Bool}
    {f : BufId → Instr} :
    decodeX w ok f = .ok j ↔ ∃ d, ok d = true ∧ w = pack op d.nibble 0 0 ∧ f d = j := by
  simp only [eq_pack_iff, decodeX]
  split
  · next hused =>
    constructor
    · intro h
      cases hd : operandField ok (dField w) with
      | error e => rw [hd] at h; cases h
      | ok d =>
        rw [hd] at h
        cases h
        obtain ⟨hok, hid⟩ := operandField_eq_ok_iff.1 hd
        exact ⟨d, hok, ⟨hz, hop, hid, hused⟩, rfl⟩
    · rintro ⟨d, hok, ⟨-, -, hid, -⟩, rfl⟩
      rw [operandField_eq_ok_iff.2 ⟨hok, hid⟩]
      rfl
  · next hused =>
    simp only [reduceCtorEq, false_iff]
    rintro ⟨d, -, ⟨-, -, -, hab⟩, -⟩
    exact hused hab

/-- R94: format `T` accepts the words with allowed buffers in `D`, `A` and `B`. -/
theorem decodeT_eq_ok_iff (hz : zeroField w = 0) (hop : opField w = op) {ok : BufId → Bool}
    {f : BufId → BufId → BufId → Instr} :
    decodeT w ok f = .ok j ↔ ∃ d a b, (ok d = true ∧ ok a = true ∧ ok b = true) ∧
      w = pack op d.nibble a.nibble b.nibble ∧ f d a b = j := by
  simp only [eq_pack_iff, decodeT]
  constructor
  · intro h
    split at h
    · next d a b hd ha hb =>
      cases h
      obtain ⟨hokd, hidd⟩ := operandField_eq_ok_iff.1 hd
      obtain ⟨hoka, hida⟩ := operandField_eq_ok_iff.1 ha
      obtain ⟨hokb, hidb⟩ := operandField_eq_ok_iff.1 hb
      exact ⟨d, a, b, ⟨hokd, hoka, hokb⟩, ⟨hz, hop, hidd, hida, hidb⟩, rfl⟩
    · cases h
  · rintro ⟨d, a, b, ⟨hokd, hoka, hokb⟩, ⟨-, -, hidd, hida, hidb⟩, rfl⟩
    rw [operandField_eq_ok_iff.2 ⟨hokd, hidd⟩, operandField_eq_ok_iff.2 ⟨hoka, hida⟩,
      operandField_eq_ok_iff.2 ⟨hokb, hidb⟩]

end Formats

/-! ### The decoder -/

/-- Every word the decoder accepts is the word of a well-formed command: one case for each row of
R97, by the row's format, and the reserved opcodes. -/
theorem wellFormed_and_encode_of_decode {w : Word} {i : Instr} (h : decode w = .ok i) :
    i.wellFormed = true ∧ encode i = w := by
  have hop : ∀ {k : Nat}, (opField w).toNat = k → opField w = BitVec.ofNat 8 k := fun hk => by
    rw [← hk, BitVec.ofNat_toNat, BitVec.setWidth_eq]
  unfold decode at h
  split at h
  · cases h
  next hz =>
  have hz := not_not.1 hz
  split at h
  case h_8 hk | h_9 hk | h_10 hk | h_14 hk =>
    obtain ⟨d, hok, hw, rfl⟩ := (decodeX_eq_ok_iff hz (hop hk)).1 h
    exact ⟨hok, hw.symm⟩
  case h_11 hk =>
    obtain ⟨d, a, b, ⟨hd, ha, hb⟩, hw, rfl⟩ := (decodeT_eq_ok_iff hz (hop hk)).1 h
    exact ⟨by simp [Instr.wellFormed, hd, ha, hb], hw.symm⟩
  case h_15 => cases h
  all_goals
    next hk =>
    obtain ⟨hw, rfl⟩ := (decodeN_eq_ok_iff hz (hop hk)).1 h
    exact ⟨rfl, hw.symm⟩

open Laws.OpcodeField (opcode) in
/-- The fields by which the decoder chooses a format, in the word of a command (R91, R97). -/
theorem fields_encode (i : Instr) :
    zeroField (encode i) = 0 ∧ opField (encode i) = BitVec.ofNat 8 (opcode i) := by
  have hpack : ∃ d a b, encode i = pack (BitVec.ofNat 8 (opcode i)) d a b := by
    cases i <;> exact ⟨_, _, _, rfl⟩
  obtain ⟨d, a, b, hw⟩ := hpack
  obtain ⟨hz, hop, -⟩ := eq_pack_iff.1 hw
  exact ⟨hz, hop⟩

/-- The word of a well-formed command is decoded, by its opcode, in the command's own format. -/
theorem decode_encode {i : Instr} (h : i.wellFormed = true) : decode (encode i) = .ok i := by
  obtain ⟨hz, hop⟩ := fields_encode i
  rw [decode, if_neg (not_not.2 hz), hop]
  cases i with
  | bitrev d | fft d | ifft d | peak d => exact (decodeX_eq_ok_iff hz hop).2 ⟨d, h, rfl, rfl⟩
  | cmul d a b =>
    simp only [Instr.wellFormed, Bool.and_eq_true, and_assoc] at h
    exact (decodeT_eq_ok_iff hz hop).2 ⟨d, a, b, h, rfl, rfl⟩
  | _ => exact (decodeN_eq_ok_iff hz hop).2 ⟨rfl, rfl⟩

/-- Settles O5: the word holds the opcode and the operands' ids, and each format reads them back. -/
theorem decodeOfEncodeIsTheCommand : Obligations.DecodeOfEncodeIsTheCommand :=
  fun _ => decode_encode

/-- Settles O6: each format fixes every field of a word it accepts. -/
theorem onlyWordsOfCommandsDecode : Obligations.OnlyWordsOfCommandsDecode :=
  fun _ _ => wellFormed_and_encode_of_decode

/-- Settles O7: six of the words encode well-formed commands; the last four have, in this order, a
reserved opcode, a non-zero `ZERO`, an unused operand field and an operand that is not allowed. -/
theorem specWordsDecodeAsListed : Obligations.SpecWordsDecodeAsListed :=
  ⟨decode_encode (i := .start) rfl, decode_encode (i := .todist) rfl,
    decode_encode (i := .bitrev .tw) rfl, decode_encode (i := .fft .rsp) rfl,
    decode_encode (i := .cmul .ssp .rsp .xsp) rfl, decode_encode (i := .peak .xsp) rfl,
    rfl, rfl, rfl, rfl⟩

end Sys2Proof

namespace Sys2Proof.Machine

open Sys2Proof

/-! ### Refused commands (R99, R100) -/

/-- A command outside `IDLE`, and one with an operand its opcode does not allow, is refused. -/
theorem exec_of_refused {i : Instr} {s : State} (h : cstate s ≠ .idle ∨ i.wellFormed = false) :
    exec i s = .next (refuseAccess s) := by
  rw [exec_eq, acceptCommand, if_neg]
  rintro ⟨hw, hc⟩
  rcases h with h | h
  · exact h hc
  · rw [hw] at h
    cases h

/-- So is an illegal word, and every word outside `IDLE`. -/
theorem writeCommand_of_refused {w : Word} {s : State}
    (h : (∃ e, decode w = .error e) ∨ cstate s ≠ .idle) :
    writeCommand s w = .next (refuseAccess s) := by
  rw [writeCommand]
  cases hd : decode w with
  | error e => rfl
  | ok i =>
    rcases h with ⟨e, he⟩ | h
    · rw [hd] at he
      cases he
    · exact exec_of_refused (.inl h)

/-- Settles O9: a refusal is the update of `CMD_ERR` alone. -/
theorem refusedCommandOnlySetsCmdErr : Obligations.RefusedCommandOnlySetsCmdErr :=
  ⟨fun _ _ => writeCommand_of_refused, fun _ _ => exec_of_refused⟩

end Sys2Proof.Machine
end

section
/-!
PROOFS. The probe synthesizer (40_probe_synth.md): the mirror of the first half (R124), the oscillator's
values (R120, R121) and the quantizer (R122).
-/

namespace Sys2Proof.Machine

open Sys2Proof

/-! ### The probe and its mirror (R120, R124) -/

/-- The probe reads the same from either end. -/
theorem reverse_synthList (nu : Num Scalar) (c : Config) :
    (synthList nu c).reverse = synthList nu c := by
  simp [synthList]

theorem getD_synthList_mirror (nu : Num Scalar) (c : Config) {k : Nat} (hk : k < c.sweepLen) :
    (synthList nu c).getD k 0 = (synthList nu c).getD (c.sweepLen - 1 - k) 0 := by
  have hlen := length_synthList nu c
  rw [List.getD_eq_getElem?_getD, List.getD_eq_getElem?_getD, ← hlen,
    ← List.getElem?_reverse (hlen.symm ▸ hk), reverse_synthList]

/-- R124, for every `Num`. -/
theorem bufRead_opSynth_mirror (nu : Num Scalar) (s : State) {k : Nat} (hk : k < s.cfg.sweepLen) :
    bufRead (opSynth nu s).probe k = bufRead (opSynth nu s).probe (s.cfg.sweepLen - 1 - k) := by
  simpa only [opSynth_probe, bufRead_bufOfList] using getD_synthList_mirror nu s.cfg hk

/-- `SYNTH` in `IDLE` (R120). -/
theorem exec_synth_of_idle {s : State} (h : cstate s = .idle) :
    exec .synth s = .next (opSynth s.cfg.ops s) :=
  exec_of_idle rfl h

/-- Settles O13: the list `SYNTH` stores is its own reverse, whatever the `Num`. -/
theorem synthMirrorsTheFirstHalf : Obligations.SynthMirrorsTheFirstHalf :=
  ⟨fun s hidle => ⟨opSynth s.cfg.ops s, exec_synth_of_idle hidle, rfl,
    fun _ _ => bufRead_opSynth_mirror _ s⟩, fun nu s _ _ => bufRead_opSynth_mirror nu s⟩

/-! ### The oscillator (R120, R121) -/

/-- Each value after the first two is the step from the two before it; the list keeps both seeds in
front, so that the step back stays inside it. -/
theorem getD_oscillate (nu : Num Scalar) (c : Config) {count j : Nat} (hj : j < count) (k : Nat)
    (v0 v1 : Scalar) : (v0 :: v1 :: oscillate nu c count k v0 v1).getD (j + 2) 0 =
      oscStep nu ((v0 :: v1 :: oscillate nu c count k v0 v1).getD j 0)
        ((v0 :: v1 :: oscillate nu c count k v0 v1).getD (j + 1) 0) (omega nu c (k + j)) := by
  induction count generalizing j k v0 v1 with
  | zero => omega
  | succ count ih =>
    cases j with
    | zero => rfl
    | succ j =>
      have hstep := ih (j := j) (by omega) (k + 1) v1 (oscStep nu v0 v1 (omega nu c k))
      rwa [Nat.succ_add_eq_add_succ] at hstep

/-- The oscillator's value at index `k` of the first half (R120). -/
def oscValue (nu : Num Scalar) (c : Config) (k : Nat) : Scalar := (halfWave nu c).getD k 0

theorem oscValue_zero (nu : Num Scalar) (c : Config) : oscValue nu c 0 = nu.fconst .one := rfl

theorem oscValue_one (nu : Num Scalar) (c : Config) : oscValue nu c 1 = seedV1 nu c := rfl

/-- The recurrence of R120. -/
theorem oscValue_of_two_le (nu : Num Scalar) (c : Config) {k : Nat} (h2 : 2 ≤ k)
    (hk : k < c.sweepLen / 2) :
    oscValue nu c k = oscStep nu (oscValue nu c (k - 2)) (oscValue nu c (k - 1)) (omega nu c k) := by
  obtain ⟨j, rfl⟩ := Nat.exists_eq_add_of_le' h2
  have hstep := getD_oscillate nu c (show j < c.sweepLen / 2 - 2 by omega) 2 (nu.fconst .one)
    (seedV1 nu c)
  rwa [Nat.add_comm 2 j] at hstep

/-- The first half of the probe is the quantized oscillator (R120). -/
theorem bufRead_opSynth_firstHalf (nu : Num Scalar) (s : State) {k : Nat}
    (hk : k < s.cfg.sweepLen / 2) :
    bufRead (opSynth nu s).probe k = quantize nu s.cfg.gain (oscValue nu s.cfg k) := by
  have hlen : k < (halfWave nu s.cfg).length := by rwa [length_halfWave]
  have hmap : k < ((halfWave nu s.cfg).map (quantize nu s.cfg.gain)).length := by
    rwa [List.length_map]
  rw [opSynth_probe, bufRead_bufOfList, synthList, List.getD_append _ _ _ _ hmap,
    List.getD_eq_getElem _ _ hmap, List.getElem_map, oscValue, List.getD_eq_getElem _ _ hlen]

/-- Settles O14: the witness is the sequence of oscillator values, and each clause is its defining
equation. -/
theorem synthFollowsTheOscillator : Obligations.SynthFollowsTheOscillator := by
  rintro s nu rfl hidle
  refine ⟨opSynth s.cfg.ops s, oscValue s.cfg.ops s.cfg, exec_synth_of_idle hidle, rfl,
    oscValue_zero _ _, ?seed, ?recurrence, fun _ => bufRead_opSynth_firstHalf _ s,
    fun _ _ => bufRead_opSynth_mirror _ s⟩
  case seed =>
    rintro _ rfl
    exact oscValue_one _ _
  case recurrence =>
    rintro k h2 hk _ _ _ _ rfl rfl rfl rfl
    exact oscValue_of_two_le _ _ h2 hk

/-! ### Rounding toward zero (R122) -/

/-- `z` is `r` rounded toward zero: it has the sign of `r`, and the greatest magnitude not above that
of `r`. -/
def TruncatesTo (r : ℚ) (z : Int) : Prop := 0 ≤ z * r ∧ |(z : ℚ)| ≤ |r| ∧ |r| < |(z : ℚ)| + 1

theorem TruncatesTo.neg {r : ℚ} {z : Int} (h : TruncatesTo r z) : TruncatesTo (-r) (-z) := by
  simpa [TruncatesTo] using h

/-- A positive bound holds of a number exactly when it holds of its integer part (log 25). -/
theorem TruncatesTo.le_iff {r : ℚ} {z n : Int} (h : TruncatesTo r z) (hn : 0 < n) :
    (n : ℚ) ≤ r ↔ n ≤ z := by
  obtain ⟨hsign, hle, hlt⟩ := h
  have hn' : (0 : ℚ) < n := by exact_mod_cast hn
  constructor
  · intro hr
    have hz : (0 : ℚ) ≤ z := nonneg_of_mul_nonneg_left hsign (by linarith)
    rw [abs_of_nonneg hz, abs_of_pos (by linarith)] at hlt
    have : n < z + 1 := by exact_mod_cast hr.trans_lt hlt
    omega
  · intro hz
    have hz' : (n : ℚ) ≤ z := by exact_mod_cast hz
    have hr : 0 ≤ r := nonneg_of_mul_nonneg_right hsign (by linarith)
    rw [abs_of_nonneg hr] at hle
    exact hz'.trans ((le_abs_self _).trans hle)

/-- The same of a negative bound. -/
theorem TruncatesTo.le_neg_iff {r : ℚ} {z n : Int} (h : TruncatesTo r z) (hn : 0 < n) :
    r ≤ -(n : ℚ) ↔ z ≤ -n :=
  le_neg.trans ((h.neg.le_iff hn).trans le_neg)

/-- An integer no larger than `r` in magnitude and less than 1 away from it is its integer part. -/
theorem truncatesTo_of_abs_sub_lt {r : ℚ} {z : Int} (hle : |(z : ℚ)| ≤ |r|) (hlt : |r - z| < 1) :
    TruncatesTo r z := by
  refine ⟨?_, hle, by linarith [abs_sub_abs_le_abs_sub r z]⟩
  obtain ⟨hlo, hhi⟩ := abs_lt.1 hlt
  rcases lt_trichotomy z 0 with hz | rfl | hz
  · have : (z : ℚ) ≤ -1 := by exact_mod_cast Int.le_sub_one_of_lt hz
    exact mul_nonneg_of_nonpos_of_nonpos (by linarith) (by linarith)
  · simp
  · have : (1 : ℚ) ≤ z := by exact_mod_cast hz
    exact mul_nonneg (by linarith) (by linarith)

/-- The rational number and the real number of a finite pattern are the same. -/
theorem patternValue_eq_finiteValue {w : Word} {s : Bool} {m : Nat} {e : Int}
    (h : unpack w = .fin s m e) : patternValue w = ((finiteValue s m e : ℝ) : EReal) := by
  rw [patternValue_of_fin h]
  cases s <;> simp [finiteValue]

theorem floatScaledPart_of_nan {w : Word} (h : unpack w = .nan) : floatScaledPart 0 w = .nan := by
  rw [floatScaledPart, h]

theorem floatScaledPart_of_inf {w : Word} {s : Bool} (h : unpack w = .inf s) :
    floatScaledPart 0 w = if s then .negInf else .posInf := by
  rw [floatScaledPart, h]

/-- The integer part of a finite pattern is its number rounded toward zero (R122). -/
theorem floatScaledPart_truncates {w : Word} {s : Bool} {m : Nat} {e : Int}
    (h : unpack w = .fin s m e) :
    ∃ z, floatScaledPart 0 w = .int z ∧ TruncatesTo (finiteValue s m e) z := by
  obtain ⟨z, hz⟩ : ∃ z, floatScaledPart 0 w = .int z := ⟨_, floatScaledPart_zero_of_fin h⟩
  have hpart : NumFormat.binary32.ops.integerPart w.toNat = .int z := by
    rwa [binary32_integerPart, ofNat_toNat_word]
  obtain ⟨r, hr, hle, hlt⟩ := binary32_valuation.int w.toNat 0 z hpart
  rw [ofNat_toNat_word, patternValue_eq_finiteValue h, EReal.coe_eq_coe_iff] at hr
  rw [pow_zero, one_mul, ← hr] at hle hlt
  exact ⟨z, hz, truncatesTo_of_abs_sub_lt (by exact_mod_cast hle) (by exact_mod_cast hlt)⟩

/-! ### The quantizer (R122) -/

theorem toInt_saturate (z : Int) : (saturate z).toInt = max (-32768) (min z 32767) := by
  unfold saturate
  split
  · rw [show (32767 : Sample).toInt = 32767 from rfl]
    omega
  · split
    · rw [show (BitVec.ofInt 16 (-32768)).toInt = -32768 from rfl]
      omega
    · rw [BitVec.toInt_ofInt, Int.bmod_eq_of_le (by omega) (by omega)]
      omega

/-- The sample of a value with the given integer part, as an integer. -/
def quantized : IntegerPart → Int
  | .nan => 0
  | .posInf => 32767
  | .negInf => -32768
  | .int z => max (-32768) (min z 32767)

/-- The quantizer looks at the integer part alone. -/
theorem toInt_quantize (nu : Num Scalar) (gain v : Scalar) :
    (quantize nu gain v).toInt = quantized (nu.integerPart (nu.fmul gain v)) := by
  unfold quantize
  cases nu.integerPart (nu.fmul gain v) with
  | nan | posInf | negInf => rfl
  | int z => exact toInt_saturate z

theorem toInt_quantize_binary32 {c : Config} (hc : c.num = .binary32) (gain v : Word) :
    (quantize c.ops gain.toNat v.toNat).toInt = quantized (floatScaledPart 0 (floatMul gain v)) := by
  rw [toInt_quantize, ops_of_binary32 hc, binary32_fmul, binary32_integerPart]
  simp only [ofNat_toNat_word]

/-- Settles O15: the saturation is a clamp of the integer part, and for binary32 a bound holds of the
integer part exactly when it holds of the number. -/
theorem quantizerSaturatesAndTruncates : Obligations.QuantizerSaturatesAndTruncates := by
  refine ⟨?anyNum, ?binary32⟩
  case anyNum =>
    rintro nu gain v _ rfl
    rw [toInt_quantize]
    refine ⟨congrArg quantized, congrArg quantized, congrArg quantized, fun z h => ?_⟩
    rw [h, quantized]
    omega
  case binary32 =>
    rintro c gain v t _ hc rfl rfl
    rw [toInt_quantize_binary32 hc]
    refine ⟨fun h => congrArg quantized (floatScaledPart_of_nan h),
      fun h => congrArg quantized (floatScaledPart_of_inf h),
      fun h => congrArg quantized (floatScaledPart_of_inf h), ?_⟩
    rintro neg m e _ h rfl
    obtain ⟨z, hz, htrunc⟩ := floatScaledPart_truncates h
    have hhi := htrunc.le_iff (n := 32767) (by norm_num)
    have hlo := htrunc.le_neg_iff (n := 32768) (by norm_num)
    push_cast at hhi hlo
    rw [hz, quantized, ← not_le, ← not_le, hhi, hlo]
    refine ⟨by omega, by omega, fun h1 h2 => ?_⟩
    rwa [show max (-32768) (min z 32767) = z by omega]

end Sys2Proof.Machine
end

section
/-!
PROOFS. The notification handler (R143): what one notification does, that the order of a pair cannot be
observed and a duplicate does nothing (R144), and that nothing happens before `START` (R157).
-/

namespace Sys2Proof.Machine

open Sys2Proof

/-- The handler does not look at the inputs to come. -/
theorem notify_withInputs (d : Channel) (s : State) (l : List Input) :
    notify d { s with inputs := l } = { notify d s with inputs := l } := by
  by_cases hs : s.started = true
  · cases d with
    | rx =>
      rw [notify_rx (s := s) hs]
      exact notify_rx hs
    | tx =>
      rw [notify_tx (s := s) hs]
      exact notify_tx hs
  · rw [Bool.not_eq_true] at hs
    rw [notify_of_not_started (s := s) hs]
    exact notify_of_not_started (s := { s with inputs := l }) hs d

theorem deliver_withInputs (i : Input) (s : State) (l : List Input) :
    deliver i { s with inputs := l } = { deliver i s with inputs := l } := by
  obtain ⟨rx, tx, a⟩ := i
  cases rx <;> cases tx <;> simp [deliver, notify_withInputs]

/-- Before `START` the notifications of an input change nothing (R157). -/
theorem deliver_of_not_started {s : State} (h : s.started = false) (i : Input) :
    deliver i s = s := by
  obtain ⟨rx, tx, a⟩ := i
  cases rx <;> cases tx <;> simp [deliver, notify_of_not_started h]

/-- A step that takes notifications and nothing else. -/
theorem step_notifications {s : State} {rx tx : Bool} {rest : List Input}
    (h : s.inputs = ⟨rx, tx, .nothing⟩ :: rest) :
    step s = .next { deliver ⟨rx, tx, .nothing⟩ s with inputs := rest } := by
  rw [step_cons h, deliver_withInputs]
  rfl

/-- Settles O41: the handler ignores every notification before `START`. -/
theorem notificationBeforeStartIsIgnored : Obligations.NotificationBeforeStartIsIgnored := by
  intro s rx tx rest hs hin
  rw [step_notifications hin, deliver_of_not_started hs]

theorem step_notify_rx {s : State} {rest : List Input} (hs : s.started = true)
    (h : s.inputs = ⟨true, false, .nothing⟩ :: rest) :
    step s = .next { s with
      inputs := rest
      rxDone := !s.txDone
      txDone := false
      enRx := false
      jobPending := s.jobPending || s.txDone
      rxDma := { s.rxDma with owed := false } } := by
  rw [step_notifications h, show deliver ⟨true, false, .nothing⟩ s = notify .rx s from rfl,
    notify_rx hs]

theorem step_notify_tx {s : State} {rest : List Input} (hs : s.started = true)
    (h : s.inputs = ⟨false, true, .nothing⟩ :: rest) :
    step s = .next { s with
      inputs := rest
      txDone := !s.rxDone
      rxDone := false
      enTx := false
      jobPending := s.jobPending || s.rxDone
      txDma := { s.txDma with owed := false } } := by
  rw [step_notifications h, show deliver ⟨false, true, .nothing⟩ s = notify .tx s from rfl,
    notify_tx hs]

/-- Settles O38: the step is the handler's update once started, and nothing before. -/
theorem notificationRunsTheHandler : Obligations.NotificationRunsTheHandler :=
  fun s rest => ⟨step_notify_rx, step_notify_tx, fun hs hin => hin.elim
    (notificationBeforeStartIsIgnored s true false rest hs)
    (notificationBeforeStartIsIgnored s false true rest hs)⟩

/-- Settles O40: for a channel that has signalled, each field the handler writes holds already what is
written. -/
theorem duplicateNotificationIsHarmless : Obligations.DuplicateNotificationIsHarmless := by
  intro s rest hs
  refine ⟨fun hrx htx hen howed hin => ?rx, fun htx hrx hen howed hin => ?tx⟩
  case rx =>
    have hdma : { s.rxDma with owed := false } = s.rxDma := by rw [← howed]
    simp [step_notify_rx hs hin, hdma, hrx, htx, hen]
  case tx =>
    have hdma : { s.txDma with owed := false } = s.txDma := by rw [← howed]
    simp [step_notify_tx hs hin, hdma, hrx, htx, hen]

/-! ### A pair of notifications (R144) -/

/-- `s` after both channels have signalled: both disabled, the job posted. -/
def bothSignalled (s : State) : State :=
  { s with
    enRx := false
    enTx := false
    jobPending := true
    rxDma := { s.rxDma with owed := false }
    txDma := { s.txDma with owed := false } }

/-- From a state with both flags clear the second handler posts the job, whichever channel signals
first. -/
theorem notify_pair {s : State} (hs : s.started = true) (hrx : s.rxDone = false)
    (htx : s.txDone = false) :
    notify .tx (notify .rx s) = bothSignalled s ∧ notify .rx (notify .tx s) = bothSignalled s := by
  constructor
  · rw [notify_rx hs, notify_tx]
    · simp [bothSignalled, hrx, htx]
    · exact hs
  · rw [notify_tx hs, notify_rx]
    · simp [bothSignalled, hrx, htx]
    · exact hs

/-- Notifications that arrive one after the other. -/
theorem run_two_notifications {s : State} {r1 t1 r2 t2 : Bool} {rest : List Input}
    (hin : s.inputs = ⟨r1, t1, .nothing⟩ :: ⟨r2, t2, .nothing⟩ :: rest) :
    Host.Core.run Sys2Proof.core 2 s = .next
      { deliver ⟨r2, t2, .nothing⟩ (deliver ⟨r1, t1, .nothing⟩ s) with inputs := rest } := by
  rw [core_run_succ (step_notifications hin), core_run_succ (step_notifications rfl),
    deliver_withInputs]
  rfl

/-- The two orders in which a pair can arrive, one notification after the other. -/
def IsPair (first second : Input) : Prop :=
  first = ⟨true, false, .nothing⟩ ∧ second = ⟨false, true, .nothing⟩ ∨
    first = ⟨false, true, .nothing⟩ ∧ second = ⟨true, false, .nothing⟩

theorem run_pair {s : State} {first second : Input} {rest : List Input} (hp : IsPair first second)
    (hs : s.started = true) (hrx : s.rxDone = false) (htx : s.txDone = false)
    (hin : s.inputs = first :: second :: rest) :
    Host.Core.run Sys2Proof.core 2 s = .next { bothSignalled s with inputs := rest } := by
  obtain ⟨hrt, htr⟩ := notify_pair hs hrx htx
  rcases hp with ⟨rfl, rfl⟩ | ⟨rfl, rfl⟩
  · rw [run_two_notifications hin, ← hrt]
    rfl
  · rw [run_two_notifications hin, ← htr]
    rfl

/-- Settles O39: both orders, and the input that holds both, run the handler on each channel once. -/
theorem notificationOrderIsUnobservable : Obligations.NotificationOrderIsUnobservable := by
  rintro s t rest hs hrx htx rfl
  refine ⟨run_pair (.inl ⟨rfl, rfl⟩) hs hrx htx rfl, run_pair (.inr ⟨rfl, rfl⟩) hs hrx htx rfl, ?_⟩
  rw [step_notifications (rest := rest) rfl, deliver_withInputs,
    show deliver ⟨true, true, .nothing⟩ s = bothSignalled s from (notify_pair hs hrx htx).1]
  rfl

end Sys2Proof.Machine
end

section
/-!
PROOFS. The controller's invariant behind R159: it holds after reset, every step keeps it under premise
E1 of R154, and it gives the table of R159. `ARMED` and `PARTIAL` are left by the handler alone (R148).
-/

namespace Sys2Proof.Machine

open Sys2Proof

/-! ### The shapes of the invariant -/

/-- Settles O45: nothing is enabled, posted, running or owed after reset. -/
theorem controllerInvAtReset : Obligations.ControllerInvAtReset :=
  fun _ => ⟨fun _ => ⟨⟨rfl, rfl, rfl, rfl, rfl⟩, rfl⟩, nofun, rfl, rfl⟩

theorem ControllerInv.of_started {s : State} (hs : s.started = true) (hshape : ShapeAt s s.jstep)
    (hrx : s.rxDma.owed = s.enRx) (htx : s.txDma.owed = s.enTx) : ControllerInv s :=
  ⟨fun h => absurd (hs.symm.trans h) nofun, fun _ => hshape, hrx, htx⟩

/-- A job that runs has its channels quiescent until it has enabled the first of them. -/
theorem shapeAt_iff_quiescent {s : State} : ∀ {j : JobStep}, j ≠ .stopped → j ≠ .rearm .enableTx →
    (ShapeAt s j ↔ Quiescent s)
  | .stopped, h, _ => absurd rfl h
  | .rearm .enableTx, _, h => absurd rfl h
  | .downmix, _, _ | .correlate, _, _ | .convert, _, _ => Iff.rfl
  | .rearm .clearFlags, _, _ | .rearm .cfgRx, _, _ | .rearm .cfgTx, _, _
  | .rearm .enableRx, _, _ => Iff.rfl

/-- So it is while it computes, and when it has just ended that. -/
theorem shapeAt_iff_quiescent_of_computing {s : State} {j : JobStep}
    (h : j.computing = true ∨ j = .rearm .clearFlags) : ShapeAt s j ↔ Quiescent s :=
  shapeAt_iff_quiescent (by rintro rfl; simp [JobStep.computing] at h)
    (by rintro rfl; simp [JobStep.computing] at h)

/-- The three shapes the invariant allows. -/
theorem ControllerInv.shape_cases {s : State} (h : ControllerInv s) :
    Quiescent s ∨ (s.started = true ∧ s.jstep = .stopped ∧ WaitingShape s) ∨
      (s.started = true ∧ s.jstep = .rearm .enableTx ∧ RxArmedShape s) := by
  obtain ⟨hidle, hshape, -, -⟩ := h
  by_cases hs : s.started = true
  · have hsh := hshape hs
    by_cases hj : s.jstep = .stopped
    · rw [hj] at hsh
      exact .inr (.inl ⟨hs, hj, hsh⟩)
    by_cases ha : s.jstep = .rearm .enableTx
    · rw [ha] at hsh
      exact .inr (.inr ⟨hs, ha, hsh⟩)
    exact .inl ((shapeAt_iff_quiescent hj ha).1 hsh)
  · exact .inl (hidle (Bool.not_eq_true _ ▸ hs)).1

/-- A job that runs was posted after `START`. -/
theorem ControllerInv.shapeAt_of_running {s : State} (h : ControllerInv s)
    (hj : s.jstep ≠ .stopped) : s.started = true ∧ ShapeAt s s.jstep := by
  obtain ⟨hidle, hshape, -, -⟩ := h
  have hs : s.started = true := (Bool.not_eq_false _).mp fun hs => hj (hidle hs).2
  exact ⟨hs, hshape hs⟩

theorem ControllerInv.quiescent_of_computing {s : State} (h : ControllerInv s)
    (hc : s.jstep.computing = true) : Quiescent s :=
  (shapeAt_iff_quiescent_of_computing (.inl hc)).1
    (h.shapeAt_of_running fun hj => by rw [hj] at hc; cases hc).2

/-! ### The handler keeps it -/

/-- Under E1 RX signals only while it is enabled: in `ARMED`, after TX, or while the re-arm is about to
enable TX. -/
theorem ControllerInv.notify_rx {s : State} (h : ControllerInv s) (ho : s.rxDma.owed = true) :
    ControllerInv (notify .rx s) := by
  have ⟨_, _, hrx, htx⟩ := h
  have hen : s.enRx = true := hrx ▸ ho
  rcases h.shape_cases with ⟨hdis, -⟩ | ⟨hs, hj, hw⟩ | ⟨hs, hj, htxEn, htxDone, hp, hrxDone⟩
  · exact absurd (hen.symm.trans hdis) nofun
  · rw [Machine.notify_rx hs]
    refine .of_started hs ?_ rfl htx
    rw [hj]
    rcases hw with ⟨-, henTx, -, htxDone, hp⟩ | ⟨hdis, -⟩ | ⟨-, henTx, -, htxDone, hp⟩ | ⟨hdis, -⟩
    · exact .inr (.inl ⟨rfl, henTx, by simp [htxDone], rfl, by simp [hp, htxDone]⟩)
    · exact absurd (hen.symm.trans hdis) nofun
    · exact .inr (.inr (.inr ⟨rfl, henTx, by simp [htxDone], rfl, by simp [htxDone]⟩))
    · exact absurd (hen.symm.trans hdis) nofun
  · rw [Machine.notify_rx hs]
    refine .of_started hs ?_ rfl htx
    rw [hj]
    simp [ShapeAt, RxArmedShape, htxEn, htxDone, hp]

/-- TX signals only in `ARMED` or after RX. -/
theorem ControllerInv.notify_tx {s : State} (h : ControllerInv s) (ho : s.txDma.owed = true) :
    ControllerInv (notify .tx s) := by
  have ⟨_, _, hrx, htx⟩ := h
  have hen : s.enTx = true := htx ▸ ho
  rcases h.shape_cases with ⟨-, hdis, -⟩ | ⟨hs, hj, hw⟩ | ⟨-, -, hdis, -⟩
  · exact absurd (hen.symm.trans hdis) nofun
  · rw [Machine.notify_tx hs]
    refine .of_started hs ?_ hrx rfl
    rw [hj]
    rcases hw with ⟨henRx, -, hrxDone, -, hp⟩ | ⟨henRx, -, hrxDone, -, hp⟩ | ⟨-, hdis, -⟩ |
      ⟨-, hdis, -⟩
    · exact .inr (.inr (.inl ⟨henRx, rfl, rfl, by simp [hrxDone], by simp [hp, hrxDone]⟩))
    · exact .inr (.inr (.inr ⟨henRx, rfl, rfl, by simp [hrxDone], by simp [hrxDone]⟩))
    · exact absurd (hen.symm.trans hdis) nofun
    · exact absurd (hen.symm.trans hdis) nofun
  · exact absurd (hen.symm.trans hdis) nofun

/-- The handler of RX leaves the TX channel's debt alone. -/
theorem notify_rx_txDma (s : State) : (notify .rx s).txDma = s.txDma := by
  cases hs : s.started with
  | true => rw [notify_rx hs]
  | false => rw [notify_of_not_started hs]

theorem ControllerInv.deliver {s : State} (h : ControllerInv s) {i : Input}
    (hrx : i.notifyRx = true → s.rxDma.owed = true)
    (htx : i.notifyTx = true → s.txDma.owed = true) : ControllerInv (deliver i s) := by
  obtain ⟨rx, tx, a⟩ := i
  cases rx <;> cases tx
  · exact h
  · exact h.notify_tx (htx rfl)
  · exact h.notify_rx (hrx rfl)
  · exact (h.notify_rx (hrx rfl)).notify_tx ((notify_rx_txDma s).symm ▸ htx rfl)

/-! ### The job and the commands keep it -/

theorem ControllerInv.rearmStep {s : State} (h : ControllerInv s) {a : ArmAction}
    (hj : s.jstep = .rearm a) : ControllerInv (rearmStep a s) := by
  obtain ⟨hs, hshape⟩ := h.shapeAt_of_running (by rw [hj]; nofun)
  obtain ⟨-, -, hrx, htx⟩ := h
  rw [hj] at hshape
  cases a with
  | clearFlags =>
    obtain ⟨henRx, henTx, -, -, hp⟩ := hshape
    exact .of_started hs ⟨henRx, henTx, rfl, rfl, hp⟩ hrx htx
  | cfgRx | cfgTx => exact .of_started hs hshape hrx htx
  | enableRx =>
    obtain ⟨henRx, henTx, hrxDone, htxDone, hp⟩ := hshape
    refine .of_started hs ⟨henTx, htxDone, hp, ?_⟩ ?_ htx
    · exact (congrArg not hrxDone).symm
    · simp [Machine.rearmStep, henRx]
  | enableTx =>
    obtain ⟨henTx, htxDone, hp, henRx⟩ := hshape
    refine .of_started hs ?_ hrx ?_
    · cases hrxDone : s.rxDone with
      | false => exact .inl ⟨henRx.trans (congrArg not hrxDone), rfl, hrxDone, htxDone, hp⟩
      | true => exact .inr (.inl ⟨henRx.trans (congrArg not hrxDone), rfl, hrxDone, htxDone, hp⟩)
    · simp [Machine.rearmStep, henTx]

theorem ControllerInv.jobStep {s : State} (h : ControllerInv s) :
    ControllerInv (jobStep s.cfg.ops s) := by
  rcases jobStep_cases s with ⟨hj, hp, h'⟩ | ⟨-, -, h'⟩ | ⟨u, j, hu, h', hc, -, hnext⟩ | ⟨a, hj, h'⟩
  · rw [h']
    rcases h.shape_cases with ⟨-, -, -, -, hnp⟩ | ⟨hs, -, hw⟩ | ⟨-, hj', -⟩
    · exact absurd (hp.symm.trans hnp) nofun
    · obtain ⟨-, -, hrx, htx⟩ := h
      refine .of_started hs ?_ hrx htx
      simpa [ShapeAt, Quiescent, WaitingShape, hp] using hw
    · exact absurd (hj.symm.trans hj') nofun
  · rwa [h']
  · rw [h']
    have hq := h.quiescent_of_computing hc
    obtain ⟨hs, -⟩ := h.shapeAt_of_running fun hj => by rw [hj] at hc; cases hc
    obtain ⟨-, -, hrx, htx⟩ := h
    obtain ⟨m, a, b, c, d, v, rv, r, ix, rfl, -⟩ := hu
    exact .of_started hs ((shapeAt_iff_quiescent_of_computing hnext).2 hq) hrx htx
  · rw [h']
    exact h.rearmStep hj

/-- `START` arms a quiescent controller; no other command touches the controller. -/
theorem ControllerInv.effect {s : State} (h : ControllerInv s) (hidle : cstate s = .idle)
    (i : Instr) : ControllerInv (effect i s) := by
  rcases effect_cases i s with hc | ⟨p, hp⟩ | ⟨p, hp⟩
  · obtain ⟨m, a, b, c, d, v, rv, r, ix, ht, -⟩ := hc
    rw [ht]
    exact h
  · rw [hp]
    exact h
  · rw [hp]
    obtain ⟨hbefore, -, hrx, htx⟩ := h
    obtain ⟨⟨henRx, henTx, -, -, hpost⟩, hj⟩ := hbefore ((cstate_idle_iff s).1 hidle)
    refine .of_started rfl ?_ ?_ ?_
    · show ShapeAt _ s.jstep
      rw [hj]
      exact .inl ⟨rfl, rfl, rfl, rfl, hpost⟩
    · simp [arm, armAction, henRx]
    · simp [arm, armAction, henTx]

theorem ControllerInv.writeElement {s : State} (h : ControllerInv s) (b : BufId) (k : Nat)
    (v : Word) : ControllerInv (writeElement s b k v) := by
  obtain ⟨p, q, m, x, y, z, w, tv, hw⟩ := writeElement_frame s b k v
  rw [hw]
  exact h

theorem ControllerInv.took {u t : State} {a : Action} (h : ControllerInv u) (ht : Took u a t) :
    ControllerInv t := by
  cases ht with
  | job => exact h.jobStep
  | reset => exact controllerInvAtReset u.cfg
  | command _ i hidle _ => exact h.effect hidle i
  | window _ b k v _ _ => exact h.writeElement b k v
  | nothing | rxWrite | txRead | read | ignored | refused | refusedRead | index | bufAddr => exact h

/-- Settles O46: the job's step keeps the invariant; E1 lets the handler run only on an enabled channel,
where it keeps it too, and so does whatever comes with the notifications. -/
theorem controllerInvIsKept : Obligations.ControllerInvIsKept := by
  intro s t h henv hstep
  rcases step_cases hstep with ⟨-, rfl⟩ | ⟨i, rest, hin, ht⟩
  · exact h.jobStep
  · obtain ⟨hrx, htx⟩ := henv i rest hin
    have hrest : ControllerInv { s with inputs := rest } := h
    exact (hrest.deliver hrx htx).took ht

/-! ### What the controller state says -/

/-- The lines of R141 for a started controller whose job does not run. -/
theorem cstate_of_waiting {s : State} (hs : s.started = true) (hj : s.jstep = .stopped) :
    cstate s = if s.jobPending = true ∨ (s.rxDone = true ∧ s.txDone = true) then .ready
      else if s.rxDone ≠ s.txDone then .partialDone else .armed := by
  rw [cstate, if_neg (by rw [hs]; nofun), if_neg (not_not_intro hj)]

/-- Outside `IDLE` and `PROCESSING` the controller is started and no job runs. -/
theorem waiting_of_cstate {s : State} (hidle : cstate s ≠ .idle) (hproc : cstate s ≠ .processing) :
    s.started = true ∧ s.jstep = .stopped := by
  have hs : s.started = true := (Bool.not_eq_false _).mp fun h => hidle ((cstate_idle_iff s).2 h)
  refine ⟨hs, by_contra fun hj => hproc ?_⟩
  rw [cstate, if_neg (by rw [hs]; nofun), if_pos hj]

/-- `ARMED` and `PARTIAL` have no job, posted or running. -/
theorem no_job_of_cstate {s : State} (h : cstate s = .armed ∨ cstate s = .partialDone) :
    s.started = true ∧ s.jstep = .stopped ∧ s.jobPending = false := by
  obtain ⟨hs, hj⟩ := waiting_of_cstate (s := s) (by rcases h with h | h <;> rw [h] <;> nofun)
    (by rcases h with h | h <;> rw [h] <;> nofun)
  refine ⟨hs, hj, (Bool.not_eq_true _).mp fun hp => ?_⟩
  rw [cstate_of_waiting hs hj, if_pos (.inl hp)] at h
  rcases h with h | h <;> cases h

/-- Which controller state each waiting shape is. -/
theorem WaitingShape.cstate_cases {s : State} (h : WaitingShape s) (hs : s.started = true)
    (hj : s.jstep = .stopped) :
    (cstate s = .armed ∧ s.enRx = true ∧ s.enTx = true ∧ s.rxDone = false ∧ s.txDone = false ∧
      s.jobPending = false) ∨
    (cstate s = .partialDone ∧ ((s.rxDone = true ∧ s.enRx = false ∧ s.enTx = true) ∨
      (s.txDone = true ∧ s.enTx = false ∧ s.enRx = true)) ∧ s.jobPending = false) ∨
    (cstate s = .ready ∧ s.enRx = false ∧ s.enTx = false ∧ s.rxDone = false ∧ s.txDone = false ∧
      s.jobPending = true) := by
  rw [cstate_of_waiting hs hj]
  rcases h with h | ⟨henRx, henTx, hrx, htx, hp⟩ | ⟨henRx, henTx, hrx, htx, hp⟩ | h
  · exact .inl ⟨by simp [h], h⟩
  · exact .inr (.inl ⟨by simp [hrx, htx, hp], .inl ⟨hrx, henRx, henTx⟩, hp⟩)
  · exact .inr (.inl ⟨by simp [hrx, htx, hp], .inr ⟨htx, henTx, henRx⟩, hp⟩)
  · exact .inr (.inr ⟨by simp [h], h⟩)

/-- Settles O47: the controller state tells the waiting shape, a computing job finds its channels
quiescent, and no shape has both flags set, or a job posted while one runs. -/
theorem controllerInvGivesTheStateTable : Obligations.ControllerInvGivesTheStateTable := by
  intro s h
  have hwait : cstate s ≠ .idle → cstate s ≠ .processing →
      s.started = true ∧ s.jstep = .stopped ∧ WaitingShape s := fun h1 h2 => by
    obtain ⟨hs, hj⟩ := waiting_of_cstate h1 h2
    obtain ⟨-, hshape, -, -⟩ := h
    have hw := hshape hs
    rw [hj] at hw
    exact ⟨hs, hj, hw⟩
  refine ⟨fun hc => ?armed, fun hc => ?partialDone, fun hc => ?ready, h.quiescent_of_computing,
    ?bothFlags, ?bothJobs⟩
  case armed | partialDone | ready =>
    obtain ⟨hs, hj, hw⟩ := hwait (by rw [hc]; nofun) (by rw [hc]; nofun)
    simpa [hc, hj] using hw.cstate_cases hs hj
  case bothFlags =>
    rintro ⟨hrx, htx⟩
    rcases h.shape_cases with ⟨-, -, hrx', -, -⟩ | ⟨-, -, hw⟩ | ⟨-, -, -, htx', -⟩
    · exact absurd (hrx.symm.trans hrx') nofun
    · simp [WaitingShape, hrx, htx] at hw
    · exact absurd (htx.symm.trans htx') nofun
  case bothJobs =>
    rintro ⟨hp, hj⟩
    rcases h.shape_cases with ⟨-, -, -, -, hp'⟩ | ⟨-, hj', -⟩ | ⟨-, -, -, -, hp', -⟩
    · exact absurd (hp.symm.trans hp') nofun
    · exact hj hj'
    · exact absurd (hp.symm.trans hp') nofun

/-! ### Waiting (R148) -/

/-- Without a job, posted or running, the scheduler has nothing to do. -/
theorem jobStep_of_no_job {s : State} (hj : s.jstep = .stopped) (hp : s.jobPending = false)
    (nu : Num Scalar) : jobStep nu s = s := by
  simp [jobStep, hj, hp]

/-- Outside `IDLE` and without a job, only RESET and the handler change the controller state. -/
theorem Took.cstate_eq {u t : State} {a : Action} (ht : Took u a t) (ha : a ≠ .reset)
    (hidle : cstate u ≠ .idle) (hj : u.jstep = .stopped) (hp : u.jobPending = false) :
    cstate t = cstate u := by
  cases ht with
  | job => rw [jobStep_of_no_job hj hp]
  | reset => exact absurd rfl ha
  | command _ i h _ => exact absurd h hidle
  | window _ b k v h _ => exact absurd h hidle
  | nothing | rxWrite | txRead | read | ignored | refused | refusedRead | index | bufAddr => rfl

/-- Settles O49: in both states a step without a notification finds no job to move and no command to
accept. -/
theorem waitingIsLeftOnlyByNotification : Obligations.WaitingIsLeftOnlyByNotification := by
  intro s t hc hstep hquiet
  obtain ⟨-, hj, hp⟩ := no_job_of_cstate hc
  rcases step_cases hstep with ⟨-, rfl⟩ | ⟨⟨rx, tx, a⟩, rest, hin, ht⟩
  · rw [jobStep_of_no_job hj hp]
  · obtain ⟨rfl, rfl, ha⟩ := hquiet _ rest hin
    have hidle : cstate s ≠ .idle := by rcases hc with hc | hc <;> rw [hc] <;> nofun
    exact ht.cstate_eq ha hidle hj hp

end Sys2Proof.Machine
end

section
/-!
PROOFS. Arming and the job: what `ARM` (R149) and `START` (R142) leave, the dispatch (R145), the job's
micro-steps in order (R146, R156), and the whole cycle from `ARMED` to `ARMED` (R147, R159 item 6).
-/

namespace Sys2Proof.Machine

open Sys2Proof

/-! ### `ARM` and `START` -/

/-- `u` with the fields `ARM` writes, as `ARM` writes them in `s` (R149, R154 E1). -/
def armedFrom (s u : State) : State :=
  { u with
    rxDone := false
    txDone := false
    rxDma := ⟨some (rxDescriptor s.cfg), s.rxDma.owed || !s.enRx⟩
    txDma := ⟨some (txDescriptor s.cfg), s.txDma.owed || !s.enTx⟩
    cfgLog := s.cfgLog ++ [rxDescriptor s.cfg, txDescriptor s.cfg]
    enRx := true
    enTx := true }

/-- `ARM` as one update. -/
theorem arm_eq (s : State) : arm s = armedFrom s s := by
  simp [arm, armAction, armedFrom]

/-- Settles O12: `START` is accepted in `IDLE` alone, and arms what `SYNTH` leaves. -/
theorem startSynthesizesAndArms : Obligations.StartSynthesizesAndArms := by
  refine fun s => ⟨fun h => ⟨_, exec_synth_of_idle h, ?_⟩, fun h => exec_of_refused (.inl h)⟩
  rw [exec_of_idle rfl h, effect, opStart, arm_eq]
  rfl

/-! ### The steps of the job -/

/-- The job moves when no input is left, or when the scheduler lets it after the notifications that come
with its turn (log 9, 10). -/
def JobMoves (s u : State) : Prop :=
  (s.inputs = [] ∧ u = s) ∨ ∃ rx tx rest, s.inputs = ⟨rx, tx, .job⟩ :: rest ∧
    u = deliver ⟨rx, tx, .job⟩ { s with inputs := rest }

theorem JobMoves.step {s u : State} (h : JobMoves s u) : step s = .next (jobStep u.cfg.ops u) := by
  rcases h with ⟨hin, rfl⟩ | ⟨rx, tx, rest, hin, rfl⟩
  · exact step_nil hin
  · exact step_cons hin

theorem jobStep_dispatch {s : State} (hp : s.jobPending = true) (hj : s.jstep = .stopped)
    (nu : Num Scalar) : jobStep nu s = { s with jobPending := false, jstep := .downmix } := by
  simp [jobStep, hj, hp]

theorem jobStep_downmix {s : State} (hj : s.jstep = .downmix) (nu : Num Scalar) :
    jobStep nu s = { opDownmix s with jstep := .correlate } := by
  simp [jobStep, hj]

theorem jobStep_correlate {s : State} (hj : s.jstep = .correlate) (nu : Num Scalar) :
    jobStep nu s = { opCorrelate nu s with jstep := .convert } := by
  simp [jobStep, hj]

theorem jobStep_convert {s : State} (hj : s.jstep = .convert) (nu : Num Scalar) :
    jobStep nu s = { opTodist nu s with jstep := .rearm .clearFlags } := by
  simp [jobStep, hj]

theorem jobStep_rearm {s : State} {a : ArmAction} (hj : s.jstep = .rearm a) (nu : Num Scalar) :
    jobStep nu s = rearmStep a s := by
  simp [jobStep, hj]

/-- The correlator of the build (R156). -/
theorem opCorrelate_eq_ite (nu : Num Scalar) (s : State) :
    opCorrelate nu s = if s.cfg.strategy = .time then opCorrt s else opCorrf nu s := by
  cases h : s.cfg.strategy <;> simp [opCorrelate, h]

theorem opCorrelate_of_time {s : State} (h : s.cfg.strategy = .time) (nu : Num Scalar) :
    opCorrelate nu s = opCorrt s := by
  rw [opCorrelate_eq_ite, if_pos h]

theorem opCorrelate_of_freq {s : State} (h : s.cfg.strategy = .freq) (nu : Num Scalar) :
    opCorrelate nu s = opCorrf nu s := by
  rw [opCorrelate_eq_ite, if_neg (by rw [h]; nofun)]

/-- Settles O42: the job's next step is its dispatch. -/
theorem dispatchStartsThePostedJob : Obligations.DispatchStartsThePostedJob := by
  intro s rest hp hj
  refine ⟨fun hin => ?turn, fun hin => ?noInput⟩
  case turn =>
    rw [JobMoves.step (.inr ⟨false, false, rest, hin, rfl⟩)]
    exact congrArg _ (jobStep_dispatch (s := { s with inputs := rest }) hp hj _)
  case noInput => rw [step_nil hin, jobStep_dispatch hp hj]

/-! ### Computing does not see the control state -/

/-- `c` with the configuration, the buffers and the computed registers of `s`. -/
def withDataOf (s c : State) : State :=
  { c with
    cfg := s.cfg, probe := s.probe, capture := s.capture, mono := s.mono, ssp := s.ssp, rsp := s.rsp,
    xsp := s.xsp, tw := s.tw, twValid := s.twValid, result := s.result, resultValid := s.resultValid,
    index := s.index }

/-- Computing leaves the control state alone. -/
theorem ComputesOnly.withDataOf_eq {s t : State} (h : ComputesOnly s t) : withDataOf t s = t := by
  obtain ⟨m, a, b, c, d, v, rv, r, ix, rfl, -⟩ := h
  rfl

theorem prepareTable_withDataOf (nu : Num Scalar) (s c : State) :
    prepareTable nu (withDataOf s c) = withDataOf (prepareTable nu s) c := by
  cases h : s.twValid with
  | false =>
    rw [prepareTable_of_not_valid nu h, prepareTable_of_not_valid (s := withDataOf s c) nu h]
    rfl
  | true => rw [prepareTable_of_valid nu h, prepareTable_of_valid (s := withDataOf s c) nu h]

theorem opCorrf_withDataOf (nu : Num Scalar) (s c : State) :
    opCorrf nu (withDataOf s c) = withDataOf (opCorrf nu s) c := by
  have h := prepareTable_withDataOf nu (opPade nu (opPadp nu s)) c
  exact congrArg (fun u => opPeak nu .xsp (opIfft nu .xsp (opCmul nu .xsp .ssp .rsp
    (opFft nu .rsp (opFft nu .ssp u))))) h

theorem opCorrelate_withDataOf (nu : Num Scalar) (s c : State) :
    opCorrelate nu (withDataOf s c) = withDataOf (opCorrelate nu s) c := by
  cases h : s.cfg.strategy with
  | time =>
    rw [opCorrelate_of_time h, opCorrelate_of_time (s := withDataOf s c) h]
    rfl
  | freq =>
    rw [opCorrelate_of_freq h, opCorrelate_of_freq (s := withDataOf s c) h]
    exact opCorrf_withDataOf nu s c

/-- What micro-steps 1 to 3 compute (R146). -/
def processed (s : State) : State :=
  opTodist s.cfg.ops (opCorrelate s.cfg.ops (opDownmix s))

theorem computesOnly_processed (s : State) : ComputesOnly s (processed s) :=
  ((computesOnly_downmix s).trans (spectraOnly_correlate _ _).computes).trans
    (computesOnly_todist _ _)

theorem processed_withDataOf (s c : State) :
    processed (withDataOf s c) = withDataOf (processed s) c :=
  congrArg (opTodist s.cfg.ops) (opCorrelate_withDataOf s.cfg.ops (opDownmix s) c)

/-! ### The whole job -/

/-- Micro-steps 1 to 3, uninterrupted. -/
theorem run_compute {s : State} (hj : s.jstep = .downmix) (hin : s.inputs = []) :
    Host.Core.run Sys2Proof.core 3 s = .next { processed s with jstep := .rearm .clearFlags } := by
  have h1 : step s = .next (withDataOf (opDownmix s) { s with jstep := .correlate }) := by
    rw [step_nil hin, jobStep_downmix hj]
    rfl
  have h2 : step (withDataOf (opDownmix s) { s with jstep := .correlate }) =
      .next (withDataOf (opCorrelate s.cfg.ops (opDownmix s)) { s with jstep := .convert }) := by
    rw [step_nil (by exact hin), jobStep_correlate rfl, opCorrelate_withDataOf]
    rfl
  have h3 : step (withDataOf (opCorrelate s.cfg.ops (opDownmix s)) { s with jstep := .convert }) =
      .next { withDataOf (processed s) s with jstep := .rearm .clearFlags } := by
    have hops : (withDataOf (opCorrelate s.cfg.ops (opDownmix s))
        { s with jstep := .convert }).cfg.ops = s.cfg.ops :=
      congrArg Config.ops (spectraOnly_correlate s.cfg.ops (opDownmix s)).computes.cfg_eq
    rw [step_nil (by exact hin), jobStep_convert rfl, hops]
    rfl
  rw [core_run_succ h1, core_run_succ h2, core_run_succ h3, core_run_zero,
    (computesOnly_processed s).withDataOf_eq]

/-- `u` after an uninterrupted re-arm, which ends the job (R149). -/
def rearmed (u : State) : State := { armedFrom u u with jobs := u.jobs + 1, jstep := .stopped }

/-- One action of an uninterrupted re-arm. -/
theorem run_rearmStep {s : State} {a : ArmAction} (hj : s.jstep = .rearm a) (hin : s.inputs = [])
    (k : Nat) : Host.Core.run Sys2Proof.core (k + 1) s =
      Host.Core.run Sys2Proof.core k (rearmStep a s) :=
  core_run_succ ((step_nil hin).trans (congrArg _ (jobStep_rearm hj _))) k

@[simp] theorem rearmStep_inputs (a : ArmAction) (s : State) : (rearmStep a s).inputs = s.inputs := by
  cases a <;> rfl

theorem run_rearm {s : State} (hj : s.jstep = .rearm .clearFlags) (hin : s.inputs = []) :
    Host.Core.run Sys2Proof.core 5 s = .next (rearmed s) := by
  rw [run_rearmStep hj hin, run_rearmStep (a := .cfgRx) rfl (by simp [hin]),
    run_rearmStep (a := .cfgTx) rfl (by simp [hin]),
    run_rearmStep (a := .enableRx) rfl (by simp [hin]),
    run_rearmStep (a := .enableTx) rfl (by simp [hin])]
  simp [core_run_zero, rearmed, armedFrom, rearmStep, armAction]

/-- The job from its dispatch to its end, uninterrupted. -/
theorem run_job {s : State} (hj : s.jstep = .downmix) (hin : s.inputs = []) :
    Host.Core.run Sys2Proof.core 8 s = .next (rearmed (processed s)) := by
  have hin' : (processed s).inputs = [] := by
    rw [← (computesOnly_processed s).withDataOf_eq]
    exact hin
  exact (core_run_add (run_compute hj hin) 5).trans (run_rearm rfl hin')

/-- What the re-arm leaves of a job that ran from `s`, which only computed (R149). -/
theorem ComputesOnly.rearmed_eq {s u : State} (h : ComputesOnly s u) :
    rearmed u = { armedFrom s u with jobs := s.jobs + 1, jstep := .stopped } := by
  obtain ⟨m, a, b, c, d, v, rv, r, ix, rfl, -⟩ := h
  rfl

/-- RX may signal before or after the last action of the re-arm: the state is the same (R149). -/
theorem notify_rx_commutes_with_enableTx {s t : State} {rest : List Input} (hs : s.started = true)
    (hj : s.jstep = .rearm .enableTx)
    (ht : t = { rearmStep .enableTx (notify .rx s) with inputs := rest }) :
    Host.Core.run Sys2Proof.core 2
        { s with inputs := ⟨true, false, .nothing⟩ :: ⟨false, false, .job⟩ :: rest } = .next t ∧
    Host.Core.run Sys2Proof.core 2
        { s with inputs := ⟨false, false, .job⟩ :: ⟨true, false, .nothing⟩ :: rest } = .next t := by
  rw [notify_rx hs] at ht
  subst ht
  constructor
  · rw [core_run_succ (step_notify_rx (by exact hs) rfl),
      core_run_succ (JobMoves.step (.inr ⟨false, false, rest, rfl, rfl⟩)), deliver_none,
      jobStep_rearm (by exact hj)]
    rfl
  · rw [core_run_succ (JobMoves.step (.inr ⟨false, false, _, rfl, rfl⟩)), deliver_none,
      jobStep_rearm (by exact hj), core_run_succ (step_notify_rx (by exact hs) rfl)]
    rfl

/-- Settles O43: each clause of the first part is one equation of `jobStep`, and the whole job is the
computing followed by the re-arm. -/
theorem jobRunsItsMicroStepsInOrder : Obligations.JobRunsItsMicroStepsInOrder := by
  refine ⟨fun s u hmove => ?steps, fun s t rest hs hj ht => ?commute, fun s hj hin => ?whole,
    fun s h => ⟨exec_of_idle rfl h, exec_of_idle rfl h, exec_of_idle rfl h, exec_of_idle rfl h⟩⟩
  case steps =>
    rw [JobMoves.step hmove]
    refine ⟨fun hj => ?_, fun hj hb => ?_, fun hj hb => ?_, fun hj => ?_, fun hj => ?_, fun hj => ?_,
      fun hj => ?_, fun hj => ?_, fun hj => ?_⟩
    · rw [jobStep_downmix hj]
    · rw [jobStep_correlate hj, opCorrelate_of_time hb]
    · rw [jobStep_correlate hj, opCorrelate_of_freq hb]
    · rw [jobStep_convert hj]
    all_goals
      rw [jobStep_rearm hj]
      rfl
  case commute =>
    refine notify_rx_commutes_with_enableTx hs hj ?_
    rw [notify_rx hs]
    exact ht
  case whole =>
    refine ⟨processed s, ?_, run_compute hj hin, ?_⟩
    · rw [processed, opCorrelate_eq_ite]
      rfl
    · rw [run_job hj hin, (computesOnly_processed s).rearmed_eq]
      rfl

/-! ### One cycle -/

/-- `CORRF` ends in `PEAK` over the cross-correlation it leaves (R250). -/
theorem opCorrf_index (nu : Num Scalar) (s : State) : (opCorrf nu s).index =
    BitVec.ofNat 32 (peakIndex nu s.cfg.responseMono (bufToList s.cfg.fftLen (opCorrf nu s).xsp)) := by
  rw [← (spectraOnly_corrf nu s).computes.cfg_eq]
  rfl

/-- The job just dispatched after a pair of notifications, no input left. -/
def dispatched (s : State) : State :=
  { bothSignalled s with inputs := [], jobPending := false, jstep := .downmix }

/-- The re-arm does not see the data. -/
theorem rearmed_withDataOf {s c : State} (h : s.cfg = c.cfg) :
    rearmed (withDataOf s c) = withDataOf s (rearmed c) := by
  simp [rearmed, armedFrom, withDataOf, h]

/-- One pair of notifications, the dispatch and the job, from `ARMED`: the data are those of the
computing, which the control state does not reach. -/
theorem run_cycle {s : State} {first second : Input} (hs : s.started = true)
    (hj : s.jstep = .stopped) (hrx : s.rxDone = false) (htx : s.txDone = false)
    (hp : IsPair first second) (hin : s.inputs = [first, second]) :
    Host.Core.run Sys2Proof.core 11 s =
      .next (withDataOf (processed s) (rearmed (dispatched s))) := by
  have hdispatch : step { bothSignalled s with inputs := [] } = .next (dispatched s) :=
    (dispatchStartsThePostedJob { bothSignalled s with inputs := [] } [] rfl hj).2 rfl
  calc Host.Core.run Sys2Proof.core 11 s
      = Host.Core.run Sys2Proof.core 9 { bothSignalled s with inputs := [] } :=
        core_run_add (run_pair hp hs hrx htx hin) 9
    _ = Host.Core.run Sys2Proof.core 8 (dispatched s) := core_run_succ hdispatch 8
    _ = .next (rearmed (processed (dispatched s))) := run_job rfl rfl
    _ = .next (rearmed (withDataOf (processed s) (dispatched s))) :=
        congrArg (Host.Outcome.next ∘ rearmed) (processed_withDataOf s (dispatched s))
    _ = .next (withDataOf (processed s) (rearmed (dispatched s))) :=
        congrArg _ (rearmed_withDataOf (computesOnly_processed s).cfg_eq)

/-- The job ends in `ARMED` (R149). -/
theorem cstate_rearmed_dispatched {s : State} (hs : s.started = true) (d : State) :
    cstate (withDataOf d (rearmed (dispatched s))) = .armed := by
  rw [cstate_of_waiting (s := withDataOf d (rearmed (dispatched s))) hs rfl]
  rfl

/-- The job leaves `MONO` as `DOWNMIX` wrote it, and what it reads as it was (R181, R190, R250). -/
theorem processed_samples (s : State) : (processed s).mono = (opDownmix s).mono ∧
    (processed s).probe = s.probe ∧ (processed s).capture = s.capture := by
  obtain ⟨a, b, c, d, v, ix, hw⟩ := spectraOnly_correlate s.cfg.ops (opDownmix s)
  rw [processed, hw]
  exact ⟨rfl, rfl, rfl⟩

theorem processed_result (s : State) :
    (processed s).result = s.cfg.ops.bits (distanceOf s.cfg.ops s.cfg (processed s).index) :=
  congrArg (fun c => s.cfg.ops.bits (distanceOf s.cfg.ops c (processed s).index))
    (spectraOnly_correlate s.cfg.ops (opDownmix s)).computes.cfg_eq

theorem processed_of_time {s : State} (h : s.cfg.strategy = .time) :
    processed s = opTodist s.cfg.ops (opCorrt (opDownmix s)) :=
  congrArg (opTodist s.cfg.ops) (opCorrelate_of_time (s := opDownmix s) h _)

theorem processed_of_freq {s : State} (h : s.cfg.strategy = .freq) :
    processed s = opTodist s.cfg.ops (opCorrf s.cfg.ops (opDownmix s)) :=
  congrArg (opTodist s.cfg.ops) (opCorrelate_of_freq (s := opDownmix s) h _)

/-- Settles O44: one cycle ends with the data `processed` gives and the controller armed again. -/
theorem oneCyclePerPairOfNotifications : Obligations.OneCyclePerPairOfNotifications := by
  rintro s _ first second rfl hinv harmed hpair hin
  obtain ⟨-, -, hrx, htx, -, hj⟩ := (controllerInvGivesTheStateTable s hinv).1 harmed
  obtain ⟨hs, -, -⟩ := no_job_of_cstate (.inl harmed)
  obtain ⟨hmono, hprobe, hcapture⟩ := processed_samples s
  refine ⟨_, run_cycle hs hj hrx htx hpair hin, cstate_rearmed_dispatched hs _, rfl, rfl, rfl,
    fun i hi => ?mono, fun hb => ?time, fun hb u hu => ?freq, processed_result s, hprobe, hcapture,
    rfl, ?cfgLog⟩
  case mono =>
    show bufRead (processed s).mono i = _
    rw [hmono, opDownmix_mono, bufRead_bufOfList]
    simp [List.getD, hi]
  case time =>
    rw [processed_of_time hb]
    exact ⟨rfl, rfl, rfl, rfl, rfl, rfl, rfl⟩
  case freq =>
    subst hu
    rw [processed_of_freq hb]
    exact ⟨rfl, opCorrf_index s.cfg.ops (opDownmix s), rfl, rfl, rfl, rfl, rfl⟩
  case cfgLog => simp [rearmed, armedFrom, withDataOf, dispatched, bothSignalled]

end Sys2Proof.Machine
end

section
/-!
PROOFS. An element access of a DMA channel inside its contract (R154 E2 and E3).
-/

namespace Sys2Proof.Machine

open Sys2Proof

/-- The write of an enabled RX channel, within its count, while the job does not compute. -/
theorem rxWrite_of_owner {s : State} {k : Nat} (hen : s.enRx = true)
    (hc : s.jstep.computing = false) (hk : k < s.cfg.responseLen) (v : Sample) :
    rxWrite k v s = .next { s with capture := bufWrite s.capture k v } := by
  simp [rxWrite, hen, hc, hk]

/-- The read of the TX channel under the same conditions. -/
theorem txRead_of_owner {s : State} {k : Nat} (hen : s.enTx = true)
    (hc : s.jstep.computing = false) (hk : k < s.cfg.sweepLen) :
    txRead k s = .next { s with txData := bufRead s.probe k } := by
  simp [txRead, hen, hc, hk]

/-- Settles O59: the write is one element of `CAPTURE`, and the read is none of the core's. -/
theorem dmaTouchesOnlyItsBuffer : Obligations.DmaTouchesOnlyItsBuffer := by
  intro s k rest hwf hc
  refine ⟨fun v hin hen hk => ?rx, fun hin hen hk => ?tx⟩
  case rx =>
    obtain ⟨-, hcapture, -⟩ := (Memory.wf_iff s).1 hwf
    have hstep : step s = .next { s with inputs := rest, capture := bufWrite s.capture k v } :=
      (step_cons hin).trans (rxWrite_of_owner (s := { s with inputs := rest }) hen hc hk v)
    exact ⟨_, hstep, rfl, bufRead_bufWrite_same hcapture k v,
      fun j hj => bufRead_bufWrite_of_ne s.capture v hj⟩
  case tx =>
    exact (step_cons hin).trans (txRead_of_owner (s := { s with inputs := rest }) hen hc hk)

end Sys2Proof.Machine
end

section
/-!
PROOFS. The mono downmixer (42_downmix.md).
-/

namespace Sys2Proof.Machine

open Sys2Proof

/-- The downmix keeps the even elements of `CAPTURE` (R180). -/
theorem bufRead_opDownmix_mono {s : State} {i : Nat} (hi : i < s.cfg.responseMono) :
    bufRead (opDownmix s).mono i = bufRead s.capture (2 * i) := by
  have hlen : i < ((List.range s.cfg.responseMono).map
      fun j => bufRead s.capture (2 * j)).length := by
    rwa [List.length_map, List.length_range]
  rw [opDownmix_mono, bufRead_bufOfList, List.getD_eq_getElem _ _ hlen, List.getElem_map,
    List.getElem_range]

/-- Settles O16: in `IDLE` the command is performed, and the downmix writes no field but `mono`. -/
theorem downmixTakesTheLeftChannel : Obligations.DownmixTakesTheLeftChannel :=
  fun s hidle => ⟨opDownmix s, exec_of_idle rfl hidle, rfl, fun _ => bufRead_opDownmix_mono⟩

end Sys2Proof.Machine
end

section
/-!
PROOFS. The lag sums of the time-domain correlator (43_corr_time.md): wrapping after every addition
is wrapping once at the end (R192), and a wide accumulator never wraps.
-/

namespace Sys2Proof.Machine

open Sys2Proof

/-- One pass of R190's inner loop: the term of `m`, unless it lies beyond the probe (R191). -/
def addLagTerm (c : Config) (probe mono : Buf Sample) (k : Nat) (r : Int) (m : Nat) : Int :=
  if m - k < c.sweepLen then
    wrapTo c.accW (r + sampleValue (bufRead probe (m - k)) * sampleValue (bufRead mono m))
  else r

theorem lagSum_eq_foldl (c : Config) (probe mono : Buf Sample) (k : Nat) :
    lagSum c probe mono k =
      (List.range' k (c.responseMono - k)).foldl (addLagTerm c probe mono k) 0 := rfl

/-- R192: an addition may take the wrapped running sum for the sum itself. -/
theorem wrapTo_wrapTo_add (w : Nat) (y z : Int) : wrapTo w (wrapTo w y + z) = wrapTo w (y + z) :=
  Int.bmod_add_bmod

/-- The running sum after `n` terms is the wrapped sum of those that lie within the probe. -/
theorem foldl_addLagTerm (c : Config) (probe mono : Buf Sample) (k n : Nat) :
    (List.range' k n).foldl (addLagTerm c probe mono k) 0 =
      wrapTo c.accW (∑ j ∈ Finset.range (min c.sweepLen n),
        (bufRead probe j).toInt * (bufRead mono (k + j)).toInt) := by
  induction n with
  | zero => simp [wrapTo]
  | succ n ih =>
    rw [List.range'_concat, List.foldl_append, ih, List.foldl_cons, List.foldl_nil, addLagTerm,
      one_mul, Nat.add_sub_cancel_left]
    split
    · next h =>
      rw [wrapTo_wrapTo_add, min_eq_right (Nat.succ_le_of_lt h), min_eq_right h.le,
        Finset.sum_range_succ]
      rfl
    · next h => rw [min_eq_left (by omega), min_eq_left (by omega)]

/-- R191, R192: the sum of a lag is the mathematical sum, wrapped at `ACC_W` bits. -/
theorem lagSum_eq_wrapTo (s : State) (k : Nat) :
    lagSum s.cfg s.probe s.mono k = wrapTo s.cfg.accW (exactLagSum s k) :=
  (lagSum_eq_foldl ..).trans (foldl_addLagTerm ..)

/-- Wrapping at 64 bits or more leaves an integer below `2^63` in magnitude as it is. -/
theorem wrapTo_eq_self {w : Nat} {z : Int} (hw : 64 ≤ w) (hz : |z| < 2 ^ 63) : wrapTo w z = z := by
  have hpow : 2 ^ 64 ≤ 2 ^ w := Nat.pow_le_pow_right two_pos hw
  rw [abs_lt] at hz
  exact Int.bmod_eq_of_le (by omega) (by omega)

theorem abs_toInt_le (v : Sample) : |v.toInt| ≤ 2 ^ 15 :=
  abs_le.2 ⟨v.le_toInt, v.toInt_lt.le⟩

/-- R192: a product of two samples is at most `2^30` in magnitude. -/
theorem abs_toInt_mul_toInt_le (u v : Sample) : |u.toInt * v.toInt| ≤ 2 ^ 30 := by
  rw [abs_mul]
  exact mul_le_mul (abs_toInt_le u) (abs_toInt_le v) (abs_nonneg _) (by norm_num)

/-- R9 bounds the number of terms by `2^28`, so a lag sum stays below `2^58` in magnitude. -/
theorem abs_exactLagSum_lt (s : State) (k : Nat) : |exactLagSum s k| < 2 ^ 63 := by
  have hlen := s.cfg.sweepLen_lt
  calc |exactLagSum s k|
      ≤ ∑ j ∈ Finset.range (min s.cfg.sweepLen (s.cfg.responseMono - k)),
          |(bufRead s.probe j).toInt * (bufRead s.mono (k + j)).toInt| :=
        Finset.abs_sum_le_sum_abs _ _
    _ ≤ (min s.cfg.sweepLen (s.cfg.responseMono - k) : ℕ) * 2 ^ 30 :=
        (Finset.sum_le_card_nsmul _ _ _ fun j _ => abs_toInt_mul_toInt_le _ _).trans_eq
          (by rw [Finset.card_range, nsmul_eq_mul])
    _ < 2 ^ 63 := by omega

/-- Settles O18: no legal configuration has a lag sum that 64 bits do not hold. -/
theorem wideAccumulatorIsExact : Obligations.WideAccumulatorIsExact := fun s k hw =>
  (lagSum_eq_wrapTo s k).trans (wrapTo_eq_self hw (abs_exactLagSum_lt s k))

end Sys2Proof.Machine
end

section
/-!
PROOFS. The search of the time-domain correlator: the earliest strict maximum above 0 (R193, R194).
-/

namespace Sys2Proof.Machine

open Sys2Proof

/-- `i` is the earliest place below `n` at which `r` takes its greatest value, a positive one. -/
def EarliestPositiveMax (r : Nat → Int) (n i : Nat) : Prop :=
  i < n ∧ 0 < r i ∧ (∀ k < n, r k ≤ r i) ∧ ∀ k < i, r k < r i

theorem EarliestPositiveMax.unique {r : Nat → Int} {n i j : Nat}
    (hi : EarliestPositiveMax r n i) (hj : EarliestPositiveMax r n j) : i = j := by
  obtain ⟨hin, -, hmaxi, hearlyi⟩ := hi
  obtain ⟨hjn, -, hmaxj, hearlyj⟩ := hj
  rcases lt_trichotomy i j with h | h | h
  · exact absurd (hearlyj i h) (hmaxi j hjn).not_gt
  · exact h
  · exact absurd (hearlyi j h) (hmaxj i hin).not_gt

/-- What `best` and `idx` of R190 hold once `n` lags are considered. -/
def ChosenAmong (r : Nat → Int) (n : Nat) (choice : Int × Nat) : Prop :=
  (choice = (0, 0) ∧ ∀ k < n, r k ≤ 0) ∨
    (choice.1 = r choice.2 ∧ EarliestPositiveMax r n choice.2)

/-- Whatever was chosen, it bounds every sum considered, and its sum is not negative. -/
theorem ChosenAmong.bounds {r : Nat → Int} {n : Nat} {choice : Int × Nat}
    (h : ChosenAmong r n choice) : 0 ≤ choice.1 ∧ ∀ k < n, r k ≤ choice.1 := by
  obtain ⟨rfl, hle⟩ | ⟨heq, -, hpos, hmax, -⟩ := h
  · exact ⟨le_rfl, hle⟩
  · rw [heq]
    exact ⟨hpos.le, hmax⟩

/-- R193: a strictly greater sum replaces the choice, any other leaves it. -/
theorem chosenAmong_considerLag {c : Config} {probe mono : Buf Sample} {n : Nat}
    {choice : Int × Nat} (h : ChosenAmong (lagSum c probe mono) n choice) :
    ChosenAmong (lagSum c probe mono) (n + 1) (considerLag c probe mono choice n) := by
  obtain ⟨hnonneg, hle⟩ := h.bounds
  rw [considerLag]
  split
  · next hgt =>
    refine .inr ⟨rfl, n.lt_succ_self, hnonneg.trans_lt hgt, fun k hk => ?_,
      fun k hk => (hle k hk).trans_lt hgt⟩
    obtain hk | rfl := Nat.lt_succ_iff_lt_or_eq.1 hk
    · exact (hle k hk).trans hgt.le
    · exact le_rfl
  · next hngt =>
    have hlast : ∀ k < n + 1, lagSum c probe mono k ≤ choice.1 :=
      Nat.forall_lt_succ_right.2 ⟨hle, not_lt.1 hngt⟩
    obtain ⟨rfl, -⟩ | ⟨heq, hlt, hpos, -, hearly⟩ := h
    · exact .inl ⟨rfl, hlast⟩
    · exact .inr ⟨heq, hlt.trans n.lt_succ_self, hpos, heq ▸ hlast, hearly⟩

theorem chosenAmong_foldl (c : Config) (probe mono : Buf Sample) (n : Nat) :
    ChosenAmong (lagSum c probe mono) n
      ((List.range n).foldl (considerLag c probe mono) (0, 0)) := by
  induction n with
  | zero => exact .inl ⟨rfl, fun _ hk => absurd hk (Nat.not_lt_zero _)⟩
  | succ n ih =>
    rw [List.range_succ, List.foldl_append]
    exact chosenAmong_considerLag ih

/-- R193: the chosen lag is 0 when no sum exceeds 0, else the earliest of greatest sum. -/
theorem bestLag_cases (c : Config) (probe mono : Buf Sample) :
    (bestLag c probe mono = 0 ∧ ∀ k < c.sweepLen, lagSum c probe mono k ≤ 0) ∨
      EarliestPositiveMax (lagSum c probe mono) c.sweepLen (bestLag c probe mono) :=
  (chosenAmong_foldl c probe mono c.sweepLen).imp (And.imp_left (congrArg Prod.snd)) And.right

/-- R194: the choice starts at lag 0 and is only ever replaced by a lag of the loop. -/
theorem bestLag_lt (c : Config) (probe mono : Buf Sample) : bestLag c probe mono < c.sweepLen := by
  obtain ⟨hzero, -⟩ | hmax := bestLag_cases c probe mono
  · have := c.four_le_sweepLen
    omega
  · exact hmax.1

theorem bestLag_eq {c : Config} {probe mono : Buf Sample} {d : Nat}
    (h : EarliestPositiveMax (lagSum c probe mono) c.sweepLen d) : bestLag c probe mono = d := by
  obtain ⟨-, hle⟩ | hmax := bestLag_cases c probe mono
  · exact absurd h.2.1 (hle d h.1).not_gt
  · exact hmax.unique h

/-- `INDEX` holds the chosen lag without loss. -/
theorem toNat_opCorrt_index (s : State) :
    (opCorrt s).index.toNat = bestLag s.cfg s.probe s.mono := by
  have hlt := bestLag_lt s.cfg s.probe s.mono
  have hlen := s.cfg.sweepLen_lt
  rw [opCorrt_index, BitVec.toNat_ofNat]
  exact Nat.mod_eq_of_lt (by omega)

/-- Settles O17: the sums the search compares are the wrapped sums, and it keeps the earliest
greatest. -/
theorem corrtPicksTheEarliestStrictMaximum : Obligations.CorrtPicksTheEarliestStrictMaximum := by
  intro s hidle
  have hindex := toNat_opCorrt_index s
  refine ⟨opCorrt s, exec_of_idle rfl hidle, rfl, hindex ▸ bestLag_lt .., fun r hr => ?_⟩
  obtain rfl : r = lagSum s.cfg s.probe s.mono :=
    funext fun k => (hr k).trans (lagSum_eq_wrapTo s k).symm
  rw [hindex]
  obtain ⟨hzero, hle⟩ | ⟨hlt, hpos, hmax, hearly⟩ := bestLag_cases s.cfg s.probe s.mono
  · exact ⟨fun _ => by rw [opCorrt_index, hzero]; rfl,
      fun ⟨k, hk, hk0⟩ => absurd hk0 (hle k hk).not_gt⟩
  · exact ⟨fun hle => absurd hpos (hle _ hlt).not_gt, fun _ => ⟨hpos, hmax, hearly⟩⟩

end Sys2Proof.Machine
end

section
/-!
PROOFS. The time-domain correlator recovers an injected delay (R196): the correlation of a finite
sequence with a shifted copy of itself is greatest at the shift, and strictly greater than before it.
-/

namespace Sys2Proof.Machine

open Sys2Proof

/-- The first `n` terms of `p` at offset `d`, and zero elsewhere. -/
def placedAt (p : Nat → Int) (n d m : Nat) : Int := if d ≤ m ∧ m < d + n then p (m - d) else 0

theorem placedAt_add (p : Nat → Int) {n j : Nat} (d : Nat) (hj : j < n) :
    placedAt p n d (d + j) = p j := by
  simp [placedAt, hj]

theorem placedAt_of_le (p : Nat → Int) {n d m : Nat} (h : d + n ≤ m) : placedAt p n d m = 0 :=
  if_neg (by omega)

/-- A window of the placed sequence holds no more energy than the whole of it. -/
theorem sum_placedAt_sq_le (p : Nat → Int) (n d k : Nat) :
    ∑ j ∈ Finset.range n, placedAt p n d (k + j) ^ 2 ≤ ∑ j ∈ Finset.range n, p j ^ 2 := by
  have hwindow (a : Nat) : ∑ j ∈ Finset.range n, placedAt p n d (a + j) ^ 2 =
      ∑ m ∈ Finset.Ico a (a + n), placedAt p n d m ^ 2 := by
    rw [Finset.sum_Ico_eq_sum_range, Nat.add_sub_cancel_left]
  have houtside : ∀ m ∈ Finset.Ico k (k + n), m ∉ Finset.Ico k (k + n) ∩ Finset.Ico d (d + n) →
      placedAt p n d m ^ 2 = 0 := fun m hm hout => by
    rw [Finset.mem_inter, Finset.mem_Ico (a := d)] at hout
    rw [placedAt, if_neg fun h => hout ⟨hm, h⟩, zero_pow two_ne_zero]
  calc ∑ j ∈ Finset.range n, placedAt p n d (k + j) ^ 2
      = ∑ m ∈ Finset.Ico k (k + n) ∩ Finset.Ico d (d + n), placedAt p n d m ^ 2 :=
        (hwindow k).trans (Finset.sum_subset Finset.inter_subset_left houtside).symm
    _ ≤ ∑ m ∈ Finset.Ico d (d + n), placedAt p n d m ^ 2 :=
        Finset.sum_le_sum_of_subset_of_nonneg Finset.inter_subset_right fun _ _ _ => sq_nonneg _
    _ = ∑ j ∈ Finset.range n, p j ^ 2 :=
        (hwindow d).symm.trans (Finset.sum_congr rfl fun j hj => by
          rw [placedAt_add p d (Finset.mem_range.1 hj)])

/-- The correlation at lag `k` of the first `n` terms of `p` with their copy at offset `d`. -/
def copyCorrelation (p : Nat → Int) (n d k : Nat) : Int :=
  ∑ j ∈ Finset.range n, p j * placedAt p n d (k + j)

/-- At the offset itself the correlation is the energy. -/
theorem copyCorrelation_self (p : Nat → Int) (n d : Nat) :
    copyCorrelation p n d d = ∑ j ∈ Finset.range n, p j ^ 2 :=
  Finset.sum_congr rfl fun j hj => by rw [placedAt_add p d (Finset.mem_range.1 hj), sq]

/-- The Cauchy-Schwarz argument of R196: the shortfall of a lag bounds the energy of the difference
between the sequence and the window of its copy. -/
theorem sum_sub_placedAt_sq_le (p : Nat → Int) (n d k : Nat) :
    ∑ j ∈ Finset.range n, (p j - placedAt p n d (k + j)) ^ 2 ≤
      2 * (copyCorrelation p n d d - copyCorrelation p n d k) := by
  have henergy := sum_placedAt_sq_le p n d k
  rw [copyCorrelation_self, copyCorrelation]
  simp only [sub_sq, Finset.sum_add_distrib, Finset.sum_sub_distrib, mul_assoc, ← Finset.mul_sum]
  linarith

theorem copyCorrelation_le_self (p : Nat → Int) (n d k : Nat) :
    copyCorrelation p n d k ≤ copyCorrelation p n d d := by
  have hdiff := sum_sub_placedAt_sq_le p n d k
  have hnonneg : 0 ≤ ∑ j ∈ Finset.range n, (p j - placedAt p n d (k + j)) ^ 2 :=
    Finset.sum_nonneg fun _ _ => sq_nonneg _
  linarith

/-- A lag that reaches the energy is one at which the sequence agrees with its copy. -/
theorem eq_placedAt_of_copyCorrelation_eq {p : Nat → Int} {n d k : Nat}
    (heq : copyCorrelation p n d k = copyCorrelation p n d d) {j : Nat} (hj : j < n) :
    p j = placedAt p n d (k + j) := by
  have hdiff := sum_sub_placedAt_sq_le p n d k
  rw [heq, sub_self, mul_zero] at hdiff
  have hnonneg : ∀ j ∈ Finset.range n, 0 ≤ (p j - placedAt p n d (k + j)) ^ 2 :=
    fun _ _ => sq_nonneg _
  have hzero := (Finset.sum_eq_zero_iff_of_nonneg hnonneg).1
    (hdiff.antisymm (Finset.sum_nonneg hnonneg)) j (Finset.mem_range.2 hj)
  exact sub_eq_zero.1 ((pow_eq_zero_iff two_ne_zero).1 hzero)

/-- A sequence that agrees with a later copy of itself is zero, from its first term on. -/
theorem eq_zero_of_eq_placedAt {p : Nat → Int} {n d k : Nat} (hk : k < d)
    (h : ∀ j < n, p j = placedAt p n d (k + j)) (j : Nat) (hj : j < n) : p j = 0 := by
  induction j using Nat.strong_induction_on with
  | _ j ih =>
    rw [h j hj, placedAt]
    split
    · exact ih _ (by omega) (by omega)
    · rfl

/-- A sequence that is not all zero correlates with its copy best at the offset, and strictly worse
at every lag before it. -/
theorem earliestPositiveMax_copyCorrelation {p : Nat → Int} {n d l : Nat} (hd : d < l)
    (hp : ∃ j < n, p j ≠ 0) : EarliestPositiveMax (copyCorrelation p n d) l d := by
  obtain ⟨j, hj, hne⟩ := hp
  refine ⟨hd, ?pos, fun k _ => copyCorrelation_le_self p n d k, fun k hk => ?early⟩
  case pos =>
    rw [copyCorrelation_self]
    exact Finset.sum_pos' (fun _ _ => sq_nonneg _)
      ⟨j, Finset.mem_range.2 hj, sq_pos_of_ne_zero hne⟩
  case early =>
    refine (copyCorrelation_le_self p n d k).lt_of_ne fun heq => hne ?_
    exact eq_zero_of_eq_placedAt hk (fun _ => eq_placedAt_of_copyCorrelation_eq heq) j hj

/-- The probe as a sequence of integers. -/
def probeValue (s : State) (j : Nat) : Int := (bufRead s.probe j).toInt

/-- When the echo is the probe at offset `d` and the probe fits, no term of a lag sum is cut off. -/
theorem exactLagSum_of_placed {s : State} {d : Nat}
    (hfit : d + s.cfg.sweepLen ≤ s.cfg.responseMono)
    (hecho : ∀ m < s.cfg.responseMono, bufRead s.mono m =
      if d ≤ m ∧ m < d + s.cfg.sweepLen then bufRead s.probe (m - d) else 0) (k : Nat) :
    exactLagSum s k = copyCorrelation (probeValue s) s.cfg.sweepLen d k := by
  have hmono : ∀ m < s.cfg.responseMono,
      (bufRead s.mono m).toInt = placedAt (probeValue s) s.cfg.sweepLen d m := fun m hm => by
    rw [hecho m hm, apply_ite BitVec.toInt]
    rfl
  calc exactLagSum s k
      = ∑ j ∈ Finset.range (min s.cfg.sweepLen (s.cfg.responseMono - k)),
          probeValue s j * placedAt (probeValue s) s.cfg.sweepLen d (k + j) :=
        Finset.sum_congr rfl fun j hj => by
          rw [Finset.mem_range] at hj
          rw [hmono (k + j) (by omega), probeValue]
    _ = copyCorrelation (probeValue s) s.cfg.sweepLen d k :=
        Finset.sum_subset (Finset.range_subset_range.2 (min_le_left _ _)) fun j hj hout => by
          rw [Finset.mem_range] at hj hout
          rw [placedAt_of_le _ (by omega), mul_zero]

/-- Settles O19: the exact sums are the correlation of the probe with its own copy, which is
greatest at the offset. -/
theorem corrtRecoversTheInjectedDelay : Obligations.CorrtRecoversTheInjectedDelay := by
  intro s d hidle hw hd hfit ⟨j, hj, hne⟩ hecho
  have hsums : lagSum s.cfg s.probe s.mono = copyCorrelation (probeValue s) s.cfg.sweepLen d :=
    funext fun k => (wideAccumulatorIsExact s k hw).trans (exactLagSum_of_placed hfit hecho k)
  have hprobe : ∃ j < s.cfg.sweepLen, probeValue s j ≠ 0 :=
    ⟨j, hj, fun h => hne (BitVec.eq_of_toInt_eq h)⟩
  have hbest : bestLag s.cfg s.probe s.mono = d :=
    bestLag_eq (hsums ▸ earliestPositiveMax_copyCorrelation hd hprobe)
  exact (exec_of_idle rfl hidle).trans (hbest ▸ rfl)

end Sys2Proof.Machine
end

section
/-!
PROOFS. `TWGEN` and `BITREV` as commands (R200, R203, R205): the buffer each writes, and that a
second reversal undoes the first.
-/

namespace Sys2Proof.Machine

open Sys2Proof

/-! ### Writing one scalar buffer whole -/

/-- `s` with new contents of the scalar buffer `d`; the validity of the twiddle table ends with its
old contents. -/
def setScalars (s : State) (d : BufId) (b : Buf Scalar) : State :=
  match d with
  | .ssp => { s with ssp := b }
  | .rsp => { s with rsp := b }
  | .xsp => { s with xsp := b }
  | .tw => { s with tw := b, twValid := false }
  | .probe | .capture | .mono => s

@[simp] theorem setScalars_cfg (s : State) (d : BufId) (b : Buf Scalar) :
    (setScalars s d b).cfg = s.cfg := by cases d <;> rfl

@[simp] theorem cstate_setScalars (s : State) (d : BufId) (b : Buf Scalar) :
    cstate (setScalars s d b) = cstate s := by cases d <;> rfl

@[simp] theorem setScalars_setScalars (s : State) (d : BufId) (a b : Buf Scalar) :
    setScalars (setScalars s d a) d b = setScalars s d b := by cases d <;> rfl

theorem setScalars_scalarsOf (s : State) (d : BufId) :
    setScalars s d (scalarsOf s d) = if d = .tw then { s with twValid := false } else s := by
  cases d <;> rfl

theorem scalarsOf_setScalars (s : State) {d : BufId} (h : d.isPermutable = true) (b : Buf Scalar) :
    scalarsOf (setScalars s d b) d = b := by
  cases d with
  | ssp | rsp | xsp | tw => rfl
  | probe | capture | mono => cases h

theorem onlyScalarsWritten_setScalars (s : State) (d : BufId) (b : Buf Scalar) :
    OnlyScalarsWritten d s (setScalars s d b) := by cases d <;> rfl

/-! ### TWGEN -/

theorem bufRead_opTwgen_tw (nu : Num Scalar) (s : State) {i : Nat} (h : i < s.cfg.n / 2) :
    bufRead (opTwgen nu s).tw (2 * i) = nu.fcos (twiddleAngle nu s.cfg.n i) ∧
    bufRead (opTwgen nu s).tw (2 * i + 1) = nu.fsin (twiddleAngle nu s.cfg.n i) := by
  rw [opTwgen_tw, bufRead_bufOfList, bufRead_bufOfList]
  exact getD_flatMap_pair _ _ 0 _ i h

/-- R200: the angle of twiddle 0 is `fzero` under every legal configuration. -/
theorem twiddleAngle_zero (c : Config) : twiddleAngle c.ops c.n 0 = c.ops.fzero := by
  obtain ⟨k, hlen, hn⟩ := c.exists_pow
  have hk : k + 2 < 28 := (Nat.pow_lt_pow_iff_right one_lt_two).1 (hlen ▸ c.fftLen_lt)
  rw [hn]
  exact c.ops_lawful.zero_angle (k + 1) (by omega)

/-- Settles O24: the table holds the pairs `TWGEN` computes, and the angle of entry 0 is `fzero`. -/
theorem twgenWritesTheNaturalOrderTable : Obligations.TwgenWritesTheNaturalOrderTable := by
  rintro s nu rfl hidle
  have hn := s.cfg.four_le_n
  have hzero := bufRead_opTwgen_tw s.cfg.ops s (i := 0) (by omega)
  rw [twiddleAngle_zero, s.cfg.ops_lawful.cos_zero, s.cfg.ops_lawful.sin_zero] at hzero
  refine ⟨opTwgen s.cfg.ops s, exec_of_idle rfl hidle, rfl, ?_, hzero⟩
  rintro i hi _ rfl
  exact bufRead_opTwgen_tw s.cfg.ops s hi

/-! ### BITREV -/

/-- How many complex samples `BITREV d` permutes (R203). -/
def permutedLen (c : Config) (d : BufId) : Nat := if d = .tw then c.n / 2 else c.n

theorem permutedLen_pow (c : Config) (d : BufId) :
    permutedLen c d = 2 ^ Nat.log2 (permutedLen c d) := by
  unfold permutedLen
  split
  · exact half_n_pow c
  · obtain ⟨k, -, hn⟩ := c.exists_pow
    rw [hn, Nat.log2_two_pow]

/-- The samples `BITREV` permutes are all of its buffer. -/
theorem bufLen_of_permutable {d : BufId} (h : d.isPermutable = true) (c : Config) :
    bufLen c d = 2 * permutedLen c d := by
  cases d with
  | ssp | rsp | xsp => exact c.two_mul_n.symm
  | tw => exact c.two_mul_half_n.symm
  | probe | capture | mono => cases h

theorem wf_scalarsOf {s : State} (hwf : Memory.wf s = true) {d : BufId}
    (h : d.isPermutable = true) : bufWf (bufLen s.cfg d) (scalarsOf s d) = true := by
  rw [Memory.wf_iff] at hwf
  obtain ⟨-, -, -, hssp, hrsp, hxsp, htw⟩ := hwf
  cases d with
  | ssp => exact hssp
  | rsp => exact hrsp
  | xsp => exact hxsp
  | tw => exact htw
  | probe | capture | mono => cases h

/-- `BITREV` as one update (R203). -/
theorem exec_bitrev_of_idle {s : State} (hidle : cstate s = .idle) {d : BufId}
    (h : d.isPermutable = true) :
    exec (.bitrev d) s = .next (setScalars s d (bufOfList (bitrevList 0 (permutedLen s.cfg d)
      (bufToList (bufLen s.cfg d) (scalarsOf s d))))) := by
  rw [exec_of_idle (i := .bitrev d) h hidle]
  cases d with
  | ssp | rsp | xsp | tw => rfl
  | probe | capture | mono => cases h

/-- Two sequences of `n` complex samples that agree at every position are equal. -/
theorem eq_of_pairAt_eq {F : Type} (z : F) {x y : List F} {n : Nat} (hx : x.length = 2 * n)
    (hy : y.length = 2 * n) (h : ∀ p < n, pairAt z x p = pairAt z y p) : x = y := by
  refine List.ext_getElem (hx.trans hy.symm) fun i hi hi' => ?_
  obtain ⟨heven, hodd⟩ := Prod.ext_iff.1 (h (i / 2) (by omega))
  rw [← List.getD_eq_getElem x z hi, ← List.getD_eq_getElem y z hi']
  obtain hpar | hpar := Nat.mod_two_eq_zero_or_one i
  · rwa [pairAt, pairAt, show 2 * (i / 2) = i by omega] at heven
  · rwa [pairAt, pairAt, show 2 * (i / 2) + 1 = i by omega] at hodd

/-- R205: the permutation undoes itself. -/
theorem bitrevList_bitrevList {F : Type} (z : F) {n : Nat} (hn : n = 2 ^ Nat.log2 n) {x : List F}
    (hx : x.length = 2 * n) : bitrevList z n (bitrevList z n x) = x := by
  have hlen : (bitrevList z n x).length = 2 * n := (length_bitrevList ..).trans hx
  refine eq_of_pairAt_eq z ((length_bitrevList ..).trans hlen) hx fun p hp => ?_
  rw [pairAt_bitrevList z hn hlen.ge hp,
    pairAt_bitrevList z hn hx.ge (lt_of_lt_of_eq (reverseBits_lt _ p) hn.symm),
    reverseBits_reverseBits _ p (lt_of_lt_of_eq hp hn)]

/-- Settles O25: the buffer holds the permuted list, whose sample at `p` is the old one at
`rev_n(p)`. -/
theorem bitrevPermutesByReversal : Obligations.BitrevPermutesByReversal := by
  intro s d n hidle hd hn
  obtain rfl : n = permutedLen s.cfg d := hn
  refine ⟨_, exec_bitrev_of_idle hidle hd, onlyScalarsWritten_setScalars .., fun p hp => ?_⟩
  have hlen := bufLen_of_permutable hd s.cfg
  have hrev := lt_of_lt_of_eq (reverseBits_lt _ p) (permutedLen_pow s.cfg d).symm
  have hpair := pairAt_bitrevList 0 (permutedLen_pow s.cfg d)
    (x := bufToList (bufLen s.cfg d) (scalarsOf s d)) (by simp [hlen]) hp
  simp only [pairAt, Prod.mk.injEq, getD_bufToList] at hpair
  rw [if_pos (by omega), if_pos (by omega)] at hpair
  simpa only [scalarsOf_setScalars s hd, bufRead_bufOfList] using hpair

/-- Settles O26: the second reversal writes back the list the first one read. -/
theorem bitrevTwiceRestoresTheBuffer : Obligations.BitrevTwiceRestoresTheBuffer := by
  intro s d hidle hwf hd
  refine ⟨_, exec_bitrev_of_idle hidle hd, ?_⟩
  have hread : ∀ l : List Scalar, l.length = bufLen s.cfg d →
      bufToList (bufLen s.cfg d) (bufOfList l) = l := fun l hl => hl ▸ bufToList_bufOfList
  rw [exec_bitrev_of_idle ((cstate_setScalars ..).trans hidle) hd, setScalars_cfg,
    scalarsOf_setScalars s hd, hread _ (by simp),
    bitrevList_bitrevList 0 (permutedLen_pow s.cfg d) (by simp [bufLen_of_permutable hd]),
    bufOfList_bufToList (wf_scalarsOf hwf hd), setScalars_setScalars, setScalars_scalarsOf]

end Sys2Proof.Machine
end

section
/-!
PROOFS. The stages of `FFT` and `IFFT` (R210 to R212, R220 to R222): the outer loop unrolled at its
last pass, and each stage as the butterflies of the spec.
-/

namespace Sys2Proof.Machine

open Sys2Proof

variable {F : Type}

/-! ### The outer loops, last pass last -/

theorem stagesDit_two_mul (nu : Num F) (w : List F) (q ie : Nat) {m : Nat} (hm : 0 < m)
    (x : List F) : stagesDit nu w (q + 1) (2 * m) ie x =
      stagesDit nu w q m (2 * ie) (stageDit nu w m ie x) := by
  simp [stagesDit, show 1 < 2 * m by omega]

theorem stagesDif_two_mul (nu : Num F) (w : List F) (q n2 : Nat) {m : Nat} (hm : 0 < m)
    (x : List F) : stagesDif nu w (q + 1) n2 (2 * m) x =
      stagesDif nu w q (2 * n2) m (stageDif nu w n2 m x) := by
  simp [stagesDif, show 1 < 2 * m by omega]

/-- One more pass of the loop of R210 is a stage with half the distance and twice the blocks. -/
theorem stagesDit_succ (nu : Num F) (w : List F) (q ie : Nat) {m : Nat} (hm : 0 < m)
    (x : List F) :
    stagesDit nu w (q + 1) (2 ^ (q + 1) * m) ie x =
      stageDit nu w m (2 ^ q * ie) (stagesDit nu w q (2 ^ (q + 1) * m) ie x) := by
  induction q generalizing ie x with
  | zero => simpa [stagesDit] using stagesDit_two_mul nu w 0 ie hm x
  | succ q ih =>
    have hpos : 0 < 2 ^ (q + 1) * m := by positivity
    rw [show 2 ^ (q + 1 + 1) * m = 2 * (2 ^ (q + 1) * m) by ring,
      stagesDit_two_mul nu w (q + 1) ie hpos, ih, stagesDit_two_mul nu w q ie hpos,
      show 2 ^ (q + 1) * ie = 2 ^ q * (2 * ie) by ring]

/-- One more pass of the loop of R220 is a stage with twice the distance and half the blocks. -/
theorem stagesDif_succ (nu : Num F) (w : List F) (q n2 : Nat) {m : Nat} (hm : 0 < m)
    (x : List F) :
    stagesDif nu w (q + 1) n2 (2 ^ (q + 1) * m) x =
      stageDif nu w (2 ^ q * n2) m (stagesDif nu w q n2 (2 ^ (q + 1) * m) x) := by
  induction q generalizing n2 x with
  | zero => simpa [stagesDif] using stagesDif_two_mul nu w 0 n2 hm x
  | succ q ih =>
    have hpos : 0 < 2 ^ (q + 1) * m := by positivity
    rw [show 2 ^ (q + 1 + 1) * m = 2 * (2 ^ (q + 1) * m) by ring,
      stagesDif_two_mul nu w (q + 1) n2 hpos, ih, stagesDif_two_mul nu w q n2 hpos,
      show 2 ^ (q + 1) * n2 = 2 ^ q * (2 * n2) by ring]

/-- The stages of the forward transform of `2^(q+1) · 2^r` points. -/
theorem stagesDit_two_pow (nu : Num F) (w : List F) (q r : Nat) (x : List F) :
    stagesDit nu w (q + 1) (2 ^ (q + 1 + r)) 1 x =
      stageDit nu w (2 ^ r) (2 ^ q) (stagesDit nu w q (2 ^ (q + 1 + r)) 1 x) := by
  rw [pow_add, stagesDit_succ nu w q 1 (by positivity), mul_one]

/-- The stages of the inverse transform of `2^(q+1) · 2^r` points. -/
theorem stagesDif_two_pow (nu : Num F) (w : List F) (q r : Nat) (x : List F) :
    stagesDif nu w (q + 1) 1 (2 ^ (q + 1 + r)) x =
      stageDif nu w (2 ^ q) (2 ^ r) (stagesDif nu w q 1 (2 ^ (q + 1 + r)) x) := by
  rw [pow_add, stagesDif_succ nu w q 1 (by positivity), mul_one]

theorem fftList_two_pow (nu : Num F) (k : Nat) (w x : List F) :
    fftList nu (2 ^ k) w x = stagesDit nu w k (2 ^ k) 1 x := by rw [fftList, Nat.log2_two_pow]

theorem ifftList_two_pow (nu : Num F) (k : Nat) (w x : List F) :
    ifftList nu (2 ^ k) w x = stagesDif nu w k 1 (2 ^ k) x := by rw [ifftList, Nat.log2_two_pow]

/-! ### One stage as R211 and R221 state it -/

/-- R211, R212: what a forward stage does to the pair of samples of one butterfly. -/
theorem pairAt_stageDit (nu : Num F) (w : List F) {n2 ie : Nat} {x : List F}
    (hx : 2 * (2 * n2 * ie) ≤ x.length) {j i : Nat} (hj : j < ie) (hi : i < n2) :
    pairAt nu.fzero (stageDit nu w n2 ie x) (2 * n2 * j + i) =
      ditLo nu (pairAt nu.fzero x (2 * n2 * j + i)) (pairAt nu.fzero x (2 * n2 * j + i + n2))
        (w.getD (2 * j) nu.fzero) (w.getD (2 * j + 1) nu.fzero) ∧
    pairAt nu.fzero (stageDit nu w n2 ie x) (2 * n2 * j + i + n2) =
      ditHi nu (pairAt nu.fzero x (2 * n2 * j + i)) (pairAt nu.fzero x (2 * n2 * j + i + n2))
        (w.getD (2 * j) nu.fzero) (w.getD (2 * j + 1) nu.fzero) :=
  (stageWith_spec (isButterfly_dit nu) w n2 ie x hx).2.1 j hj i hi

/-- R221, R222: what an inverse stage does to the pair of samples of one butterfly. -/
theorem pairAt_stageDif (nu : Num F) (w : List F) {n2 ie : Nat} {x : List F}
    (hx : 2 * (2 * n2 * ie) ≤ x.length) {j i : Nat} (hj : j < ie) (hi : i < n2) :
    pairAt nu.fzero (stageDif nu w n2 ie x) (2 * n2 * j + i) =
      difLo nu (pairAt nu.fzero x (2 * n2 * j + i)) (pairAt nu.fzero x (2 * n2 * j + i + n2))
        (w.getD (2 * j) nu.fzero) (w.getD (2 * j + 1) nu.fzero) ∧
    pairAt nu.fzero (stageDif nu w n2 ie x) (2 * n2 * j + i + n2) =
      difHi nu (pairAt nu.fzero x (2 * n2 * j + i)) (pairAt nu.fzero x (2 * n2 * j + i + n2))
        (w.getD (2 * j) nu.fzero) (w.getD (2 * j + 1) nu.fzero) :=
  (stageWith_spec (isButterfly_dif nu) w n2 ie x hx).2.1 j hj i hi

theorem forwardStage_stageDit {nu : Num Scalar} (hz : nu.fzero = 0) (w : List Scalar) {n2 ie : Nat}
    {x : List Scalar} (hx : 2 * (2 * n2 * ie) ≤ x.length) :
    ForwardStage nu w n2 ie x (stageDit nu w n2 ie x) := by
  refine ⟨length_stageDit .., ?_⟩
  rintro j hj i hi _ _ rfl rfl _ _ _ _ rfl rfl rfl rfl
  have hpair := pairAt_stageDit nu w hx hj hi
  simp only [hz, pairAt, ditLo, ditHi, Prod.mk.injEq] at hpair
  obtain ⟨⟨hloR, hloI⟩, hhiR, hhiI⟩ := hpair
  exact ⟨hhiR, hhiI, hloR, hloI⟩

theorem inverseStage_stageDif {nu : Num Scalar} (hz : nu.fzero = 0) (w : List Scalar) {n2 ie : Nat}
    {x : List Scalar} (hx : 2 * (2 * n2 * ie) ≤ x.length) :
    InverseStage nu w n2 ie x (stageDif nu w n2 ie x) := by
  refine ⟨length_stageDif .., ?_⟩
  rintro j hj i hi _ _ rfl rfl _ _ _ _ rfl rfl rfl rfl
  have hpair := pairAt_stageDif nu w hx hj hi
  simp only [hz, pairAt, difLo, difHi, Prod.mk.injEq, and_assoc] at hpair
  exact hpair

/-! ### The commands -/

theorem isPermutable_of_isSpectrum {d : BufId} (h : d.isSpectrum = true) :
    d.isPermutable = true := by
  cases d with
  | ssp | rsp | xsp => rfl
  | probe | capture | mono | tw => cases h

/-- `FFT` as one update (R210, R215). -/
theorem exec_fft_of_idle {s : State} (hidle : cstate s = .idle) {d : BufId}
    (h : d.isSpectrum = true) :
    exec (.fft d) s = .next (setScalars s d (bufOfList (fftList s.cfg.ops s.cfg.n
      (bufToList s.cfg.n s.tw) (bufToList s.cfg.fftLen (scalarsOf s d))))) := by
  rw [exec_of_idle (i := .fft d) h hidle]
  cases d with
  | ssp | rsp | xsp => rfl
  | probe | capture | mono | tw => cases h

/-- `IFFT` as one update (R215, R220). -/
theorem exec_ifft_of_idle {s : State} (hidle : cstate s = .idle) {d : BufId}
    (h : d.isSpectrum = true) :
    exec (.ifft d) s = .next (setScalars s d (bufOfList (ifftList s.cfg.ops s.cfg.n
      (bufToList s.cfg.n s.tw) (bufToList s.cfg.fftLen (scalarsOf s d))))) := by
  rw [exec_of_idle (i := .ifft d) h hidle]
  cases d with
  | ssp | rsp | xsp => rfl
  | probe | capture | mono | tw => cases h

theorem n_pow (c : Config) : c.n = 2 ^ Nat.log2 c.n := permutedLen_pow c .ssp

/-- A spectrum buffer written with a list of its length holds that list. -/
theorem bufToList_scalarsOf_setScalars (s : State) {d : BufId} (h : d.isSpectrum = true)
    {l : List Scalar} (hl : l.length = s.cfg.fftLen) :
    bufToList s.cfg.fftLen (scalarsOf (setScalars s d (bufOfList l)) d) = l := by
  rw [scalarsOf_setScalars s (isPermutable_of_isSpectrum h), ← hl, bufToList_bufOfList]

/-- Settles O27: the sequence of buffers is that of the outer loop's passes. -/
theorem fftRunsTheButterflyStages : Obligations.FftRunsTheButterflyStages := by
  intro s d hidle hd
  refine ⟨_, fun q => stagesDit s.cfg.ops (bufToList s.cfg.n s.tw) q s.cfg.n 1
    (bufToList s.cfg.fftLen (scalarsOf s d)), exec_fft_of_idle hidle hd,
    onlyScalarsWritten_setScalars .., rfl, fun q hq => ?_,
    bufToList_scalarsOf_setScalars s hd (by simp)⟩
  obtain ⟨r, hr⟩ := Nat.exists_eq_add_of_le (Nat.succ_le_of_lt hq)
  have hn : s.cfg.n = 2 ^ (q + 1 + r) := (n_pow s.cfg).trans (by rw [hr])
  have hlen : 2 * (2 * 2 ^ r * 2 ^ q) = s.cfg.fftLen := by rw [← s.cfg.two_mul_n, hn]; ring
  have hhalf : s.cfg.n / 2 ^ (q + 1) = 2 ^ r := by rw [hn, pow_add]; simp
  simp only [hhalf]
  rw [hn, stagesDit_two_pow]
  exact forwardStage_stageDit s.cfg.ops_fzero _ (by simp [hlen])

/-- Settles O28: the sequence of buffers is that of the outer loop's passes. -/
theorem ifftRunsTheButterflyStages : Obligations.IfftRunsTheButterflyStages := by
  intro s d hidle hd
  refine ⟨_, fun q => stagesDif s.cfg.ops (bufToList s.cfg.n s.tw) q 1 s.cfg.n
    (bufToList s.cfg.fftLen (scalarsOf s d)), exec_ifft_of_idle hidle hd,
    onlyScalarsWritten_setScalars .., rfl, fun q hq => ?_,
    bufToList_scalarsOf_setScalars s hd (by simp)⟩
  obtain ⟨r, hr⟩ := Nat.exists_eq_add_of_le (Nat.succ_le_of_lt hq)
  have hn : s.cfg.n = 2 ^ (q + 1 + r) := (n_pow s.cfg).trans (by rw [hr])
  have hlen : 2 * (2 * 2 ^ q * 2 ^ r) = s.cfg.fftLen := by rw [← s.cfg.two_mul_n, hn]; ring
  have hhalf : s.cfg.n / 2 ^ (q + 1) = 2 ^ r := by rw [hn, pow_add]; simp
  simp only [hhalf]
  rw [hn, stagesDif_two_pow]
  exact inverseStage_stageDif s.cfg.ops_fzero _ (by simp [hlen])

end Sys2Proof.Machine
end

section
/-!
PROOFS. The transforms over an exact ring: each stage is linear (R214), and an inverse stage undoes
the forward stage with the same blocks but for the factor 2 (R223).
-/

namespace Sys2Proof.Machine

open Sys2Proof

variable {R : Type} [CommRing R]

/-! ### Linear combinations of sequences -/

/-- `a·x + b·y`, scalar by scalar. -/
def linComb (a b : R) (x y : List R) : List R := List.zipWith (fun u v => a * u + b * v) x y

theorem add_eq_linComb (x y : List R) :
    List.zipWith (fun u v => u + v) x y = linComb 1 1 x y := by simp [linComb]

theorem map_mul_eq_linComb (a : R) (x : List R) :
    (x.map fun v => a * v) = linComb a 0 x x := by simp [linComb, List.zipWith_self]

theorem length_linComb (a b : R) {x y : List R} (h : x.length = y.length) :
    (linComb a b x y).length = x.length := by simp [linComb, h]

theorem getD_linComb (a b : R) {x y : List R} (h : x.length = y.length) (i : Nat) :
    (linComb a b x y).getD i 0 = a * x.getD i 0 + b * y.getD i 0 := by
  by_cases hi : i < x.length
  · simp [linComb, List.getD, hi, h ▸ hi]
  · simp [linComb, List.getD, hi, h ▸ hi]

theorem pairAt_linComb (a b : R) {x y : List R} (h : x.length = y.length) (p : Nat) :
    pairAt 0 (linComb a b x y) p = a • pairAt 0 x p + b • pairAt 0 y p :=
  Prod.ext (getD_linComb a b h _) (getD_linComb a b h _)

/-! ### One stage -/

/-- The butterflies of a stage reach every sample. -/
theorem eq_of_stage_pairs {F : Type} (z : F) {n2 ie : Nat} {x y : List F}
    (hx : x.length = 2 * (2 * n2 * ie)) (hy : y.length = 2 * (2 * n2 * ie))
    (h : ∀ j < ie, ∀ i < n2, pairAt z x (2 * n2 * j + i) = pairAt z y (2 * n2 * j + i) ∧
      pairAt z x (2 * n2 * j + i + n2) = pairAt z y (2 * n2 * j + i + n2)) : x = y := by
  refine eq_of_pairAt_eq z hx hy fun p hp => ?_
  have hj : p / (2 * n2) < ie := Nat.div_lt_of_lt_mul hp
  have hi : p % (2 * n2) < 2 * n2 :=
    Nat.mod_lt _ (Nat.pos_of_mul_pos_right (by omega : 0 < 2 * n2 * ie))
  have hdm : 2 * n2 * (p / (2 * n2)) + p % (2 * n2) = p := Nat.div_add_mod p (2 * n2)
  obtain hlow | hhigh := Nat.lt_or_ge (p % (2 * n2)) n2
  · rw [← hdm]
    exact (h _ hj _ hlow).1
  · have := (h _ hj (p % (2 * n2) - n2) (by omega)).2
    rwa [show 2 * n2 * (p / (2 * n2)) + (p % (2 * n2) - n2) + n2 = p by omega] at this

/-- A butterfly is linear in its two samples. -/
def IsLinearOnPairs (f : R × R → R × R → R → R → R × R) : Prop :=
  ∀ (a b : R) (p q p' q' : R × R) (c s : R),
    f (a • p + b • p') (a • q + b • q') c s = a • f p q c s + b • f p' q' c s

variable {nu : Num R}

theorem isLinearOnPairs_dit (h : ExactNum nu) :
    IsLinearOnPairs (ditLo nu) ∧ IsLinearOnPairs (ditHi nu) := by
  constructor <;> intro a b p q p' q' c s <;>
    ext <;> simp [ditLo, ditHi, h.add, h.sub, h.mul] <;> ring

theorem isLinearOnPairs_dif (h : ExactNum nu) :
    IsLinearOnPairs (difLo nu) ∧ IsLinearOnPairs (difHi nu) := by
  constructor <;> intro a b p q p' q' c s <;>
    ext <;> simp [difLo, difHi, h.add, h.sub, h.mul] <;> ring

/-- A stage of linear butterflies is linear. -/
theorem stageWith_linComb {bf : List R → Nat → Nat → R → R → List R}
    {lo hi : R × R → R × R → R → R → R × R} (hb : IsButterfly 0 bf lo hi)
    (hlin : IsLinearOnPairs lo ∧ IsLinearOnPairs hi) (w : List R) {n2 ie : Nat} (a b : R)
    {x y : List R} (hx : x.length = 2 * (2 * n2 * ie)) (hy : y.length = 2 * (2 * n2 * ie)) :
    stageWith 0 bf w n2 ie (linComb a b x y) =
      linComb a b (stageWith 0 bf w n2 ie x) (stageWith 0 bf w n2 ie y) := by
  have hxy := hx.trans hy.symm
  have hlen := length_linComb a b hxy
  obtain ⟨hlx, hpx, -⟩ := stageWith_spec hb w n2 ie x hx.ge
  obtain ⟨hly, hpy, -⟩ := stageWith_spec hb w n2 ie y hy.ge
  obtain ⟨hlc, hpc, -⟩ := stageWith_spec hb w n2 ie (linComb a b x y) (hlen.trans hx).ge
  have hsame := hlx.trans (hxy.trans hly.symm)
  refine eq_of_stage_pairs 0 (hlc.trans (hlen.trans hx))
    ((length_linComb a b hsame).trans (hlx.trans hx)) fun j hj i hi => ⟨?_, ?_⟩
  · rw [(hpc j hj i hi).1, pairAt_linComb a b hsame, (hpx j hj i hi).1, (hpy j hj i hi).1,
      pairAt_linComb a b hxy, pairAt_linComb a b hxy, hlin.1]
  · rw [(hpc j hj i hi).2, pairAt_linComb a b hsame, (hpx j hj i hi).2, (hpy j hj i hi).2,
      pairAt_linComb a b hxy, pairAt_linComb a b hxy, hlin.2]

theorem stageDit_linComb (h : ExactNum nu) (w : List R) {n2 ie : Nat} (a b : R) {x y : List R}
    (hx : x.length = 2 * (2 * n2 * ie)) (hy : y.length = 2 * (2 * n2 * ie)) :
    stageDit nu w n2 ie (linComb a b x y) =
      linComb a b (stageDit nu w n2 ie x) (stageDit nu w n2 ie y) := by
  rw [stageDit_eq, h.zero]
  exact stageWith_linComb (h.zero ▸ isButterfly_dit nu) (isLinearOnPairs_dit h) w a b hx hy

theorem stageDif_map_mul (h : ExactNum nu) (w : List R) {n2 ie : Nat} (a : R) {x : List R}
    (hx : x.length = 2 * (2 * n2 * ie)) :
    stageDif nu w n2 ie (x.map fun v => a * v) = (stageDif nu w n2 ie x).map fun v => a * v := by
  rw [map_mul_eq_linComb, map_mul_eq_linComb, stageDif_eq, h.zero]
  exact stageWith_linComb (h.zero ▸ isButterfly_dif nu) (isLinearOnPairs_dif h) w a 0 hx hx

/-- The inverse butterfly takes the two samples of a forward one back to twice what they were, when
the twiddle lies on the unit circle. -/
theorem dif_dit (h : ExactNum nu) (p q : R × R) {c s : R} (hcs : c * c + s * s = 1) :
    difLo nu (ditLo nu p q c s) (ditHi nu p q c s) c s = (2 : R) • p ∧
    difHi nu (ditLo nu p q c s) (ditHi nu p q c s) c s = (2 : R) • q := by
  simp only [difLo, difHi, ditLo, ditHi, h.add, h.sub, h.mul, Prod.ext_iff, Prod.smul_fst,
    Prod.smul_snd, smul_eq_mul]
  refine ⟨⟨by ring, by ring⟩, ?_, ?_⟩
  · linear_combination 2 * q.1 * hcs
  · linear_combination 2 * q.2 * hcs

theorem stageDif_stageDit (h : ExactNum nu) {w : List R} {n2 ie : Nat}
    (hw : ∀ j < ie, w.getD (2 * j) 0 * w.getD (2 * j) 0 +
      w.getD (2 * j + 1) 0 * w.getD (2 * j + 1) 0 = 1)
    {x : List R} (hx : x.length = 2 * (2 * n2 * ie)) :
    stageDif nu w n2 ie (stageDit nu w n2 ie x) = x.map fun v => 2 * v := by
  have hlen : (stageDit nu w n2 ie x).length = 2 * (2 * n2 * ie) := (length_stageDit ..).trans hx
  refine eq_of_stage_pairs 0 ((length_stageDif ..).trans hlen) (by simp [hx]) fun j hj i hi => ?_
  have hdit := pairAt_stageDit nu w hx.ge hj hi
  have hdif := pairAt_stageDif nu w hlen.ge hj hi
  rw [hdit.1, hdit.2, h.zero] at hdif
  rw [map_mul_eq_linComb, pairAt_linComb _ _ rfl, pairAt_linComb _ _ rfl]
  obtain ⟨hlo, hhi⟩ := dif_dit h (pairAt 0 x (2 * n2 * j + i)) (pairAt 0 x (2 * n2 * j + i + n2))
    (hw j hj)
  simpa only [hlo, hhi, zero_smul, add_zero] using hdif

/-! ### All stages -/

theorem stagesDit_linComb (h : ExactNum nu) (w : List R) (a b : R) (q ie : Nat) {x y : List R}
    (hx : x.length = 2 * (2 ^ q * ie)) (hy : y.length = 2 * (2 ^ q * ie)) :
    stagesDit nu w q (2 ^ q) ie (linComb a b x y) =
      linComb a b (stagesDit nu w q (2 ^ q) ie x) (stagesDit nu w q (2 ^ q) ie y) := by
  induction q generalizing ie x y with
  | zero => rfl
  | succ q ih =>
    have hstage : 2 * 2 ^ q * ie = 2 ^ (q + 1) * ie := by ring
    have hrest : 2 ^ q * (2 * ie) = 2 ^ (q + 1) * ie := by ring
    rw [pow_succ', stagesDit_two_mul nu w q ie (by positivity),
      stagesDit_two_mul nu w q ie (by positivity), stagesDit_two_mul nu w q ie (by positivity),
      stageDit_linComb h w a b (hstage ▸ hx) (hstage ▸ hy),
      ih (2 * ie) (by simp [hx, hrest]) (by simp [hy, hrest])]

theorem fftList_linComb (h : ExactNum nu) (w : List R) (a b : R) {k : Nat} {x y : List R}
    (hx : x.length = 2 * 2 ^ k) (hy : y.length = 2 * 2 ^ k) :
    fftList nu (2 ^ k) w (linComb a b x y) =
      linComb a b (fftList nu (2 ^ k) w x) (fftList nu (2 ^ k) w y) := by
  simp only [fftList_two_pow]
  exact stagesDit_linComb h w a b k 1 (by rw [hx, mul_one]) (by rw [hy, mul_one])

/-- Settles O30: the sum and the multiple are linear combinations, which every stage keeps. -/
theorem fftIsLinear : Obligations.FftIsLinear := by
  intro R _ nu k w x y a h hx hy
  rw [add_eq_linComb, add_eq_linComb, map_mul_eq_linComb, map_mul_eq_linComb]
  exact ⟨fftList_linComb h w 1 1 hx hy, fftList_linComb h w a 0 hx hx⟩

/-- The last inverse stage undoes the first forward stage, around what the others do. -/
theorem stagesDif_stagesDit (h : ExactNum nu) {w : List R} (q : Nat) {ie : Nat} (hie : 0 < ie)
    (hw : ∀ j < 2 ^ q * ie / 2, w.getD (2 * j) 0 * w.getD (2 * j) 0 +
      w.getD (2 * j + 1) 0 * w.getD (2 * j + 1) 0 = 1)
    {x : List R} (hx : x.length = 2 * (2 ^ q * ie)) :
    stagesDif nu w q 1 (2 ^ q * ie) (stagesDit nu w q (2 ^ q) ie x) =
      x.map fun v => 2 ^ q * v := by
  induction q generalizing ie x with
  | zero => simp [stagesDif, stagesDit]
  | succ q ih =>
    have hstage : 2 * 2 ^ q * ie = 2 ^ (q + 1) * ie := by ring
    have hrest : 2 ^ (q + 1) * ie = 2 ^ q * (2 * ie) := by ring
    have hle : ie ≤ 2 ^ (q + 1) * ie / 2 := by
      have := Nat.le_mul_of_pos_left ie (Nat.two_pow_pos q)
      rw [← hstage, mul_assoc]
      omega
    have hundo := stageDif_stageDit h (fun j hj => hw j (hj.trans_le hle)) (hstage ▸ hx)
    rw [stagesDif_succ nu w q 1 hie, pow_succ', stagesDit_two_mul nu w q ie (by positivity),
      ← pow_succ', hrest, ih (by omega) (hrest ▸ hw) (by simp [hx, hrest]), mul_one,
      stageDif_map_mul h w _ (by simp [hx, hstage]), hundo, List.map_map]
    congr 1
    ext v
    simp only [Function.comp]
    ring

/-- Settles O32: each inverse stage undoes its forward stage but for a factor 2. -/
theorem ifftAfterFftIsNTimes : Obligations.IfftAfterFftIsNTimes := by
  intro R _ nu k w x h hw hx
  rw [fftList_two_pow, ifftList_two_pow]
  simpa using stagesDif_stagesDit h k one_pos (by simpa using hw) (by simpa using hx)

end Sys2Proof.Machine
end

section
/-!
PROOFS. Over the reals the forward transform computes the discrete Fourier transform in bit-reversed
order (R213), and the inverse one its unscaled inverse (R223). After `q` forward stages each of the
`2^q` blocks holds the samples, read as a polynomial, modulo `z^m - ω` for one of the `2^q`-th roots
of unity `ω`; after `q` inverse stages each block of `2^q` samples holds the sums of its spectrum
values, each times the powers of its root.
-/

namespace Sys2Proof.Machine

open Sys2Proof

open scoped ComplexConjugate

/-! ### Roots of unity in bit-reversed order -/

/-- The reversal of two groups of digits is their reversals, exchanged. -/
theorem reverseBits_add (a b j u : Nat) (hu : u < 2 ^ a) :
    reverseBits (a + b) (2 ^ a * j + u) = 2 ^ b * reverseBits a u + reverseBits b j := by
  induction a generalizing u with
  | zero => simp [reverseBits, show u = 0 by omega]
  | succ a ih =>
    have hp : 2 ^ (a + 1) * j + u = 2 * (2 ^ a * j) + u := by ring
    have hmod : (2 ^ (a + 1) * j + u) % 2 = u % 2 := by omega
    have hdiv : (2 ^ (a + 1) * j + u) / 2 = 2 ^ a * j + u / 2 := by omega
    rw [Nat.succ_add, reverseBits, reverseBits, hmod, hdiv, ih _ (by rw [pow_succ] at hu; omega)]
    ring

/-- The `2^q`-th root of unity that belongs to position `j` in bit-reversed order. -/
noncomputable def unitRoot (q j : Nat) : ℂ :=
  Complex.exp (2 * Real.pi * Complex.I * reverseBits q j / 2 ^ q)

theorem unitRoot_pow (q j i : Nat) :
    unitRoot q j ^ i = Complex.exp (2 * Real.pi * Complex.I * reverseBits q j * i / 2 ^ q) := by
  rw [unitRoot, ← Complex.exp_nat_mul]
  ring_nf

theorem conj_unitRoot_pow (q j i : Nat) : conj (unitRoot q j) ^ i =
    Complex.exp (-2 * Real.pi * Complex.I * reverseBits q j * i / 2 ^ q) := by
  rw [← map_pow, unitRoot_pow, ← Complex.exp_conj]
  simp [Complex.conj_ofNat]

/-- The square of the root of the first of two halves is the root of the whole. -/
theorem unitRoot_even_sq (q j : Nat) : unitRoot (q + 1) (2 * j) ^ 2 = unitRoot q j := by
  have hrev : reverseBits (q + 1) (2 * j) = reverseBits q j := by simp [reverseBits]
  rw [unitRoot_pow, unitRoot, hrev, pow_succ]
  congr 1
  push_cast
  field_simp

/-- The two halves have opposite roots. -/
theorem unitRoot_odd (q j : Nat) : unitRoot (q + 1) (2 * j + 1) = -unitRoot (q + 1) (2 * j) := by
  have hrev : reverseBits (q + 1) (2 * j + 1) = 2 ^ q + reverseBits (q + 1) (2 * j) := by
    simp [reverseBits, Nat.mul_add_div]
  rw [unitRoot, unitRoot, hrev, ← mul_neg_one, ← Complex.exp_pi_mul_I, ← Complex.exp_add, pow_succ]
  congr 1
  push_cast
  field_simp
  ring

/-- Within a block of `2^a` positions every root has the same `2^a`-th power. -/
theorem unitRoot_add_pow (a b j u : Nat) (hu : u < 2 ^ a) :
    unitRoot (a + b) (2 ^ a * j + u) ^ 2 ^ a = unitRoot b j := by
  rw [unitRoot_pow, reverseBits_add a b j u hu, unitRoot, Complex.exp_eq_exp_iff_exists_int]
  refine ⟨reverseBits a u, ?_⟩
  rw [pow_add]
  push_cast
  field_simp
  ring

/-! ### The table and the butterflies as complex numbers -/

/-- Entry `j` of the bit-reversed table is the root of the first half of every block `j` (R202). -/
theorem complexSample_table {k : Nat} {w : List ℝ} (hw : IsBitReversedTable k w) {q j : Nat}
    (hq : q ≤ k) (hj : j < 2 ^ q) : complexSample w j = unitRoot (q + 1) (2 * j) := by
  obtain ⟨hcos, hsin⟩ := hw.2 j (hj.trans_le (Nat.pow_le_pow_right two_pos hq))
  obtain ⟨r, rfl⟩ := Nat.exists_eq_add_of_le hq
  have hrev : reverseBits (q + r) j = 2 ^ r * reverseBits q j := by
    simpa [reverseBits_zero] using reverseBits_add q r 0 j hj
  have hrev' : reverseBits (q + 1) (2 * j) = reverseBits q j := by simp [reverseBits]
  rw [complexSample, hcos, hsin, Complex.ofReal_cos, Complex.ofReal_sin, ← Complex.exp_mul_I,
    unitRoot, hrev, hrev', pow_succ, pow_succ, pow_add]
  congr 1
  push_cast
  field_simp

/-- A pair of scalars as a complex number (R19). -/
noncomputable def pairComplex (p : ℝ × ℝ) : ℂ := p.1 + p.2 * Complex.I

theorem complexSample_eq (x : List ℝ) (p : Nat) :
    complexSample x p = pairComplex (pairAt 0 x p) := rfl

section Butterflies

variable {nu : Num ℝ} (h : ExactNum nu) (p q : ℝ × ℝ) (c s : ℝ)

include h

theorem pairComplex_ditLo : pairComplex (ditLo nu p q c s) =
    pairComplex p + conj (pairComplex (c, s)) * pairComplex q := by
  refine Complex.ext ?_ ?_ <;> simp [pairComplex, ditLo, h.add, h.sub, h.mul]
  ring

theorem pairComplex_ditHi : pairComplex (ditHi nu p q c s) =
    pairComplex p - conj (pairComplex (c, s)) * pairComplex q := by
  refine Complex.ext ?_ ?_ <;> simp [pairComplex, ditHi, h.add, h.sub, h.mul]
  ring

theorem pairComplex_difLo : pairComplex (difLo nu p q c s) = pairComplex p + pairComplex q := by
  refine Complex.ext ?_ ?_ <;> simp [pairComplex, difLo, h.add]

theorem pairComplex_difHi : pairComplex (difHi nu p q c s) =
    pairComplex (c, s) * (pairComplex p - pairComplex q) := by
  refine Complex.ext ?_ ?_ <;> simp [pairComplex, difHi, h.add, h.sub, h.mul]

end Butterflies

section Stages

variable {nu : Num ℝ} (h : ExactNum nu) {k : Nat} {w : List ℝ} (hw : IsBitReversedTable k w)
  {q r : Nat} {x : List ℝ}

include h hw

/-- A forward stage gives the first half of a block the root `ω` of the table and the second half
its opposite (R211). -/
theorem complexSample_stageDit (hq : q ≤ k) (hx : x.length = 2 * 2 ^ (q + 1 + r)) {j i b : Nat}
    (hj : j < 2 ^ q) (hi : i < 2 ^ r) (hb : b < 2) :
    complexSample (stageDit nu w (2 ^ r) (2 ^ q) x) (2 ^ r * (2 * j + b) + i) =
      complexSample x (2 ^ (r + 1) * j + i) +
        conj (unitRoot (q + 1) (2 * j + b)) * complexSample x (2 ^ (r + 1) * j + (2 ^ r + i)) := by
  have hlen : 2 * (2 * 2 ^ r * 2 ^ q) ≤ x.length := le_of_eq (by rw [hx]; ring)
  obtain ⟨hlo, hhi⟩ := pairAt_stageDit nu w hlen hj hi
  have htable : pairComplex (w.getD (2 * j) 0, w.getD (2 * j + 1) 0) =
      unitRoot (q + 1) (2 * j) := complexSample_table hw hq hj
  rw [h.zero] at hlo hhi
  have hia : 2 ^ (r + 1) * j + i = 2 * 2 ^ r * j + i := by ring
  have him : 2 ^ (r + 1) * j + (2 ^ r + i) = 2 * 2 ^ r * j + i + 2 ^ r := by ring
  simp only [complexSample_eq, hia, him]
  obtain rfl | rfl : b = 0 ∨ b = 1 := by omega
  · rw [show 2 ^ r * (2 * j + 0) + i = 2 * 2 ^ r * j + i by ring, hlo, pairComplex_ditLo h,
      add_zero, ← htable]
  · rw [show 2 ^ r * (2 * j + 1) + i = 2 * 2 ^ r * j + i + 2 ^ r by ring, hhi, pairComplex_ditHi h,
      unitRoot_odd, ← htable, map_neg, neg_mul, sub_eq_add_neg]

/-- An inverse stage adds the halves of a block, and their difference times the root (R221). -/
theorem complexSample_stageDif (hr : r ≤ k) (hx : x.length = 2 * 2 ^ (q + 1 + r)) {j i : Nat}
    (hj : j < 2 ^ r) (hi : i < 2 ^ q) :
    complexSample (stageDif nu w (2 ^ q) (2 ^ r) x) (2 ^ (q + 1) * j + i) =
      complexSample x (2 ^ q * (2 * j) + i) + complexSample x (2 ^ q * (2 * j + 1) + i) ∧
    complexSample (stageDif nu w (2 ^ q) (2 ^ r) x) (2 ^ (q + 1) * j + (2 ^ q + i)) =
      unitRoot (r + 1) (2 * j) *
        (complexSample x (2 ^ q * (2 * j) + i) - complexSample x (2 ^ q * (2 * j + 1) + i)) := by
  have hlen : 2 * (2 * 2 ^ q * 2 ^ r) ≤ x.length := le_of_eq (by rw [hx]; ring)
  obtain ⟨hlo, hhi⟩ := pairAt_stageDif nu w hlen hj hi
  have htable : pairComplex (w.getD (2 * j) 0, w.getD (2 * j + 1) 0) =
      unitRoot (r + 1) (2 * j) := complexSample_table hw hr hj
  rw [h.zero] at hlo hhi
  have hia : 2 ^ (q + 1) * j + i = 2 * 2 ^ q * j + i := by ring
  have him : 2 ^ (q + 1) * j + (2 ^ q + i) = 2 * 2 ^ q * j + i + 2 ^ q := by ring
  have hia' : 2 ^ q * (2 * j) + i = 2 * 2 ^ q * j + i := by ring
  have him' : 2 ^ q * (2 * j + 1) + i = 2 * 2 ^ q * j + i + 2 ^ q := by ring
  simp only [complexSample_eq, hia, him, hia', him', hlo, hhi]
  exact ⟨pairComplex_difLo h .., by rw [pairComplex_difHi h, ← htable]⟩

end Stages

/-! ### The forward transform (R213) -/

theorem sum_range_two_mul {M : Type} [AddCommMonoid M] (f : Nat → M) (m : Nat) :
    ∑ u ∈ Finset.range (2 * m), f u =
      ∑ u ∈ Finset.range m, f (2 * u) + ∑ u ∈ Finset.range m, f (2 * u + 1) := by
  induction m with
  | zero => simp
  | succ m ih =>
    rw [Nat.mul_succ, Finset.sum_range_succ, Finset.sum_range_succ, ih, Finset.sum_range_succ,
      Finset.sum_range_succ]
    abel

/-- Coefficient `i` of the samples, read as a polynomial, modulo `z^(2^r) - ω` for the conjugate `ω`
of the root at position `j` among `2^q`. -/
noncomputable def residue (x : List ℝ) (q r j i : Nat) : ℂ :=
  ∑ u ∈ Finset.range (2 ^ q), complexSample x (2 ^ r * u + i) * conj (unitRoot q j) ^ u

/-- The residues modulo `z^m - ω` and `z^m + ω` come from the one modulo `z^(2m) - ω²`. -/
theorem residue_succ (x : List ℝ) (q r j i : Nat) {b : Nat} (hb : b < 2) :
    residue x (q + 1) r (2 * j + b) i = residue x q (r + 1) j i +
      conj (unitRoot (q + 1) (2 * j + b)) * residue x q (r + 1) j (2 ^ r + i) := by
  have hsq : conj (unitRoot (q + 1) (2 * j + b)) ^ 2 = conj (unitRoot q j) := by
    rw [← map_pow, ← unitRoot_even_sq q j]
    obtain rfl | rfl : b = 0 ∨ b = 1 := by omega
    · rfl
    · rw [unitRoot_odd, neg_sq]
  rw [residue, residue, residue, pow_succ', sum_range_two_mul, Finset.mul_sum, ← hsq]
  congr 1 <;> refine Finset.sum_congr rfl fun u _ => ?_
  · rw [← pow_mul, show 2 ^ r * (2 * u) + i = 2 ^ (r + 1) * u + i by ring]
  · rw [← pow_mul, show 2 ^ r * (2 * u + 1) + i = 2 ^ (r + 1) * u + (2 ^ r + i) by ring, pow_succ]
    ring

/-- After `q` forward stages block `j` holds the residue for its root. -/
theorem complexSample_stagesDit {nu : Num ℝ} (h : ExactNum nu) {k : Nat} {w x : List ℝ}
    (hw : IsBitReversedTable k w) (hx : x.length = 2 * 2 ^ (k + 1)) {q r j i : Nat}
    (hqr : q + r = k + 1) (hj : j < 2 ^ q) (hi : i < 2 ^ r) :
    complexSample (stagesDit nu w q (2 ^ (k + 1)) 1 x) (2 ^ r * j + i) = residue x q r j i := by
  induction q generalizing r j i with
  | zero => simp [stagesDit, residue, show j = 0 by omega]
  | succ q ih =>
    obtain ⟨j, b, hb, rfl⟩ : ∃ j' b, b < 2 ∧ j = 2 * j' + b :=
      ⟨j / 2, j % 2, Nat.mod_lt _ two_pos, (Nat.div_add_mod j 2).symm⟩
    have hj' : j < 2 ^ q := by rw [pow_succ] at hj; omega
    have hp : 2 ^ (r + 1) = 2 * 2 ^ r := pow_succ' 2 r
    have hrest : q + (r + 1) = k + 1 := by omega
    have hstage := stagesDit_two_pow nu w q r x
    rw [hqr] at hstage
    rw [hstage, complexSample_stageDit h hw (by omega) (by simp [hx, hqr]) hj' hi hb,
      ih hrest hj' (by omega), ih hrest hj' (by omega), residue_succ x q r j i hb]

/-- Settles O29: after the last stage each block is one sample, the residue modulo `z - ω`, which is
the polynomial's value at `ω`. -/
theorem fftComputesTheFourierTransform : Obligations.FftComputesTheFourierTransform := by
  intro nu k w x h hw hx p hp
  have hlast := complexSample_stagesDit h hw hx (q := k + 1) (r := 0) rfl hp (i := 0) one_pos
  simpa [fftList_two_pow, residue, conj_unitRoot_pow] using hlast

/-! ### The inverse transform (R223) -/

/-- The sum of the spectrum values of block `j` of `2^q` samples, each times the power `i` of its
root of unity of order `2^n`. -/
noncomputable def blockSum (x : List ℝ) (n q j i : Nat) : ℂ :=
  ∑ u ∈ Finset.range (2 ^ q), complexSample x (2 ^ q * j + u) * unitRoot n (2 ^ q * j + u) ^ i

theorem blockSum_succ (x : List ℝ) (n q j i : Nat) :
    blockSum x n (q + 1) j i = blockSum x n q (2 * j) i + blockSum x n q (2 * j + 1) i := by
  rw [blockSum, pow_succ, mul_two, Finset.sum_range_add]
  congr 1 <;> refine Finset.sum_congr rfl fun u _ => ?_
  · rw [show (2 ^ q + 2 ^ q) * j + u = 2 ^ q * (2 * j) + u by ring]
  · rw [show (2 ^ q + 2 ^ q) * j + (2 ^ q + u) = 2 ^ q * (2 * j + 1) + u by ring]

/-- The roots of a block have a common power, which is the root of the block. -/
theorem blockSum_add (x : List ℝ) (q r j i : Nat) :
    blockSum x (q + r) q j (2 ^ q + i) = unitRoot r j * blockSum x (q + r) q j i := by
  rw [blockSum, blockSum, Finset.mul_sum]
  refine Finset.sum_congr rfl fun u hu => ?_
  rw [pow_add, unitRoot_add_pow q r j u (Finset.mem_range.1 hu)]
  ring

/-- After `q` inverse stages sample `i` of block `j` is the block's sum with the powers `i`. -/
theorem complexSample_stagesDif {nu : Num ℝ} (h : ExactNum nu) {k : Nat} {w x : List ℝ}
    (hw : IsBitReversedTable k w) (hx : x.length = 2 * 2 ^ (k + 1)) {q r j i : Nat}
    (hqr : q + r = k + 1) (hj : j < 2 ^ r) (hi : i < 2 ^ q) :
    complexSample (stagesDif nu w q 1 (2 ^ (k + 1)) x) (2 ^ q * j + i) =
      blockSum x (k + 1) q j i := by
  induction q generalizing r j i with
  | zero => simp [stagesDif, blockSum, show i = 0 by omega]
  | succ q ih =>
    have hp : 2 ^ (r + 1) = 2 * 2 ^ r := pow_succ' 2 r
    have hrest : q + (r + 1) = k + 1 := by omega
    have hstage := stagesDif_two_pow nu w q r x
    rw [hqr] at hstage
    have hpair : ∀ i < 2 ^ q, _ := fun i hi =>
      complexSample_stageDif h hw (x := stagesDif nu w q 1 (2 ^ (k + 1)) x) (by omega)
        (by simp [hx, hqr]) hj hi
    rw [hstage, blockSum_succ]
    obtain hlow | ⟨i, rfl⟩ : i < 2 ^ q ∨ ∃ i', i = 2 ^ q + i' :=
      (Nat.lt_or_ge i (2 ^ q)).imp_right Nat.exists_eq_add_of_le
    · rw [(hpair i hlow).1, ih hrest (by omega) hlow, ih hrest (by omega) hlow]
    · have hhigh : i < 2 ^ q := by rw [pow_succ] at hi; omega
      rw [(hpair i hhigh).2, ih hrest (by omega) hhigh, ih hrest (by omega) hhigh, ← hrest,
        blockSum_add, blockSum_add, unitRoot_odd]
      ring

/-- Settles O31: after the last stage the one block is the whole spectrum, whose sum is taken in
bit-reversed order. -/
theorem ifftComputesTheInverseTransform : Obligations.IfftComputesTheInverseTransform := by
  intro nu k w x h hw hx t ht
  have hlast := complexSample_stagesDif h hw hx (q := k + 1) (r := 0) rfl (j := 0) one_pos ht
  have hrev : ∀ q ∈ Finset.range (2 ^ (k + 1)),
      reverseBits (k + 1) (reverseBits (k + 1) q) = q := fun q hq =>
    reverseBits_reverseBits _ q (Finset.mem_range.1 hq)
  have hmem : ∀ q ∈ Finset.range (2 ^ (k + 1)),
      reverseBits (k + 1) q ∈ Finset.range (2 ^ (k + 1)) := fun q _ =>
    Finset.mem_range.2 (reverseBits_lt _ q)
  rw [mul_zero, zero_add] at hlast
  rw [ifftList_two_pow, hlast, blockSum]
  refine Finset.sum_nbij' (reverseBits (k + 1)) (reverseBits (k + 1)) hmem hmem hrev hrev
    fun q hq => ?_
  rw [hrev q hq, mul_zero, zero_add, unitRoot_pow]

end Sys2Proof.Machine
end

section
/-!
PROOFS. `PADP`, `PADE` and `CMUL` of the frequency-domain correlator: the samples each writes to its
spectrum buffer (R240, R242, R246, R247).
-/

namespace Sys2Proof.Machine

open Sys2Proof

/-! ### Spectrum operands -/

theorem exists_spectrumOperand {d : BufId} (h : d.isSpectrum = true) :
    ∃ x, spectrumOperand d = some x :=
  Option.isSome_iff_exists.1 ((isSpectrum_iff d).symm.trans h)

theorem spectrumList_eq {d : BufId} {x : Spectrum} (h : spectrumOperand d = some x) (s : State) :
    spectrumList s x = bufToList s.cfg.fftLen (scalarsOf s d) := by
  cases d with
  | ssp | rsp | xsp => cases h; rfl
  | probe | capture | mono | tw => cases h

theorem setSpectrum_eq_setScalars {d : BufId} {x : Spectrum} (h : spectrumOperand d = some x)
    (s : State) (l : List Scalar) : setSpectrum s x l = setScalars s d (bufOfList l) := by
  cases d with
  | ssp | rsp | xsp => cases h; rfl
  | probe | capture | mono | tw => cases h

/-- A scalar of a spectrum buffer, read from the list of its contents. -/
theorem getD_spectrum {c : Config} {b : Buf Scalar} {i : Nat} (h : i < c.fftLen) :
    (bufToList c.fftLen b).getD i c.ops.fzero = bufRead b i := by
  rw [c.ops_fzero, getD_bufToList, if_pos h]

/-! ### PADP and PADE -/

/-- R240: a sample 0 of the probe is loaded as `fzero`. -/
theorem normalised_zero (c : Config) :
    c.ops.fdiv (c.ops.i2f (0 : Sample).toInt) c.gain = c.ops.fzero := by
  have hsample : (0 : Sample).toInt = 0 := rfl
  rw [hsample, c.ops_lawful.i2f_zero, c.ops_lawful.zero_div _ c.gain_positive]

theorem bufRead_opPadp_ssp (nu : Num Scalar) (s : State) {i : Nat} (h : i < s.cfg.n) :
    bufRead (opPadp nu s).ssp (2 * i) = (if i < s.cfg.sweepLen
      then nu.fdiv (nu.i2f (bufRead s.probe i).toInt) s.cfg.gain else nu.fzero) ∧
    bufRead (opPadp nu s).ssp (2 * i + 1) = nu.fzero := by
  rw [opPadp, setSpectrum_ssp_ssp, bufRead_bufOfList, bufRead_bufOfList]
  exact getD_flatMap_pair _ _ 0 _ i h

theorem bufRead_opPade_rsp (nu : Num Scalar) (s : State) {i : Nat} (h : i < s.cfg.n) :
    bufRead (opPade nu s).rsp (2 * i) = (if i < s.cfg.responseMono
      then nu.i2f (bufRead s.mono i).toInt else nu.fzero) ∧
    bufRead (opPade nu s).rsp (2 * i + 1) = nu.fzero := by
  rw [opPade, setSpectrum_rsp_rsp, bufRead_bufOfList, bufRead_bufOfList]
  exact getD_flatMap_pair _ _ 0 _ i h

/-- Settles O33: the buffer holds the pairs `PADP` computes, and `fzero` divided by `GAIN` is
`fzero`. -/
theorem padpLoadsTheNormalisedProbe : Obligations.PadpLoadsTheNormalisedProbe := by
  rintro s nu rfl hidle
  refine ⟨opPadp s.cfg.ops s, exec_of_idle rfl hidle, rfl, fun i hi => ?_⟩
  obtain ⟨hre, him⟩ := bufRead_opPadp_ssp s.cfg.ops s hi
  refine ⟨hre, him, fun hzero => ?_⟩
  rw [hre, hzero, normalised_zero, ite_self]

/-- Settles O34: the buffer holds the pairs `PADE` computes. -/
theorem padeLoadsTheEcho : Obligations.PadeLoadsTheEcho := by
  rintro s nu rfl hidle
  exact ⟨opPade s.cfg.ops s, exec_of_idle rfl hidle, rfl, fun i hi => bufRead_opPade_rsp _ s hi⟩

/-! ### CMUL -/

/-- R246: the samples of the product. -/
theorem getD_cmulList {F : Type} (nu : Num F) (a b : List F) (z : F) {n k : Nat} (h : k < n) :
    (cmulList nu n a b).getD (2 * k) z =
      nu.fsub (nu.fmul (a.getD (2 * k) nu.fzero) (b.getD (2 * k) nu.fzero))
        (nu.fmul (a.getD (2 * k + 1) nu.fzero) (b.getD (2 * k + 1) nu.fzero)) ∧
    (cmulList nu n a b).getD (2 * k + 1) z =
      nu.fadd (nu.fmul (a.getD (2 * k) nu.fzero) (b.getD (2 * k + 1) nu.fzero))
        (nu.fmul (a.getD (2 * k + 1) nu.fzero) (b.getD (2 * k) nu.fzero)) :=
  getD_flatMap_pair _ _ z n k h

/-- `CMUL` as one update, of the old contents of its sources (R246). -/
theorem exec_cmul_of_idle {s : State} (hidle : cstate s = .idle) {d a b : BufId}
    (hd : d.isSpectrum = true) (ha : a.isSpectrum = true) (hb : b.isSpectrum = true) :
    exec (.cmul d a b) s = .next (setScalars s d (bufOfList (cmulList s.cfg.ops s.cfg.n
      (bufToList s.cfg.fftLen (scalarsOf s a)) (bufToList s.cfg.fftLen (scalarsOf s b))))) := by
  have hw : (Instr.cmul d a b).wellFormed = true := by simp [Instr.wellFormed, hd, ha, hb]
  obtain ⟨x, hx⟩ := exists_spectrumOperand hd
  obtain ⟨y, hy⟩ := exists_spectrumOperand ha
  obtain ⟨z, hz⟩ := exists_spectrumOperand hb
  rw [exec_of_idle hw hidle]
  simp only [effect, hx, hy, hz, opCmul, setSpectrum_eq_setScalars hx, spectrumList_eq hy,
    spectrumList_eq hz]

/-- Settles O35: each pair of the product is computed from the lists of the old contents. -/
theorem cmulMultipliesPointwise : Obligations.CmulMultipliesPointwise := by
  rintro s nu d a b rfl hidle hd ha hb
  refine ⟨_, exec_cmul_of_idle hidle hd ha hb, onlyScalarsWritten_setScalars .., ?_⟩
  rintro k hk _ _ _ _ rfl rfl rfl rfl
  have hlen := s.cfg.two_mul_n
  have heven : 2 * k < s.cfg.fftLen := by omega
  have hodd : 2 * k + 1 < s.cfg.fftLen := by omega
  rw [scalarsOf_setScalars s (isPermutable_of_isSpectrum hd), bufRead_bufOfList, bufRead_bufOfList]
  simpa only [getD_spectrum heven, getD_spectrum hodd] using
    getD_cmulList s.cfg.ops (bufToList s.cfg.fftLen (scalarsOf s a))
      (bufToList s.cfg.fftLen (scalarsOf s b)) 0 hk

end Sys2Proof.Machine
end

section
/-!
PROOFS. `PEAK` (R248, R249): the scan keeps the first real part that no other exceeds, in the order
of R17, which leaves a NaN out.
-/

namespace Sys2Proof

/-! ### The order of R17 -/

theorem Num.Lawful.fgt_trans {nu : Num Scalar} (h : nu.Lawful) {a b c : Scalar}
    (hab : nu.fgt a b = true) (hbc : nu.fgt b c = true) : nu.fgt a c = true := by
  obtain ⟨value, hv⟩ := h.valued
  obtain ⟨hna, -, hba⟩ := (hv.gt a b).1 hab
  obtain ⟨-, hnc, hcb⟩ := (hv.gt b c).1 hbc
  exact (hv.gt a c).2 ⟨hna, hnc, hcb.trans hba⟩

theorem Num.Lawful.fgt_asymm {nu : Num Scalar} (h : nu.Lawful) {a b : Scalar}
    (hab : nu.fgt a b = true) : nu.fgt b a = false := by
  obtain ⟨value, hv⟩ := h.valued
  obtain ⟨-, -, hlt⟩ := (hv.gt a b).1 hab
  rw [Bool.eq_false_iff, ne_eq, hv.gt]
  rintro ⟨-, -, hgt⟩
  exact hlt.not_gt hgt

theorem Num.Lawful.fgt_irrefl {nu : Num Scalar} (h : nu.Lawful) (a : Scalar) :
    nu.fgt a a = false := by
  cases ha : nu.fgt a a with
  | false => rfl
  | true => exact ha.symm.trans (h.fgt_asymm ha)

/-- R17: what does not exceed the smaller of two values is below the greater, or a NaN. -/
theorem Num.Lawful.fgt_or_nan {nu : Num Scalar} (h : nu.Lawful) {a b c : Scalar}
    (hcb : nu.fgt c b = true) (hab : nu.fgt a b = false) :
    nu.fgt c a = true ∨ nu.integerPart a = .nan := by
  obtain ⟨value, hv⟩ := h.valued
  obtain ⟨hnc, hnb, hlt⟩ := (hv.gt c b).1 hcb
  rw [Bool.eq_false_iff, ne_eq, hv.gt] at hab
  by_cases hnan : nu.integerPart a = .nan
  · exact .inr hnan
  · have hle : value a ≤ value b := not_lt.1 fun hgt => hab ⟨hnan, hnb, hgt⟩
    exact .inl ((hv.gt c a).2 ⟨hnc, hnan, hle.trans_lt hlt⟩)

end Sys2Proof

namespace Sys2Proof.Machine

open Sys2Proof

/-! ### The scan of R248 -/

/-- `PEAK` as one update (R248). -/
theorem exec_peak_of_idle {s : State} (hidle : cstate s = .idle) {d : BufId}
    (h : d.isSpectrum = true) :
    exec (.peak d) s = .next { s with index := BitVec.ofNat 32 (peakIndex s.cfg.ops
      s.cfg.responseMono (bufToList s.cfg.fftLen (scalarsOf s d))) } := by
  obtain ⟨x, hx⟩ := exists_spectrumOperand h
  rw [exec_of_idle (i := .peak d) h hidle]
  simp only [effect, hx, opPeak, spectrumList_eq hx]

/-- `j` is the first place below `m` whose value in `r` exceeds `fzero` and is exceeded by no other;
the values before it are smaller, or NaNs. -/
def FirstPeak (nu : Num Scalar) (r : Nat → Scalar) (m j : Nat) : Prop :=
  j < m ∧ nu.fgt (r j) nu.fzero = true ∧ (∀ k < m, nu.fgt (r k) (r j) = false) ∧
    ∀ k < j, nu.fgt (r j) (r k) = true ∨ nu.integerPart (r k) = .nan

/-- What the scan of R248 holds once it has considered the first `m` real parts. -/
def PeakAmong (nu : Num Scalar) (r : Nat → Scalar) (m : Nat) (choice : Scalar × Nat) : Prop :=
  (choice = (nu.fzero, 0) ∧ ∀ k < m, nu.fgt (r k) nu.fzero = false) ∨
    ∃ j, choice = (r j, 2 * j) ∧ FirstPeak nu r m j

section Scan

variable {nu : Num Scalar} {r : Nat → Scalar} {m : Nat}

/-- No value considered exceeds the choice, and what exceeds the choice exceeds `fzero`. -/
theorem PeakAmong.bounds {choice : Scalar × Nat} (h : nu.Lawful) (hc : PeakAmong nu r m choice) :
    (∀ k < m, nu.fgt (r k) choice.1 = false) ∧
      ∀ a, nu.fgt a choice.1 = true → nu.fgt a nu.fzero = true := by
  obtain ⟨rfl, hle⟩ | ⟨j, rfl, -, hpos, hmax, -⟩ := hc
  · exact ⟨hle, fun _ => id⟩
  · exact ⟨hmax, fun _ ha => h.fgt_trans ha hpos⟩

/-- R249: a strictly greater real part replaces the choice, any other leaves it. -/
theorem peakAmong_considerPeak {x : List Scalar} {choice : Scalar × Nat} (h : nu.Lawful)
    (hx : x.getD (2 * m) nu.fzero = r m) (hc : PeakAmong nu r m choice) :
    PeakAmong nu r (m + 1) (considerPeak nu x choice m) := by
  obtain ⟨hle, hpos⟩ := hc.bounds h
  rw [considerPeak, hx]
  split
  · next hgt =>
    have hearly := fun k hk => h.fgt_or_nan hgt (hle k hk)
    have hmax : ∀ k < m, nu.fgt (r k) (r m) = false := fun k hk =>
      (hearly k hk).elim h.fgt_asymm fun hnan => h.fgt_nan (.inl hnan)
    exact .inr ⟨m, rfl, m.lt_succ_self, hpos _ hgt,
      Nat.forall_lt_succ_right.2 ⟨hmax, h.fgt_irrefl _⟩, hearly⟩
  · next hngt =>
    have hlast := Nat.forall_lt_succ_right.2 ⟨hle, Bool.eq_false_iff.2 hngt⟩
    obtain ⟨rfl, -⟩ | ⟨j, rfl, hj, hpos, -, hearly⟩ := hc
    · exact .inl ⟨rfl, hlast⟩
    · exact .inr ⟨j, rfl, hj.trans m.lt_succ_self, hpos, hlast, hearly⟩

theorem peakAmong_foldl {x : List Scalar} (h : nu.Lawful)
    (hx : ∀ k < m, x.getD (2 * k) nu.fzero = r k) :
    PeakAmong nu r m ((List.range m).foldl (considerPeak nu x) (nu.fzero, 0)) := by
  induction m with
  | zero => exact .inl ⟨rfl, fun _ hk => absurd hk (Nat.not_lt_zero _)⟩
  | succ m ih =>
    rw [List.range_succ, List.foldl_append]
    exact peakAmong_considerPeak h (hx m m.lt_succ_self)
      (ih fun k hk => hx k (hk.trans m.lt_succ_self))

/-- R248, R249: the chosen index is 0 when no real part exceeds `fzero`, else the scalar index of
the first greatest one. -/
theorem peakIndex_cases {x : List Scalar} (h : nu.Lawful)
    (hx : ∀ k < m, x.getD (2 * k) nu.fzero = r k) :
    (peakIndex nu m x = 0 ∧ ∀ k < m, nu.fgt (r k) nu.fzero = false) ∨
      ∃ j, peakIndex nu m x = 2 * j ∧ FirstPeak nu r m j :=
  (peakAmong_foldl h hx).imp (And.imp_left (congrArg Prod.snd))
    (Exists.imp fun _ => And.imp_left (congrArg Prod.snd))

end Scan

/-- What holds at the scalar index of each of the first `n` real parts holds at every even index
below `2n`. -/
theorem forall_even_lt {P : Nat → Prop} {n : Nat} (h : ∀ k < n, P (2 * k)) :
    ∀ i < 2 * n, i % 2 = 0 → P i := by
  intro i hi heven
  obtain ⟨k, rfl⟩ := Nat.dvd_of_mod_eq_zero heven
  exact h k (by omega)

/-- `INDEX` holds the scalar index of a real part `PEAK` scans without loss. -/
theorem toNat_scannedIndex {c : Config} {j : Nat} (h : j < c.responseMono) :
    (BitVec.ofNat 32 (2 * j)).toNat = 2 * j := by
  have hlen : 2 * c.responseMono < 2 ^ 28 := c.responseLen_lt
  rw [BitVec.toNat_ofNat]
  exact Nat.mod_eq_of_lt (by omega)

/-- Settles O36: the even scalar indices below `RESPONSE_LEN` are those of the scan, which keeps the
first greatest real part. -/
theorem peakPicksTheFirstStrictMaximum : Obligations.PeakPicksTheFirstStrictMaximum := by
  rintro s nu d rfl hidle hd
  have hlen : 2 * s.cfg.responseMono ≤ s.cfg.fftLen := s.cfg.responseLen_le
  have hpos := s.cfg.one_le_responseMono
  have hread : ∀ k < s.cfg.responseMono,
      (bufToList s.cfg.fftLen (scalarsOf s d)).getD (2 * k) s.cfg.ops.fzero =
        bufRead (scalarsOf s d) (2 * k) := fun k hk => getD_spectrum (by omega)
  refine ⟨_, exec_peak_of_idle hidle hd, rfl, ?_⟩
  unfold Params.responseLen
  obtain ⟨hidx, hle⟩ | ⟨j, hidx, hj, hgt, hmax, hearly⟩ :=
    peakIndex_cases s.cfg.ops_lawful hread
  · have hnone := forall_even_lt
      (P := fun i => s.cfg.ops.fgt (bufRead (scalarsOf s d) i) s.cfg.ops.fzero = false) hle
    simp only [hidx]
    refine ⟨rfl, Nat.mul_pos two_pos hpos, fun re hre => ⟨fun _ => rfl, ?_⟩⟩
    obtain rfl := funext hre
    rintro ⟨i, hi, heven, hexceeds⟩
    exact absurd hexceeds (Bool.eq_false_iff.1 (hnone i hi heven))
  · simp only [hidx, toNat_scannedIndex hj]
    refine ⟨Nat.mul_mod_right 2 j, by omega, fun re hre => ?_⟩
    obtain rfl := funext hre
    refine ⟨fun hnone => ?_, fun _ => ⟨hgt, forall_even_lt hmax, forall_even_lt hearly⟩⟩
    exact absurd hgt (Bool.eq_false_iff.1 (hnone _ (by omega) (Nat.mul_mod_right 2 j)))

end Sys2Proof.Machine
end

section
/-!
PROOFS. `CORRF` as the sequence of its primitives (R250).
-/

namespace Sys2Proof.Machine

open Sys2Proof

theorem ComputesOnly.cstate_eq {s t : State} (h : ComputesOnly s t) : cstate t = cstate s := by
  obtain ⟨_, _, _, _, _, _, _, _, _, rfl, -⟩ := h
  rfl

/-- No command but `START` leaves `IDLE` (R141). -/
theorem idle_effect {s : State} (hidle : cstate s = .idle) (i : Instr) (hi : i ≠ .start) :
    cstate (effect i s) = .idle := by
  by_cases hsynth : i = .synth
  · subst hsynth
    exact hidle
  · exact (computesOnly_effect hi hsynth s).cstate_eq.trans hidle

/-- Steps 4 to 7 of R250 as the effects of the primitives. -/
theorem correlation_eq_effects {nu : Num Scalar} {t : State} (hnu : nu = t.cfg.ops) :
    opPeak nu .xsp (opIfft nu .xsp (opCmul nu .xsp .ssp .rsp (opFft nu .rsp (opFft nu .ssp t)))) =
      effect (.peak .xsp) (effect (.ifft .xsp) (effect (.cmul .xsp .ssp .rsp)
        (effect (.fft .rsp) (effect (.fft .ssp) t)))) := by
  subst hnu
  rfl

/-- `CORRF` as the effects of its primitives around the preparation of the table (R250). -/
theorem effect_corrf (s : State) : effect .corrf s =
    effect (.peak .xsp) (effect (.ifft .xsp) (effect (.cmul .xsp .ssp .rsp) (effect (.fft .rsp)
      (effect (.fft .ssp) (prepareTable s.cfg.ops (effect .pade (effect .padp s))))))) :=
  correlation_eq_effects
    (congrArg Config.ops (spectraOnly_prepareTable _ (opPade _ (opPadp _ s))).computes.cfg_eq.symm)

/-- Settles O37: each primitive is performed on what the one before it left, since none of them
leaves `IDLE`. -/
theorem corrfIsThePrimitiveSequence : Obligations.CorrfIsThePrimitiveSequence := by
  intro s hidle
  have hidle1 := idle_effect hidle .padp nofun
  have hidle2 := idle_effect hidle1 .pade nofun
  have hidle3 : cstate (prepareTable s.cfg.ops (effect .pade (effect .padp s))) = .idle :=
    (spectraOnly_prepareTable ..).computes.cstate_eq.trans hidle2
  have hidle4 := idle_effect hidle3 (.fft .ssp) nofun
  have hidle5 := idle_effect hidle4 (.fft .rsp) nofun
  have hidle6 := idle_effect hidle5 (.cmul .xsp .ssp .rsp) nofun
  have hidle7 := idle_effect hidle6 (.ifft .xsp) nofun
  refine ⟨_, _, _, _, _, _, _, _, exec_of_idle rfl hidle, exec_of_idle rfl hidle1, fun hv => ?_,
    fun hv => prepareTable_of_valid _ hv, exec_of_idle rfl hidle3, exec_of_idle rfl hidle4,
    exec_of_idle rfl hidle5, exec_of_idle rfl hidle6, exec_of_idle rfl hidle7,
    (exec_of_idle rfl hidle).trans (congrArg _ (effect_corrf s))⟩
  exact ⟨_, _, exec_of_idle rfl hidle2, exec_of_idle rfl (idle_effect hidle2 .twgen nofun),
    prepareTable_of_not_valid _ hv⟩

end Sys2Proof.Machine
end

section
/-!
PROOFS. The rounding of binary32 keeps the order (R16, R17): `roundPack` gives the nearest pattern, so do
`i2f` of a natural number and the product and the quotient of patterns that are not negative, and these
operations then keep the order of such patterns.
-/

namespace Sys2Proof.Machine

open Sys2Proof

/-! ### Rounding to nearest, ties to even -/

/-- The number of a magnitude, were the exponents not bounded above: of a finite one its own. -/
noncomputable def unboundedValue (n : Nat) : ℝ := magnitudeUnits n * 2 ^ (-149 : Int)

theorem unboundedValue_strictMono : StrictMono unboundedValue := fun _ _ h =>
  mul_lt_mul_of_pos_right (Nat.cast_lt.2 (magnitudeUnits_strictMono h)) (by positivity)

/-- A significand `q` and the weight `2^l` of its last place, as `roundPack` packs them. -/
theorem unboundedValue_pack {q : Nat} {l : Int} (hl : -149 ≤ l) (hq : q ≤ 2 ^ 24)
    (hnormal : 2 ^ 23 ≤ q ∨ l = -149) :
    unboundedValue (q + (l + 149).toNat * 2 ^ 23) = q * 2 ^ l := by
  obtain ⟨k, rfl⟩ : ∃ k : Nat, l = k - 149 := ⟨(l + 149).toNat, by omega⟩
  have hunits : magnitudeUnits (q + k * 2 ^ 23) = q * 2 ^ k := by
    unfold magnitudeUnits
    rcases hq.lt_or_eq with hlt | rfl
    · by_cases hsmall : q < 2 ^ 23
      · obtain rfl : k = 0 := by omega
        rw [if_pos (by omega)]
        omega
      · rw [if_neg (by omega), show (q + k * 2 ^ 23) % 2 ^ 23 + 2 ^ 23 = q by omega,
          show (q + k * 2 ^ 23) / 2 ^ 23 - 1 = k by omega]
    · rw [if_neg (by omega), show (2 ^ 24 + k * 2 ^ 23) % 2 ^ 23 = 0 by omega,
        show (2 ^ 24 + k * 2 ^ 23) / 2 ^ 23 - 1 = k + 1 by omega]
      ring
  rw [unboundedValue, show ((k : Int) - 149 + 149).toNat = k by omega, hunits]
  rw [sub_eq_add_neg, zpow_add₀ (by norm_num), zpow_natCast]
  push_cast
  ring

/-- `n` is the magnitude nearest `x`, of two equally near the even one: `x` is not below the middle of
`n` and the magnitude before, nor above the middle of `n` and the one after. -/
def RoundsTo (x : ℝ) (n : Nat) : Prop :=
  (∀ k, n = k + 1 → unboundedValue k + unboundedValue n < 2 * x ∨
    unboundedValue k + unboundedValue n = 2 * x ∧ n % 2 = 0) ∧
  (2 * x < unboundedValue n + unboundedValue (n + 1) ∨
    2 * x = unboundedValue n + unboundedValue (n + 1) ∧ n % 2 = 0)

/-- Rounding keeps the order. -/
theorem RoundsTo.mono {x y : ℝ} {m n : Nat} (hm : RoundsTo x m) (hn : RoundsTo y n) (h : x ≤ y) :
    m ≤ n := by
  by_contra hlt
  obtain ⟨k, rfl⟩ : ∃ k, m = k + 1 := ⟨m - 1, by omega⟩
  have hk : unboundedValue n ≤ unboundedValue k := unboundedValue_strictMono.monotone (by omega)
  have hk1 : unboundedValue (n + 1) ≤ unboundedValue (k + 1) :=
    unboundedValue_strictMono.monotone (by omega)
  rcases hm.1 k rfl with hx | ⟨hx, hmeven⟩ <;> rcases hn.2 with hy | ⟨hy, hneven⟩
  iterate 3 linarith
  have : n = k := unboundedValue_strictMono.injective (by linarith)
  omega

/-- A number between two neighbouring magnitudes rounds to the nearer one. -/
theorem roundsTo_of_between {x : ℝ} {n : Nat} {up : Prop} [Decidable up]
    (hlo : unboundedValue n ≤ x) (hhi : x < unboundedValue (n + 1))
    (hup : up ↔ unboundedValue n + unboundedValue (n + 1) < 2 * x ∨
      unboundedValue n + unboundedValue (n + 1) = 2 * x ∧ n % 2 = 1) :
    RoundsTo x (if up then n + 1 else n) := by
  split
  · next h =>
    refine ⟨?_, .inl ?_⟩
    · rintro k hk
      obtain rfl : n = k := by omega
      exact (hup.1 h).imp_right fun ⟨heq, hodd⟩ => ⟨heq, by omega⟩
    · have := unboundedValue_strictMono (show n + 1 < n + 1 + 1 by omega)
      linarith
  · next h =>
    rw [hup, not_or, not_lt, not_and] at h
    refine ⟨fun k hk => .inl ?_, ?_⟩
    · have := unboundedValue_strictMono (show k < n by omega)
      linarith
    · rcases h.1.lt_or_eq with hlt | heq
      · exact .inl hlt
      · exact .inr ⟨heq, by have := h.2 heq.symm; omega⟩

/-- A magnitude's own number rounds to it. -/
theorem roundsTo_unboundedValue (n : Nat) : RoundsTo (unboundedValue n) n := by
  have := unboundedValue_strictMono (show n < n + 1 by omega)
  refine ⟨fun k hk => .inl ?_, .inl (by linarith)⟩
  have := unboundedValue_strictMono (show k < n by omega)
  linarith

/-! ### `roundPack` -/

/-- The weight of the last place of `m · 2^e` rounded is 2 to this. -/
def lastPlace (m : Nat) (e : Int) : Int := max (e + Nat.log2 m - 23) (-149)

/-- `m · 2^e` rounded, in units of its last place. -/
def significand (m : Nat) (e : Int) : Nat :=
  if lastPlace m e ≤ e then m * 2 ^ (e - lastPlace m e).toNat
  else roundShift m (lastPlace m e - e).toNat

/-- `roundPack` packs the significand and the last place, up to the infinity. -/
theorem toNat_roundPack {m : Nat} (hm : m ≠ 0) (e : Int) : (roundPack false m e).toNat =
    min (significand m e + (lastPlace m e + 149).toNat * 2 ^ 23) 0x7F800000 := by
  have hdef : roundPack false m e =
      if significand m e + (lastPlace m e + 149).toNat * 2 ^ 23 ≥ 0x7F800000 then infinity false
      else withSign false (significand m e + (lastPlace m e + 149).toNat * 2 ^ 23) := by
    rw [roundPack, if_neg hm]
    rfl
  rw [hdef]
  split
  · rw [infinity, toNat_withSign _ _ (by norm_num), min_eq_right ‹_›]
    rfl
  · rw [toNat_withSign _ _ (by omega), min_eq_left (by omega)]
    simp

/-- `m` compares with the multiples of `p` as `x` does with those of `u`. -/
def ComparesAs (x u : ℝ) (m p : Nat) : Prop :=
  ∀ t : Nat, (t * u < x ↔ t * p < m) ∧ (x < t * u ↔ m < t * p)

/-- The places `roundShift` cuts off decide the rounding: all it takes is how `x` compares with the
multiples of half a last place. -/
theorem roundShift_roundsTo {x : ℝ} {m i : Nat} {l : Int} (hl : -149 ≤ l)
    (hq : m / 2 ^ (i + 1) < 2 ^ 24) (hnormal : 2 ^ 23 ≤ m / 2 ^ (i + 1) ∨ l = -149)
    (hcmp : ComparesAs x (2 ^ (l - 1)) m (2 ^ i)) :
    RoundsTo x (roundShift m (i + 1) + (l + 149).toNat * 2 ^ 23) := by
  have hlo := unboundedValue_pack hl hq.le hnormal
  have hhi := unboundedValue_pack (q := m / 2 ^ (i + 1) + 1) hl hq (by omega)
  have hmod : m % 2 ^ (i + 1) < 2 ^ (i + 1) := Nat.mod_lt _ (by positivity)
  have hdiv := Nat.div_add_mod m (2 ^ (i + 1))
  have hunit : (2 : ℝ) ^ l = 2 * 2 ^ (l - 1) := by
    rw [← zpow_one_add₀ (by norm_num), add_sub_cancel]
  rw [roundShift]
  generalize m / 2 ^ (i + 1) = q at *
  generalize m % 2 ^ (i + 1) = r at *
  rw [add_right_comm] at hhi
  rw [hunit] at hlo hhi
  rw [show 2 ^ (i + 1) = 2 * 2 ^ i from pow_succ' ..] at *
  generalize (2 : ℝ) ^ (l - 1) = u at *
  generalize 2 ^ i = p at *
  have hbelow : 2 * q * u ≤ x := by
    have h := (hcmp (2 * q)).2.not
    push_cast at h
    rw [not_lt, not_lt] at h
    exact h.2 (by nlinarith)
  have habove : x < (2 * q + 2) * u := by
    have h := (hcmp (2 * q + 2)).2
    push_cast at h
    exact h.2 (by nlinarith)
  obtain ⟨hgt, hlt⟩ := hcmp (2 * q + 1)
  push_cast at hgt hlt
  rw [← hdiv, show (2 * q + 1) * p = 2 * p * q + p by ring, add_lt_add_iff_left] at hgt hlt
  have heq : (2 * q + 1) * u = x ↔ r = p := by
    rw [le_antisymm_iff, ← not_lt, hlt, ← not_lt, hgt]
    omega
  rw [apply_ite (· + (l + 149).toNat * 2 ^ 23)]
  simp only [add_right_comm q 1]
  rw [Nat.cast_succ] at hhi
  refine roundsTo_of_between (by linarith) (by linarith) ?_
  have hmid : unboundedValue (q + (l + 149).toNat * 2 ^ 23) +
      unboundedValue (q + (l + 149).toNat * 2 ^ 23 + 1) = 2 * ((2 * q + 1) * u) := by
    linear_combination hlo + hhi
  rw [hmid, mul_lt_mul_iff_right₀ two_pos, mul_right_inj' (two_ne_zero' ℝ), hgt, heq]
  omega

/-- `roundPack` rounds a positive number: `m · 2^e`, or one that compares with the multiples of half a
last place as `m` does. -/
theorem roundsTo_significand {x : ℝ} {m : Nat} {e : Int} (hm : m ≠ 0)
    (hexact : lastPlace m e ≤ e → x = m * 2 ^ e)
    (hcmp : ∀ i : Nat, lastPlace m e = e + i + 1 → ComparesAs x (2 ^ (e + i)) m (2 ^ i)) :
    RoundsTo x (significand m e + (lastPlace m e + 149).toNat * 2 ^ 23) := by
  have hlo : 2 ^ Nat.log2 m ≤ m := Nat.log2_self_le hm
  have hhi : m < 2 ^ (Nat.log2 m + 1) := Nat.lt_log2_self
  have hplace : lastPlace m e = max (e + Nat.log2 m - 23) (-149) := rfl
  have hmin : -149 ≤ lastPlace m e := le_max_right ..
  rw [significand]
  split
  · next hle =>
    obtain ⟨k, hk⟩ : ∃ k : Nat, e = lastPlace m e + k := ⟨(e - lastPlace m e).toNat, by omega⟩
    have hcast : ((m * 2 ^ k : Nat) : ℝ) * 2 ^ lastPlace m e = x := by
      rw [hexact hle, Nat.cast_mul, Nat.cast_pow, Nat.cast_ofNat, mul_assoc, ← zpow_natCast,
        ← zpow_add₀ (by norm_num), add_comm, ← hk]
    rw [show (e - lastPlace m e).toNat = k by omega, ← hcast, ← unboundedValue_pack hmin]
    · exact roundsTo_unboundedValue _
    · calc m * 2 ^ k ≤ 2 ^ (Nat.log2 m + 1) * 2 ^ k := Nat.mul_le_mul_right _ hhi.le
        _ = 2 ^ (Nat.log2 m + 1 + k) := (pow_add ..).symm
        _ ≤ 2 ^ 24 := Nat.pow_le_pow_right two_pos (by omega)
    · refine or_iff_not_imp_right.2 fun hne => ?_
      calc 2 ^ 23 = 2 ^ (Nat.log2 m + k) := by congr 1; omega
        _ = 2 ^ Nat.log2 m * 2 ^ k := pow_add ..
        _ ≤ m * 2 ^ k := Nat.mul_le_mul_right _ hlo
  · next hgt =>
    obtain ⟨i, hi⟩ : ∃ i : Nat, lastPlace m e = e + i + 1 :=
      ⟨(lastPlace m e - e - 1).toNat, by omega⟩
    rw [show (lastPlace m e - e).toNat = i + 1 by omega]
    refine roundShift_roundsTo hmin ?_ ?_ (by rw [hi, add_sub_cancel_right]; exact hcmp i hi)
    · rw [Nat.div_lt_iff_lt_mul (by positivity), ← pow_add]
      exact hhi.trans_le (Nat.pow_le_pow_right two_pos (by omega))
    · refine or_iff_not_imp_right.2 fun hne => ?_
      rw [Nat.le_div_iff_mul_le (by positivity), ← pow_add]
      exact (Nat.pow_le_pow_right two_pos (by omega)).trans hlo

/-! ### Operations rounded once -/

/-- The pattern `w` is `x` rounded: the nearest magnitude, or beyond the finite ones the infinity. -/
def IsRounded (x : ℝ) (w : Word) : Prop := ∃ n, RoundsTo x n ∧ w.toNat = min n 0x7F800000

theorem IsRounded.mono {x y : ℝ} {a b : Word} (ha : IsRounded x a) (hb : IsRounded y b)
    (h : x ≤ y) : a.toNat ≤ b.toNat := by
  obtain ⟨m, hm, ha⟩ := ha
  obtain ⟨n, hn, hb⟩ := hb
  rw [ha, hb]
  exact min_le_min_right _ (hm.mono hn h)

theorem IsRounded.le_infinity {x : ℝ} {w : Word} (h : IsRounded x w) : w.toNat ≤ 0x7F800000 := by
  obtain ⟨n, -, h⟩ := h
  exact h ▸ min_le_right ..

theorem isRounded_roundPack_zero (e : Int) : IsRounded 0 (roundPack false 0 e) := by
  have h0 : unboundedValue 0 = 0 := by simp [unboundedValue, magnitudeUnits]
  exact ⟨0, h0 ▸ roundsTo_unboundedValue 0, rfl⟩

/-- `roundPack` rounds `m · 2^e`. -/
theorem isRounded_roundPack (m : Nat) (e : Int) : IsRounded (m * 2 ^ e) (roundPack false m e) := by
  rcases eq_or_ne m 0 with rfl | hm
  · rw [Nat.cast_zero, zero_mul]
    exact isRounded_roundPack_zero e
  refine ⟨_, roundsTo_significand hm (fun _ => rfl) fun i _ t => ?_, toNat_roundPack hm e⟩
  have he : (0 : ℝ) < 2 ^ e := by positivity
  rw [zpow_add₀ two_ne_zero, zpow_natCast, mul_comm ((2 : ℝ) ^ e), ← mul_assoc,
    mul_lt_mul_iff_left₀ he, mul_lt_mul_iff_left₀ he]
  norm_cast

/-- The integer quotient doubled, its last bit recording whether a remainder is left. -/
def stickyQuotient (a n : Nat) : Nat := 2 * (a / n) + if a % n = 0 then 0 else 1

/-- The sticky quotient compares with an even integer as twice the exact quotient does: below it. -/
theorem stickyQuotient_lt_iff {n : Nat} (hn : 0 < n) (a t : Nat) :
    stickyQuotient a n < 2 * t ↔ a < t * n := by
  rw [stickyQuotient, ← Nat.div_lt_iff_lt_mul hn]
  split <;> omega

/-- Above it. -/
theorem lt_stickyQuotient_iff {n : Nat} (hn : 0 < n) (a t : Nat) :
    2 * t < stickyQuotient a n ↔ t * n < a := by
  rw [stickyQuotient]
  split
  · next h =>
    rw [← Nat.lt_div_iff_mul_lt_of_dvd hn.ne' (Nat.dvd_of_mod_eq_zero h)]
    omega
  · next h =>
    have hne : t * n ≠ a := fun heq => h (heq ▸ Nat.mul_mod_left ..)
    rw [← hne.le_iff_lt, ← Nat.le_div_iff_mul_le hn]
    omega

/-- The sticky quotient rounds as twice the exact quotient does: of 25 bits or more, it has only even
integers for the multiples of half a last place. -/
theorem isRounded_roundPack_sticky {a n : Nat} (e : Int) (hn : 0 < n) (ha : n * 2 ^ 24 ≤ a) :
    IsRounded (a / n * 2 ^ (e + 1)) (roundPack false (stickyQuotient a n) e) := by
  have hq : 2 ^ 24 ≤ a / n := by rwa [Nat.le_div_iff_mul_le hn, mul_comm]
  have hge : 2 ^ 25 ≤ stickyQuotient a n := by
    rw [stickyQuotient]
    omega
  have hlt := lt_stickyQuotient_iff hn a
  have hgt := stickyQuotient_lt_iff hn a
  generalize stickyQuotient a n = m at *
  have hm0 : m ≠ 0 := by omega
  have hlog : 25 ≤ Nat.log2 m := (Nat.le_log2 hm0).2 hge
  have hplace : e + 2 ≤ lastPlace m e := le_trans (by omega) (le_max_left ..)
  refine ⟨_, roundsTo_significand hm0 (fun h => by omega) fun i hi t => ?_, toNat_roundPack hm0 e⟩
  obtain ⟨k, rfl⟩ : ∃ k, i = k + 1 := ⟨i - 1, by omega⟩
  have hn' : (0 : ℝ) < n := by exact_mod_cast hn
  have he : (0 : ℝ) < 2 ^ (e + 1) := by positivity
  have hunit : (2 : ℝ) ^ (e + (k + 1 : Nat)) = 2 ^ k * 2 ^ (e + 1) := by
    rw [← zpow_natCast, ← zpow_add₀ two_ne_zero]
    congr 1
    push_cast
    ring
  rw [hunit, ← mul_assoc, mul_lt_mul_iff_left₀ he, mul_lt_mul_iff_left₀ he, lt_div_iff₀ hn',
    div_lt_iff₀ hn', pow_succ', mul_left_comm, hlt, hgt]
  norm_cast

/-- The product of two patterns that are not negative is rounded once. -/
theorem isRounded_floatMul {a b : Word} {m n : Nat} {e f : Int} (ha : unpack a = .fin false m e)
    (hb : unpack b = .fin false n f) : IsRounded (m * 2 ^ e * (n * 2 ^ f)) (floatMul a b) := by
  have hmul : floatMul a b = roundPack false (m * n) (e + f) := by
    simp [floatMul, ha, hb]
  rw [hmul, mul_mul_mul_comm, ← zpow_add₀ two_ne_zero, ← Nat.cast_mul]
  exact isRounded_roundPack (m * n) (e + f)

/-- So is the quotient by a positive one. -/
theorem isRounded_floatDiv {a b : Word} {m n : Nat} {e f : Int} (ha : unpack a = .fin false m e)
    (hb : unpack b = .fin false n f) (hn : 0 < n) (hn' : n < 2 ^ 24) :
    IsRounded (m * 2 ^ e / (n * 2 ^ f)) (floatDiv a b) := by
  have hdiv : floatDiv a b = roundPack false (stickyQuotient (m * 2 ^ 64) n) (e - f - 65) := by
    simp [floatDiv, ha, hb, hn.ne', stickyQuotient]
  rw [hdiv]
  rcases eq_or_ne m 0 with rfl | hm
  · simpa [stickyQuotient] using isRounded_roundPack_zero (e - f - 65)
  · have hx : (m * 2 ^ e / (n * 2 ^ f) : ℝ) =
        (m * 2 ^ 64 : Nat) / n * 2 ^ (e - f - 65 + 1) := by
      rw [show e - f - 65 + 1 = e - f - 64 by ring, zpow_sub₀ two_ne_zero, zpow_sub₀ two_ne_zero]
      push_cast
      field_simp
      norm_num
    rw [hx]
    refine isRounded_roundPack_sticky _ hn ?_
    calc n * 2 ^ 24 ≤ 1 * 2 ^ 64 := by omega
      _ ≤ m * 2 ^ 64 := Nat.mul_le_mul_right _ (Nat.pos_of_ne_zero hm)

/-! ### The order of the patterns that are not negative -/

theorem signOf_eq_false {w : Word} (hw : w.toNat < 2 ^ 31) : signOf w = false := by
  rw [signOf, beq_eq_false_iff_ne]
  omega

/-- Neither pattern is negative or a NaN, and `a` is at most `b`. -/
def OrderedPatterns (a b : Word) : Prop := a.toNat ≤ b.toNat ∧ b.toNat ≤ 0x7F800000

/-- R17: of two such patterns the smaller is not greater. -/
theorem OrderedPatterns.floatGt_eq_false {a b : Word} (h : OrderedPatterns a b) :
    floatGt a b = false := by
  obtain ⟨hab, hb⟩ := h
  have hkey {w : Word} (hw : w.toNat ≤ 0x7F800000) : orderKey w = w.toNat := by
    rw [orderKey, signOf_eq_false (by omega), Nat.mod_eq_of_lt (by omega)]
    rfl
  rw [floatGt, hkey hb, hkey (hab.trans hb), decide_eq_false (by omega), Bool.and_false]

/-- A pattern below the infinity stands for its magnitude's number. -/
theorem unpack_of_lt_infinity {w : Word} (hw : w.toNat < 0x7F800000) :
    ∃ m e, unpack w = .fin false m e ∧ m * 2 ^ e = unboundedValue w.toNat := by
  have hmod : w.toNat % 2 ^ 31 = w.toNat := Nat.mod_eq_of_lt (by omega)
  rcases hu : unpack w with _ | s | ⟨s, m, e⟩
  · have := (not_nan_iff_magnitude 0 w).2 (by omega)
    exact absurd (floatScaledPart_of_nan hu) this
  · have := (unpack_eq_inf hu).2
    omega
  · obtain ⟨rfl, -, hv⟩ := unpack_eq_fin hu
    rw [hmod] at hv
    exact ⟨m, e, by rw [signOf_eq_false (by omega)], hv.symm⟩

/-- An operation that scales by a number that is not negative and rounds once keeps the order. -/
theorem OrderedPatterns.map {op : Word → Word} {r : ℝ} (hr : 0 ≤ r)
    (hinf : op (infinity false) = infinity false)
    (hfin : ∀ w m e, unpack w = .fin false m e → IsRounded (m * 2 ^ e * r) (op w))
    {a b : Word} (h : OrderedPatterns a b) : OrderedPatterns (op a) (op b) := by
  obtain ⟨hab, hb⟩ := h
  rcases hb.lt_or_eq with hlt | heq
  · obtain ⟨m, e, hau, hav⟩ := unpack_of_lt_infinity (hab.trans_lt hlt)
    obtain ⟨n, f, hbu, hbv⟩ := unpack_of_lt_infinity hlt
    have hle : (m * 2 ^ e : ℝ) ≤ n * 2 ^ f := by
      rw [hav, hbv]
      exact unboundedValue_strictMono.monotone hab
    have hrounded := hfin b n f hbu
    exact ⟨(hfin a m e hau).mono hrounded (mul_le_mul_of_nonneg_right hle hr),
      hrounded.le_infinity⟩
  · obtain rfl : b = infinity false := BitVec.eq_of_toNat_eq heq
    rw [hinf]
    refine ⟨?_, le_rfl⟩
    rcases hab.lt_or_eq with hlt | heq
    · obtain ⟨m, e, hau, -⟩ := unpack_of_lt_infinity hlt
      exact (hfin a m e hau).le_infinity
    · rw [BitVec.eq_of_toNat_eq heq, hinf]

/-- `i2f` rounds a natural number. -/
theorem isRounded_floatOfInt (n : Nat) : IsRounded n (floatOfInt n) := by
  have h : floatOfInt n = roundPack false n 0 := by
    rw [floatOfInt, decide_eq_false (by omega), Int.natAbs_natCast]
  rw [h]
  simpa using isRounded_roundPack n 0

/-- `i2f` keeps the order of the natural numbers. -/
theorem orderedPatterns_floatOfInt {m n : Nat} (h : m ≤ n) :
    OrderedPatterns (floatOfInt m) (floatOfInt n) :=
  ⟨(isRounded_floatOfInt m).mono (isRounded_floatOfInt n) (Nat.cast_le.2 h),
    (isRounded_floatOfInt n).le_infinity⟩

/-- Multiplying by a positive pattern keeps the order. -/
theorem OrderedPatterns.floatMul_const {a b c : Word} {n : Nat} {f : Int} (h : OrderedPatterns a b)
    (hc : unpack c = .fin false n f) (hn : 0 < n) :
    OrderedPatterns (floatMul a c) (floatMul b c) :=
  h.map (r := n * 2 ^ f) (op := (floatMul · c)) (by positivity)
    (by simp [floatMul, hc, hn.ne', show unpack (infinity false) = .inf false from rfl])
    fun _ _ _ hw => isRounded_floatMul hw hc

/-- Dividing by a positive pattern keeps the order. -/
theorem OrderedPatterns.floatDiv_const {a b c : Word} {n : Nat} {f : Int} (h : OrderedPatterns a b)
    (hc : unpack c = .fin false n f) (hn : 0 < n) (hn' : n < 2 ^ 24) :
    OrderedPatterns (floatDiv a c) (floatDiv b c) :=
  h.map (r := (n * 2 ^ f)⁻¹) (op := (floatDiv · c)) (by positivity)
    (by simp [floatDiv, hc, show unpack (infinity false) = .inf false from rfl])
    fun _ _ _ hw => isRounded_floatDiv hw hc hn hn'

end Sys2Proof.Machine
end

section
/-!
PROOFS. The distance converter (46_distance.md): the value `TODIST` writes (R270), the distance of index
0 and the order of the distances in binary32 (R272).
-/

namespace Sys2Proof.Machine

open Sys2Proof

/-- Settles O20: in `IDLE` the command is performed, and its effect is the formula of R270. -/
theorem todistConvertsTheIndex : Obligations.TodistConvertsTheIndex := by
  rintro s _ rfl hidle
  exact exec_of_idle rfl hidle

/-- R272: the product of `fzero` and the quotient by `2·RATE` are `fzero`. -/
theorem distanceOf_zero {c : Config} (hspeed : c.ops.Positive c.speed)
    (hrate : c.ops.Positive (c.ops.fmul (c.ops.fconst .two) c.rate)) :
    distanceOf c.ops c 0 = c.ops.fzero :=
  calc c.ops.fdiv (c.ops.fmul (c.ops.i2f 0) c.speed) (c.ops.fmul (c.ops.fconst .two) c.rate)
    _ = c.ops.fdiv c.ops.fzero (c.ops.fmul (c.ops.fconst .two) c.rate) := by
      rw [c.ops_lawful.i2f_zero, c.ops_lawful.zero_mul _ hspeed]
    _ = c.ops.fzero := c.ops_lawful.zero_div _ hrate

/-- `SPEED` = 340 is positive and finite in binary32. -/
theorem binary32_speed_positive : NumFormat.binary32.ops.Positive 0x43AA0000 :=
  ⟨rfl, 340, rfl⟩

/-- So is twice `RATE` = 96000. -/
theorem binary32_two_rate_positive : NumFormat.binary32.ops.Positive
    (NumFormat.binary32.ops.fmul (NumFormat.binary32.ops.fconst .two) 0x47BB8000) :=
  ⟨rfl, 192000, rfl⟩

/-- Settles O21: `fzero` is written as the pattern 0 (R39), and the source's constants are positive
and finite. -/
theorem indexZeroGivesDistanceZero : Obligations.IndexZeroGivesDistanceZero := by
  rintro s _ rfl hidle hindex
  have hzero (hspeed : s.cfg.ops.Positive s.cfg.speed)
      (hrate : s.cfg.ops.Positive (s.cfg.ops.fmul (s.cfg.ops.fconst .two) s.cfg.rate)) :
      exec .todist s = .next { s with result := 0, resultValid := true } := by
    rw [todistConvertsTheIndex s _ rfl hidle, ← distanceOf, hindex, distanceOf_zero hspeed hrate,
      s.cfg.ops_lawful.bits_zero]
  refine ⟨hzero, fun hnum hspeed hrate => hzero ?_ ?_⟩
  · rw [ops_of_binary32 hnum, hspeed]
    exact binary32_speed_positive
  · rw [ops_of_binary32 hnum, hrate]
    exact binary32_two_rate_positive

/-- R270 with the source's constants: `2·RATE` is exactly 192000. -/
theorem binary32_distanceOf {c : Config} (hnum : c.num = .binary32) (hspeed : c.speed = 0x43AA0000)
    (hrate : c.rate = 0x47BB8000) (i : Word) : distanceOf c.ops c i =
      (floatDiv (floatMul (floatOfInt i.toNat) 0x43AA0000) 0x483B8000).toNat := by
  have hden : floatMul 0x40000000 0x47BB8000 = 0x483B8000 := by decide
  rw [distanceOf, ops_of_binary32 hnum, hspeed, hrate, ← hden]
  simp [floatConst]

/-- Settles O22: the distance is three operations that each round once and keep the order. -/
theorem distanceNeverDecreases : Obligations.DistanceNeverDecreases := by
  intro c i1 i2 hnum hspeed hrate hle
  have h340 : unpack 0x43AA0000 = .fin false 11141120 (-15) := by decide
  have h192000 : unpack 0x483B8000 = .fin false 12288000 (-6) := by decide
  have hord := ((orderedPatterns_floatOfInt hle).floatMul_const h340 (by norm_num)).floatDiv_const
    h192000 (by norm_num) (by norm_num)
  rw [binary32_distanceOf hnum hspeed hrate, binary32_distanceOf hnum hspeed hrate,
    ops_of_binary32 hnum, binary32_fgt, ofNat_toNat_word, ofNat_toNat_word]
  exact hord.floatGt_eq_false

/-- The two products by 340 are neighbouring patterns, and their quotients by 192000 round to the same
one. -/
theorem distanceOf_neighbours_eq : distanceOf Config.example8.ops Config.example8 9252142 =
    distanceOf Config.example8.ops Config.example8 9252143 := by decide

/-- Refutes O23: the neighbours 9252142 and 9252143 have the same distance. -/
theorem not_distanceStrictBelowTwoPow24 : ¬ Obligations.DistanceStrictBelowTwoPow24 := by
  intro h
  have hgt := h Config.example8 9252142 9252143 rfl rfl rfl (by decide) (by decide)
  rw [← distanceOf_neighbours_eq] at hgt
  exact absurd hgt (by decide)

end Sys2Proof.Machine
end

section
/-!
PROOFS. RESET (R320, R322), and how a command and a step can end: every command in a next state (R280), a
step in a stop exactly for an access outside the contracts of the host's window (R64) and of the DMA
channels (R154 E2 and E3, R330).
-/

namespace Sys2Proof.Machine

open Sys2Proof

/-! ### RESET -/

/-- Settles O2: RESET looks at the configuration and the inputs to come alone, which the notifications
keep. -/
theorem resetInputGivesTheResetState : Obligations.ResetInputGivesTheResetState := by
  intro s i rest hin ha
  rw [step_cons hin, ha, deliver_withInputs, perform, resetCore, deliver_cfg]

/-! ### Commands -/

/-- Settles O10: a command is performed or refused, and both answer a next state. -/
theorem everyCommandEndsInANextState : Obligations.EveryCommandEndsInANextState := by
  intro i s
  rw [exec_eq, acceptCommand]
  split
  · exact ⟨_, rfl⟩
  · exact ⟨_, rfl⟩

/-! ### Host accesses -/

/-- No write of a register stops, a command written to `CMD` included. -/
theorem exists_hostWrite_eq_next (r : HostReg) (v : Word) (u : State) :
    ∃ t, hostWrite r v u = .next t := by
  cases r with
  | cmd =>
    rw [hostWrite, writeCommand]
    split
    · exact everyCommandEndsInANextState _ u
    · exact ⟨_, rfl⟩
  | index | bufAddr | bufData | status | result | jobs | reserved => exact ⟨_, rfl⟩

/-- What is asked for is a host access that is not an aligned 32-bit access. -/
def MalformedAccess (a : Action) : Prop :=
  ∃ offset bytes, (bytes ≠ 4 ∨ offset % 4 ≠ 0) ∧
    (a = .access (.read offset bytes) ∨ ∃ v, a = .access (.write offset bytes v))

theorem validShape_eq_false_iff (o b : Nat) : validShape o b = false ↔ b ≠ 4 ∨ o % 4 ≠ 0 := by
  rw [← Bool.not_eq_true, validShape_iff, not_and_or]

theorem malformedAccess_read (o b : Nat) :
    MalformedAccess (.access (.read o b)) ↔ validShape o b = false := by
  simp [MalformedAccess, validShape_eq_false_iff]

theorem malformedAccess_write (o b : Nat) (v : Word) :
    MalformedAccess (.access (.write o b v)) ↔ validShape o b = false := by
  simp [MalformedAccess, validShape_eq_false_iff]

/-- A malformed host access is refused; any other ends in a next state. -/
theorem hostAccess_cases (a : HostAccess) (u : State) :
    (MalformedAccess (.access a) ∧ hostAccess a u = .refused .hostAccessShape) ∨
    (¬ MalformedAccess (.access a) ∧ ∃ t, hostAccess a u = .next t) := by
  cases a with
  | read o b =>
    rw [malformedAccess_read, hostAccess]
    cases validShape o b with
    | false => exact .inl ⟨rfl, rfl⟩
    | true => exact .inr ⟨nofun, _, rfl⟩
  | write o b v =>
    rw [malformedAccess_write, hostAccess]
    cases validShape o b with
    | false => exact .inl ⟨rfl, rfl⟩
    | true => exact .inr ⟨nofun, exists_hostWrite_eq_next _ v u⟩

/-! ### Element accesses -/

/-- A DMA channel whose enable is `en` does not own its buffer: it is disabled, or the job at `j`
computes. -/
def ShutOut (en : Bool) (j : JobStep) : Prop :=
  en = false ∨ j = .downmix ∨ j = .correlate ∨ j = .convert

theorem shutOut_iff (en : Bool) (j : JobStep) : ShutOut en j ↔ en = false ∨ j.computing = true := by
  cases j <;> simp [ShutOut, JobStep.computing]

theorem not_shutOut {en : Bool} {j : JobStep} (hen : en = true) (hd : j ≠ .downmix)
    (hc : j ≠ .correlate) (hv : j ≠ .convert) : ¬ ShutOut en j := by
  simp [ShutOut, hen, hd, hc, hv]

theorem rxWrite_of_beyondCount {u : State} {k : Nat} (h : ¬ ShutOut u.enRx u.jstep)
    (hk : u.cfg.responseLen ≤ k) (v : Sample) : rxWrite k v u = .fault (.dmaBeyondCount .rx) := by
  rw [rxWrite, if_neg (mt (shutOut_iff _ _).2 h), if_neg hk.not_gt]

theorem txRead_of_beyondCount {u : State} {k : Nat} (h : ¬ ShutOut u.enTx u.jstep)
    (hk : u.cfg.sweepLen ≤ k) : txRead k u = .fault (.dmaBeyondCount .tx) := by
  rw [txRead, if_neg (mt (shutOut_iff _ _).2 h), if_neg hk.not_gt]

/-- The three ends of an element write of the RX channel. -/
theorem rxWrite_cases (k : Nat) (v : Sample) (u : State) :
    (ShutOut u.enRx u.jstep ∧ rxWrite k v u = .fault (.dmaNotOwner .rx)) ∨
    (u.cfg.responseLen ≤ k ∧ rxWrite k v u = .fault (.dmaBeyondCount .rx)) ∨
    ∃ t, rxWrite k v u = .next t := by
  rw [rxWrite, shutOut_iff]
  split
  · next h => exact .inl ⟨h, rfl⟩
  · split
    · exact .inr (.inr ⟨_, rfl⟩)
    · next h => exact .inr (.inl ⟨not_lt.1 h, rfl⟩)

/-- The three ends of an element read of the TX channel. -/
theorem txRead_cases (k : Nat) (u : State) :
    (ShutOut u.enTx u.jstep ∧ txRead k u = .fault (.dmaNotOwner .tx)) ∨
    (u.cfg.sweepLen ≤ k ∧ txRead k u = .fault (.dmaBeyondCount .tx)) ∨
    ∃ t, txRead k u = .next t := by
  rw [txRead, shutOut_iff]
  split
  · next h => exact .inl ⟨h, rfl⟩
  · split
    · exact .inr (.inr ⟨_, rfl⟩)
    · next h => exact .inr (.inl ⟨not_lt.1 h, rfl⟩)

/-! ### The stops of a step -/

/-- Only a malformed host access is refused. -/
theorem perform_refused {a : Action} {u : State} {r : Refusal} (h : perform a u = .refused r) :
    r = .hostAccessShape ∧ MalformedAccess a := by
  cases a with
  | access a =>
    rcases hostAccess_cases a u with ⟨hm, ha⟩ | ⟨-, t, ha⟩
    · cases ha.symm.trans h
      exact ⟨rfl, hm⟩
    · cases ha.symm.trans h
  | rxWrite k v =>
    rcases rxWrite_cases k v u with ⟨-, ha⟩ | ⟨-, ha⟩ | ⟨t, ha⟩ <;> cases ha.symm.trans h
  | txRead k =>
    rcases txRead_cases k u with ⟨-, ha⟩ | ⟨-, ha⟩ | ⟨t, ha⟩ <;> cases ha.symm.trans h
  | nothing | job | reset => cases h

/-- Only an element access of a channel that is shut out, or beyond the count, faults. -/
theorem perform_fault {a : Action} {u : State} {f : Fault} (h : perform a u = .fault f) :
    ∃ k, ((∃ v, a = .rxWrite k v) ∧ (f = .dmaNotOwner .rx ∧ ShutOut u.enRx u.jstep ∨
        f = .dmaBeyondCount .rx ∧ u.cfg.responseLen ≤ k)) ∨
      (a = .txRead k ∧ (f = .dmaNotOwner .tx ∧ ShutOut u.enTx u.jstep ∨
        f = .dmaBeyondCount .tx ∧ u.cfg.sweepLen ≤ k)) := by
  cases a with
  | access a => rcases hostAccess_cases a u with ⟨-, ha⟩ | ⟨-, t, ha⟩ <;> cases ha.symm.trans h
  | rxWrite k v =>
    refine ⟨k, .inl ⟨⟨v, rfl⟩, ?_⟩⟩
    rcases rxWrite_cases k v u with ⟨hu, ha⟩ | ⟨hk, ha⟩ | ⟨t, ha⟩ <;> cases ha.symm.trans h
    · exact .inl ⟨rfl, hu⟩
    · exact .inr ⟨rfl, hk⟩
  | txRead k =>
    refine ⟨k, .inr ⟨rfl, ?_⟩⟩
    rcases txRead_cases k u with ⟨hu, ha⟩ | ⟨hk, ha⟩ | ⟨t, ha⟩ <;> cases ha.symm.trans h
    · exact .inl ⟨rfl, hu⟩
    · exact .inr ⟨rfl, hk⟩
  | nothing | job | reset => cases h

theorem perform_of_malformed {a : Action} (h : MalformedAccess a) (u : State) :
    perform a u = .refused .hostAccessShape := by
  obtain ⟨o, b, hs, rfl | ⟨v, rfl⟩⟩ := h <;>
    simp [perform, hostAccess, (validShape_eq_false_iff o b).2 hs]

/-- A step that stops has taken an input, and stops for what the input asks beside its notifications. -/
theorem exists_input_of_step_ne_next {s : State} (h : ∀ t, step s ≠ .next t) :
    ∃ i rest, s.inputs = i :: rest ∧
      step s = perform i.action (deliver i { s with inputs := rest }) := by
  cases hin : s.inputs with
  | nil => exact absurd (step_nil hin) (h _)
  | cons i rest => exact ⟨i, rest, rfl, step_cons hin⟩

/-- Settles O11: the stops of a step are those of the action it takes, after the notifications, which
keep the configuration and with it the counts. -/
theorem stopsComeOnlyFromOutsideTheContract : Obligations.StopsComeOnlyFromOutsideTheContract := by
  intro s
  refine ⟨fun r h => ?refused, fun f h => ?fault, fun i rest u hin hu => ?stops⟩
  case refused =>
    obtain ⟨i, rest, hin, hstep⟩ := exists_input_of_step_ne_next fun t ht => nomatch h.symm.trans ht
    obtain ⟨hr, hm⟩ := perform_refused (hstep.symm.trans h)
    exact ⟨hr, i, rest, hin, hm⟩
  case fault =>
    obtain ⟨i, rest, hin, hstep⟩ := exists_input_of_step_ne_next fun t ht => nomatch h.symm.trans ht
    obtain ⟨k, hk⟩ := perform_fault (hstep.symm.trans h)
    rw [deliver_cfg] at hk
    exact ⟨i, rest, hin, _, k, rfl, hk⟩
  case stops =>
    have hcfg : u.cfg = s.cfg := hu ▸ deliver_cfg i _
    have hjstep : u.jstep = s.jstep := hu ▸ deliver_jstep i _
    have hstep : step s = perform i.action u := hu ▸ step_cons hin
    refine ⟨fun o b hs ha => ?malformed, fun k v ha => ⟨fun h => ?rxNotOwner,
      fun hen hd hc hv hk => ?rxBeyond⟩, fun k ha => ⟨fun h => ?txNotOwner,
      fun hen hd hc hv hk => ?txBeyond⟩⟩
    case malformed => exact hstep.trans (perform_of_malformed ⟨o, b, hs, ha⟩ u)
    case rxNotOwner =>
      refine step_rxWrite_of_not_owner hin ha ?_
      rw [← hu, ← hjstep]
      exact (shutOut_iff _ _).1 h
    case rxBeyond =>
      rw [hstep, ha]
      exact rxWrite_of_beyondCount (not_shutOut hen hd hc hv) (hcfg ▸ hk) v
    case txNotOwner =>
      refine step_txRead_of_not_owner hin ha ?_
      rw [← hu, ← hjstep]
      exact (shutOut_iff _ _).1 h
    case txBeyond =>
      rw [hstep, ha]
      exact txRead_of_beyondCount (not_shutOut hen hd hc hv) (hcfg ▸ hk)

end Sys2Proof.Machine
end

section
/-!
PROOFS. `PROBE` after `START` (R123, R335): what writes it is accepted in `IDLE` alone.
-/

namespace Sys2Proof.Machine

open Sys2Proof

theorem ComputesOnly.probe_eq {s t : State} (h : ComputesOnly s t) : t.probe = s.probe := by
  obtain ⟨m, a, b, c, d, v, rv, r, ix, rfl, -⟩ := h
  rfl

@[simp] theorem rearmStep_probe (a : ArmAction) (s : State) : (rearmStep a s).probe = s.probe := by
  cases a <;> rfl

/-- The four cases of the job's next step: the dispatch, no job, a computing micro-step, an action
of the re-arm. -/
@[simp] theorem jobStep_probe (s : State) : (jobStep s.cfg.ops s).probe = s.probe := by
  rcases jobStep_cases s with ⟨-, -, hj⟩ | ⟨-, -, hj⟩ | ⟨u, j, hu, hj, -⟩ | ⟨a, -, hj⟩
  · rw [hj]
  · rw [hj]
  · rw [hj]
    exact hu.probe_eq
  · rw [hj, rearmStep_probe]

/-- Once started, a command or a window write is not accepted, and of the rest only RESET writes the
probe. -/
theorem Took.probe_eq {u t : State} {a : Action} (h : Took u a t) (ha : a ≠ .reset)
    (hs : u.started = true) : t.probe = u.probe := by
  have hidle : cstate u ≠ .idle := by simp [cstate_idle_iff, hs]
  cases h with
  | job => exact jobStep_probe u
  | reset => exact absurd rfl ha
  | command _ _ hc _ => exact absurd hc hidle
  | window _ _ _ _ hc _ => exact absurd hc hidle
  | nothing | rxWrite | txRead | read | ignored | refused | refusedRead | index | bufAddr => rfl

/-- Settles O52: the job does not write the probe, and neither does an input but RESET. -/
theorem probeIsReadOnlyAfterStart : Obligations.ProbeIsReadOnlyAfterStart := by
  intro s t hs h hr
  rcases step_cases h with ⟨-, rfl⟩ | ⟨i, rest, hi, ht⟩
  · exact jobStep_probe s
  · obtain ⟨a, b, c, e, f, g, k, hd⟩ := deliver_frame i { s with inputs := rest }
    rw [hd] at ht
    exact ht.probe_eq (hr i rest hi) hs

end Sys2Proof.Machine
end
